-- ==== Sys2Proof/Word.lean ====
section
/-! DEFINITION. The value types of the wire formats: bytes and the 16-, 32- and 48-bit fields (20_memory.md R55). -/
namespace Sys2Proof

/-- An 8-bit byte of a frame (R50). -/
abbrev Byte := BitVec 8

/-- A 16-bit field: EtherType, ARP types and opcode, lengths, checksums (R55). -/
abbrev Half := BitVec 16

/-- A 32-bit protocol address; bits 31:24 are the first octet on the wire (R22). -/
abbrev IpAddr := BitVec 32

/-- A 48-bit hardware address; bits 47:40 are the first byte on the wire (R23). -/
abbrev MacAddr := BitVec 48

end Sys2Proof
end

