-- ==== Sys2Proof/Config.lean ====
section
/-! DEFINITION. The parameters of the frame engine (00_scope.md R9), its configuration registers CFG0 to CFG3 (10_state.md R22 to R25),
and the numeric constants of the formats (30_encoding.md R77). -/
namespace Sys2Proof

/-- CFG2 `NOT_FOR_US_POLICY` (R24): what a destination mismatch does. -/
inductive NotForUsPolicy where
  /-- Report the mismatch and go on (the default). -/
  | permissive
  /-- Report the mismatch and end the frame. -/
  | drop
  deriving DecidableEq, Repr

/-- The configuration, fixed at initialization and read-only afterwards (R20, R22 to R26, R221). -/
structure Config where
  /-- CFG0 `DEV_IP` (R22). -/
  devIp : IpAddr
  /-- CFG1 `DEV_MAC` (R23). -/
  devMac : MacAddr
  /-- CFG2 `NOT_FOR_US_POLICY` (R24). -/
  policy : NotForUsPolicy
  /-- CFG3 `FRAME_BUFFER_BYTES` (R25): the capacity of the frame buffer. -/
  frameBufferBytes : Nat
  deriving DecidableEq, Repr

/-- R25: the capacity is at least 14. -/
def Config.wellFormed (c : Config) : Bool := decide (14 ≤ c.frameBufferBytes)

/-- The parameter values of 95_test_vectors.md section 1. They stand in for the arguments that initialization supplies
(R9, R221) where the machine needs closed values.
DESIGN CHOICE (notes/assumptions/1.md), unsafe: only the policy's default is the spec's own reset value. -/
def Config.sample : Config :=
  { devIp := 0x0a000004#32
    devMac := 0x020000000004#48
    policy := .permissive
    frameBufferBytes := 1514 }

/-- `CACHE_ENTRIES` (R9, R27). -/
abbrev cacheEntries : Nat := 32

/-- EtherType of ARP (R77). -/
abbrev etherTypeArp : Half := 0x0806#16

/-- EtherType of IPv4 (R77). -/
abbrev etherTypeIpv4 : Half := 0x0800#16

/-- ARP hardware type Ethernet (R77). -/
abbrev arpHardwareEthernet : Half := 1#16

/-- ARP protocol type IPv4 (R77). -/
abbrev arpProtocolIpv4 : Half := 0x0800#16

/-- ARP opcode Request (R77). -/
abbrev arpRequestOpcode : Half := 1#16

/-- ARP opcode Reply (R77). -/
abbrev arpReplyOpcode : Half := 2#16

/-- IPv4 protocol number of ICMP (R77). -/
abbrev ipProtocolIcmp : Byte := 1#8

/-- ICMP type Echo Request (R77). -/
abbrev icmpEchoRequestType : Byte := 8#8

/-- ICMP type Echo Reply (R77). -/
abbrev icmpEchoReplyType : Byte := 0#8

end Sys2Proof
end

