-- ==== Sys2Proof/Machine/Checksum.lean ====
section
/-! DEFINITION. The Internet checksum of a byte range (43_checksum.md R150), and the exact quantities of its laws (R151). -/
namespace Sys2Proof

/-- R150: add the big-endian 16-bit words of the range to a 32-bit accumulator; an odd last byte is the high byte of a word. -/
def sumWords : BitVec 32 → List Byte → BitVec 32
  | s, [] => s
  | s, [x] => s + (x.setWidth 32 <<< 8)
  | s, x :: y :: rest => sumWords (s + ((x.setWidth 32 <<< 8) ||| y.setWidth 32)) rest

/-- R150: fold the overflow above bit 15 back into the low 16 bits until none remains. The fuel bounds the loop, which runs
at most twice on a 32-bit value (R151 item 3). -/
def foldCarries : Nat → BitVec 32 → BitVec 32
  | 0, s => s
  | k + 1, s => if s >>> 16 = 0#32 then s else foldCarries k ((s &&& 0xFFFF#32) + (s >>> 16))

/-- CSUM, `internetChecksum(bytes) -> uint16` (R150). -/
def internetChecksum (bs : List Byte) : Half := ~~~((foldCarries 2 (sumWords 0#32 bs)).setWidth 16)

/-- R151's `W`: the exact sum, in unbounded natural numbers, of the words that R150 adds. -/
def wordSum : List Byte → Nat
  | [] => 0
  | [x] => x.toNat * 256
  | x :: y :: rest => x.toNat * 256 + y.toNat + wordSum rest

/-- R151 item 2: the value of `fold(W)`. -/
def onesFold (w : Nat) : Nat := if w = 0 then 0 else 1 + (w - 1) % 0xFFFF

end Sys2Proof
end

