-- ==== Sys2Proof/Machine/Bytes.lean ====
section
/-! DEFINITION. Byte order (20_memory.md R51 to R53): the one place where big-endian is decided. -/
namespace Sys2Proof

/-- The number whose big-endian bytes are `bs` (R52): `sum over k of bs[k] * 256^(n-1-k)`. -/
def beNat : List Byte → Nat
  | [] => 0
  | b :: bs => b.toNat * 256 ^ bs.length + beNat bs

/-- The `n` big-endian bytes of `v` (R53): byte `k` is `(v >> (8*(n-1-k))) & 0xFF`. -/
def beBytes : Nat → Nat → List Byte
  | 0, _ => []
  | n + 1, v => BitVec.ofNat 8 (v / 256 ^ n) :: beBytes n v

/-- The `n` bytes at offset `o` of a byte string, read as a big-endian number (R52). -/
def fieldAt (bs : List Byte) (o n : Nat) : Nat := beNat ((bs.drop o).take n)

/-- `buf[o]` (R11). -/
def byteAt (bs : List Byte) (o : Nat) : Byte := BitVec.ofNat 8 (fieldAt bs o 1)

/-- `be16(o)` (R11). -/
def be16At (bs : List Byte) (o : Nat) : Half := BitVec.ofNat 16 (fieldAt bs o 2)

/-- `be32(o)` (R11). -/
def be32At (bs : List Byte) (o : Nat) : IpAddr := BitVec.ofNat 32 (fieldAt bs o 4)

/-- `mac(o)` (R11). -/
def macAt (bs : List Byte) (o : Nat) : MacAddr := BitVec.ofNat 48 (fieldAt bs o 6)

/-- A 16-bit field on the wire. -/
def halfBytes (v : Half) : List Byte := beBytes 2 v.toNat

/-- A 32-bit field on the wire. -/
def ipBytes (v : IpAddr) : List Byte := beBytes 4 v.toNat

/-- A 48-bit field on the wire. -/
def macBytes (v : MacAddr) : List Byte := beBytes 6 v.toNat

end Sys2Proof
end

