-- ==== Sys2Proof/Syntax.lean ====
section
/-! DEFINITION. The instructions: the 20 frame classes of 30_encoding.md R79, one constructor per row of spec/opcode_table.json, each
carrying the wire fields of R71 to R74 that the row's `source_fields` name, and the bytes left over. -/
namespace Sys2Proof

/-- The Ethernet header, frame bytes 0 to 13 (R71). -/
structure EthHeader where
  dst : MacAddr
  src : MacAddr
  etype : Half
  deriving DecidableEq, Repr

/-- The 8-byte fixed ARP header, frame bytes 14 to 21 (R72). -/
structure ArpHeader where
  htype : Half
  ptype : Half
  hlen : Byte
  plen : Byte
  oper : Half
  deriving DecidableEq, Repr

/-- The 20-byte Ethernet/IPv4 ARP body, frame bytes 22 to 41 (R72). -/
structure ArpBody where
  sha : MacAddr
  spa : IpAddr
  tha : MacAddr
  tpa : IpAddr
  deriving DecidableEq, Repr

/-- The first 20 bytes of an IPv4 header, frame bytes 14 to 33 (R73). -/
structure IpHeader where
  ver : BitVec 4
  ihl : BitVec 4
  tos : Byte
  tl : Half
  ident : Half
  flags : BitVec 3
  fragOff : BitVec 13
  ttl : Byte
  proto : Byte
  hcsum : Half
  src : IpAddr
  dst : IpAddr
  deriving DecidableEq, Repr

/-- The first 4 bytes of an ICMP message (R74). -/
structure IcmpHeader where
  icmpType : Byte
  code : Byte
  csum : Half
  deriving DecidableEq, Repr

/-- A frame class with its operands (R70, R79). `payload` is `buf[14..len)`; `rest` is what follows the last parsed header;
`trailer` is the Ethernet padding after the ARP packet or after the `TL` bytes of the datagram (R58). -/
inductive Instr where
  /-- Row 1, R104: a frame too short for an Ethernet header. -/
  | ethRunt (bytes : List Byte)
  /-- Row 2, R105: an EtherType the block does not recognise. -/
  | ethOther (eth : EthHeader) (payload : List Byte)
  /-- Row 3, R114. -/
  | arpRunt (eth : EthHeader) (payload : List Byte)
  /-- Row 4, R115. -/
  | arpBadHtype (eth : EthHeader) (arp : ArpHeader) (rest : List Byte)
  /-- Row 5, R116. -/
  | arpBadPtype (eth : EthHeader) (arp : ArpHeader) (rest : List Byte)
  /-- Row 6, R117. -/
  | arpShortBody (eth : EthHeader) (arp : ArpHeader) (rest : List Byte)
  /-- Row 7, R118. -/
  | arpRequest (eth : EthHeader) (arp : ArpHeader) (body : ArpBody) (trailer : List Byte)
  /-- Row 8, R119. -/
  | arpReplyIn (eth : EthHeader) (arp : ArpHeader) (body : ArpBody) (trailer : List Byte)
  /-- Row 9, R120. -/
  | arpOpcodeOther (eth : EthHeader) (arp : ArpHeader) (body : ArpBody) (trailer : List Byte)
  /-- Row 10, R134. -/
  | ipRunt (eth : EthHeader) (payload : List Byte)
  /-- Row 11, R135. -/
  | ipBadVersion (eth : EthHeader) (ip : IpHeader) (rest : List Byte)
  /-- Row 12, R136. -/
  | ipBadIhl (eth : EthHeader) (ip : IpHeader) (rest : List Byte)
  /-- Row 13, R137. -/
  | ipTtlZero (eth : EthHeader) (ip : IpHeader) (rest : List Byte)
  /-- Row 14, R138. -/
  | ipHdrOverrun (eth : EthHeader) (ip : IpHeader) (rest : List Byte)
  /-- Row 15, R139. -/
  | ipBadChecksum (eth : EthHeader) (ip : IpHeader) (rest : List Byte)
  /-- Row 16, R140. -/
  | ipBadTotalLength (eth : EthHeader) (ip : IpHeader) (rest : List Byte)
  /-- Row 17, R141. -/
  | ipNotIcmp (eth : EthHeader) (ip : IpHeader) (rest : List Byte)
  /-- Row 18, R162. -/
  | icmpRunt (eth : EthHeader) (ip : IpHeader) (rest : List Byte)
  /-- Row 19, R163: `data` is the message after its first 4 bytes (identifier, sequence and data, opaque). -/
  | icmpEchoRequest (eth : EthHeader) (ip : IpHeader) (options : List Byte) (icmp : IcmpHeader) (data : List Byte)
      (trailer : List Byte)
  /-- Row 20, R164. -/
  | icmpOtherType (eth : EthHeader) (ip : IpHeader) (options : List Byte) (icmp : IcmpHeader) (data : List Byte)
      (trailer : List Byte)
  deriving DecidableEq, Repr

/-- The class's name in spec/opcode_table.json. -/
def Instr.mnemonic : Instr → String
  | .ethRunt .. => "ETH_RUNT"
  | .ethOther .. => "ETH_OTHER"
  | .arpRunt .. => "ARP_RUNT"
  | .arpBadHtype .. => "ARP_BAD_HTYPE"
  | .arpBadPtype .. => "ARP_BAD_PTYPE"
  | .arpShortBody .. => "ARP_SHORT_BODY"
  | .arpRequest .. => "ARP_REQUEST"
  | .arpReplyIn .. => "ARP_REPLY_IN"
  | .arpOpcodeOther .. => "ARP_OPCODE_OTHER"
  | .ipRunt .. => "IP_RUNT"
  | .ipBadVersion .. => "IP_BAD_VERSION"
  | .ipBadIhl .. => "IP_BAD_IHL"
  | .ipTtlZero .. => "IP_TTL_ZERO"
  | .ipHdrOverrun .. => "IP_HDR_OVERRUN"
  | .ipBadChecksum .. => "IP_BAD_CHECKSUM"
  | .ipBadTotalLength .. => "IP_BAD_TOTAL_LENGTH"
  | .ipNotIcmp .. => "IP_NOT_ICMP"
  | .icmpRunt .. => "ICMP_RUNT"
  | .icmpEchoRequest .. => "ICMP_ECHO_REQUEST"
  | .icmpOtherType .. => "ICMP_OTHER_TYPE"

end Sys2Proof
end

