-- ==== Sys2Proof/Machine/Formats.lean ====
section
/-! DEFINITION. The wire formats (30_encoding.md R71 to R75): each header read from, and written as, its bytes. Offsets are relative to
the header's own base. -/
namespace Sys2Proof

/-- R71: the Ethernet header at the start of `p`. -/
def EthHeader.parse (p : List Byte) : EthHeader :=
  { dst := macAt p 0, src := macAt p 6, etype := be16At p 12 }

/-- R71. -/
def EthHeader.bytes (h : EthHeader) : List Byte := macBytes h.dst ++ macBytes h.src ++ halfBytes h.etype

/-- R72: the fixed ARP header at the start of `p`. -/
def ArpHeader.parse (p : List Byte) : ArpHeader :=
  { htype := be16At p 0, ptype := be16At p 2, hlen := byteAt p 4, plen := byteAt p 5, oper := be16At p 6 }

/-- R72. -/
def ArpHeader.bytes (h : ArpHeader) : List Byte :=
  halfBytes h.htype ++ halfBytes h.ptype ++ [h.hlen, h.plen] ++ halfBytes h.oper

/-- R72: the Ethernet/IPv4 ARP body at the start of `p` (frame offset 22). -/
def ArpBody.parse (p : List Byte) : ArpBody :=
  { sha := macAt p 0, spa := be32At p 6, tha := macAt p 10, tpa := be32At p 16 }

/-- R72. -/
def ArpBody.bytes (b : ArpBody) : List Byte := macBytes b.sha ++ ipBytes b.spa ++ macBytes b.tha ++ ipBytes b.tpa

/-- R73, R75: the first 20 bytes of the IPv4 header at the start of `p`. -/
def IpHeader.parse (p : List Byte) : IpHeader :=
  { ver := (byteAt p 0).extractLsb' 4 4
    ihl := (byteAt p 0).extractLsb' 0 4
    tos := byteAt p 1
    tl := be16At p 2
    ident := be16At p 4
    flags := (be16At p 6).extractLsb' 13 3
    fragOff := (be16At p 6).extractLsb' 0 13
    ttl := byteAt p 8
    proto := byteAt p 9
    hcsum := be16At p 10
    src := be32At p 12
    dst := be32At p 16 }

/-- R73, R75. -/
def IpHeader.bytes (h : IpHeader) : List Byte :=
  [h.ver ++ h.ihl, h.tos] ++ halfBytes h.tl ++ halfBytes h.ident ++ halfBytes (h.flags ++ h.fragOff) ++ [h.ttl, h.proto] ++
    halfBytes h.hcsum ++ ipBytes h.src ++ ipBytes h.dst

/-- R76: the header length in bytes, `IHL * 4`. -/
def IpHeader.headerLen (h : IpHeader) : Nat := h.ihl.toNat * 4

/-- R74: the first 4 bytes of the ICMP message at the start of `p`. -/
def IcmpHeader.parse (p : List Byte) : IcmpHeader :=
  { icmpType := byteAt p 0, code := byteAt p 1, csum := be16At p 2 }

/-- R74. -/
def IcmpHeader.bytes (h : IcmpHeader) : List Byte := [h.icmpType, h.code] ++ halfBytes h.csum

end Sys2Proof
end

