-- ==== Sys2Proof/WellFormed.lean ====
section
/-! DEFINITION. When an instruction's operands are those of a frame of its class: the whole condition of its row of
30_encoding.md R79, with the failed conditions of the rows before it (the class rules R104, R105, R114 to R120, R134 to R141, R162 to
R164 give the same conditions). -/
namespace Sys2Proof

/-- An ARP frame whose fixed header passes steps A2 and A3 of R110. -/
def arpTypesOk (eth : EthHeader) (arp : ArpHeader) : Bool :=
  eth.etype == etherTypeArp && arp.htype == arpHardwareEthernet && arp.ptype == arpProtocolIpv4

/-- An IPv4 frame whose header passes steps I1 to I4 of R130. -/
def ipFieldsOk (eth : EthHeader) (ip : IpHeader) : Bool :=
  eth.etype == etherTypeIpv4 && ip.ver == 4#4 && decide (5 ≤ ip.ihl.toNat) && ip.ttl != 0#8

/-- An IPv4 frame whose header passes steps I1 to I6 of R130; `rest` is `buf[34..len)`. -/
def ipHeaderOk (eth : EthHeader) (ip : IpHeader) (rest : List Byte) : Bool :=
  ipFieldsOk eth ip && decide (ip.headerLen ≤ 20 + rest.length) &&
    internetChecksum ((ip.bytes ++ rest).take ip.headerLen) == 0#16

/-- An IPv4 frame that passes all of R130. -/
def ipValid (eth : EthHeader) (ip : IpHeader) (rest : List Byte) : Bool :=
  ipHeaderOk eth ip rest && decide (ip.headerLen ≤ ip.tl.toNat) && decide (ip.tl.toNat ≤ 20 + rest.length)

/-- An ICMP frame whose message holds its first 4 bytes: the lengths of the operands are those that IHL and TL give (R73, R74, R76). -/
def icmpValid (eth : EthHeader) (ip : IpHeader) (options : List Byte) (icmp : IcmpHeader) (data trailer : List Byte) : Bool :=
  ipValid eth ip (options ++ icmp.bytes ++ data ++ trailer) && ip.proto == ipProtocolIcmp &&
    decide (20 + options.length = ip.headerLen) && decide (ip.tl.toNat = ip.headerLen + 4 + data.length)

/-- The condition of the instruction's row of R79. -/
def Instr.wellFormed : Instr → Bool
  | .ethRunt bytes => decide (bytes.length < 14)
  | .ethOther eth _ => eth.etype != etherTypeArp && eth.etype != etherTypeIpv4
  | .arpRunt eth payload => eth.etype == etherTypeArp && decide (payload.length < 8)
  | .arpBadHtype eth arp _ => eth.etype == etherTypeArp && arp.htype != arpHardwareEthernet
  | .arpBadPtype eth arp _ =>
    eth.etype == etherTypeArp && arp.htype == arpHardwareEthernet && arp.ptype != arpProtocolIpv4
  | .arpShortBody eth arp rest => arpTypesOk eth arp && decide (rest.length < 20)
  | .arpRequest eth arp _ _ => arpTypesOk eth arp && arp.oper == arpRequestOpcode
  | .arpReplyIn eth arp _ _ => arpTypesOk eth arp && arp.oper == arpReplyOpcode
  | .arpOpcodeOther eth arp _ _ => arpTypesOk eth arp && arp.oper != arpRequestOpcode && arp.oper != arpReplyOpcode
  | .ipRunt eth payload => eth.etype == etherTypeIpv4 && decide (payload.length < 20)
  | .ipBadVersion eth ip _ => eth.etype == etherTypeIpv4 && ip.ver != 4#4
  | .ipBadIhl eth ip _ => eth.etype == etherTypeIpv4 && ip.ver == 4#4 && decide (ip.ihl.toNat < 5)
  | .ipTtlZero eth ip _ =>
    eth.etype == etherTypeIpv4 && ip.ver == 4#4 && decide (5 ≤ ip.ihl.toNat) && ip.ttl == 0#8
  | .ipHdrOverrun eth ip rest => ipFieldsOk eth ip && decide (20 + rest.length < ip.headerLen)
  | .ipBadChecksum eth ip rest =>
    ipFieldsOk eth ip && decide (ip.headerLen ≤ 20 + rest.length) &&
      internetChecksum ((ip.bytes ++ rest).take ip.headerLen) != 0#16
  | .ipBadTotalLength eth ip rest =>
    ipHeaderOk eth ip rest &&
      (decide (ip.tl.toNat < ip.headerLen) || decide (20 + rest.length < ip.tl.toNat))
  | .ipNotIcmp eth ip rest => ipValid eth ip rest && ip.proto != ipProtocolIcmp
  | .icmpRunt eth ip rest =>
    ipValid eth ip rest && ip.proto == ipProtocolIcmp && decide (ip.tl.toNat - ip.headerLen < 4)
  | .icmpEchoRequest eth ip options icmp data trailer =>
    icmpValid eth ip options icmp data trailer && icmp.icmpType == icmpEchoRequestType
  | .icmpOtherType eth ip options icmp data trailer =>
    icmpValid eth ip options icmp data trailer && icmp.icmpType != icmpEchoRequestType

end Sys2Proof
end

