-- ==== Sys2Proof/Decode.lean ====
section
/-! DEFINITION. The frame-class decoder (30_encoding.md R79) and, after it, the encoder: the bytes of a frame of a class. The decoder is total and
rejects nothing: every byte string has exactly one class (R79, R195). -/
namespace Sys2Proof

/-- Rows 3 to 9 of R79: an ARP frame with L3 payload `p`. -/
def decodeArp (eth : EthHeader) (p : List Byte) : Instr :=
  if p.length < 8 then .arpRunt eth p
  else
    let arp := ArpHeader.parse p
    let rest := p.drop 8
    if arp.htype ≠ arpHardwareEthernet then .arpBadHtype eth arp rest
    else if arp.ptype ≠ arpProtocolIpv4 then .arpBadPtype eth arp rest
    else if p.length < 28 then .arpShortBody eth arp rest
    else
      let body := ArpBody.parse rest
      let trailer := p.drop 28
      if arp.oper = arpRequestOpcode then .arpRequest eth arp body trailer
      else if arp.oper = arpReplyOpcode then .arpReplyIn eth arp body trailer
      else .arpOpcodeOther eth arp body trailer

/-- Rows 18 to 20 of R79: a valid datagram `p` of protocol 1, its message at `IHL*4` with length `L = TL - IHL*4`. -/
def decodeIcmp (eth : EthHeader) (ip : IpHeader) (p : List Byte) : Instr :=
  let hl := ip.headerLen
  let tl := ip.tl.toNat
  if tl - hl < 4 then .icmpRunt eth ip (p.drop 20)
  else
    let icmp := IcmpHeader.parse (p.drop hl)
    let options := (p.take hl).drop 20
    let data := (p.take tl).drop (hl + 4)
    let trailer := p.drop tl
    if icmp.icmpType = icmpEchoRequestType then .icmpEchoRequest eth ip options icmp data trailer
    else .icmpOtherType eth ip options icmp data trailer

/-- Rows 10 to 20 of R79: an IPv4 frame with L3 payload `p`. -/
def decodeIp (eth : EthHeader) (p : List Byte) : Instr :=
  if p.length < 20 then .ipRunt eth p
  else
    let ip := IpHeader.parse p
    let rest := p.drop 20
    if ip.ver ≠ 4#4 then .ipBadVersion eth ip rest
    else if ip.ihl.toNat < 5 then .ipBadIhl eth ip rest
    else if ip.ttl = 0#8 then .ipTtlZero eth ip rest
    else if p.length < ip.headerLen then .ipHdrOverrun eth ip rest
    else if internetChecksum (p.take ip.headerLen) ≠ 0#16 then .ipBadChecksum eth ip rest
    else if ip.tl.toNat < ip.headerLen ∨ p.length < ip.tl.toNat then .ipBadTotalLength eth ip rest
    else if ip.proto ≠ ipProtocolIcmp then .ipNotIcmp eth ip rest
    else decodeIcmp eth ip p

/-- R79: the class of a frame, with its operands. -/
def decode (bs : List Byte) : Instr :=
  if bs.length < 14 then .ethRunt bs
  else
    let eth := EthHeader.parse bs
    let payload := bs.drop 14
    if eth.etype ≠ etherTypeArp ∧ eth.etype ≠ etherTypeIpv4 then .ethOther eth payload
    else if eth.etype = etherTypeArp then decodeArp eth payload
    else decodeIp eth payload

/-- The bytes of the frame that an instruction stands for (R71 to R74). -/
def encode : Instr → List Byte
  | .ethRunt bytes => bytes
  | .ethOther eth payload => eth.bytes ++ payload
  | .arpRunt eth payload => eth.bytes ++ payload
  | .arpBadHtype eth arp rest => eth.bytes ++ arp.bytes ++ rest
  | .arpBadPtype eth arp rest => eth.bytes ++ arp.bytes ++ rest
  | .arpShortBody eth arp rest => eth.bytes ++ arp.bytes ++ rest
  | .arpRequest eth arp body trailer => eth.bytes ++ arp.bytes ++ body.bytes ++ trailer
  | .arpReplyIn eth arp body trailer => eth.bytes ++ arp.bytes ++ body.bytes ++ trailer
  | .arpOpcodeOther eth arp body trailer => eth.bytes ++ arp.bytes ++ body.bytes ++ trailer
  | .ipRunt eth payload => eth.bytes ++ payload
  | .ipBadVersion eth ip rest => eth.bytes ++ ip.bytes ++ rest
  | .ipBadIhl eth ip rest => eth.bytes ++ ip.bytes ++ rest
  | .ipTtlZero eth ip rest => eth.bytes ++ ip.bytes ++ rest
  | .ipHdrOverrun eth ip rest => eth.bytes ++ ip.bytes ++ rest
  | .ipBadChecksum eth ip rest => eth.bytes ++ ip.bytes ++ rest
  | .ipBadTotalLength eth ip rest => eth.bytes ++ ip.bytes ++ rest
  | .ipNotIcmp eth ip rest => eth.bytes ++ ip.bytes ++ rest
  | .icmpRunt eth ip rest => eth.bytes ++ ip.bytes ++ rest
  | .icmpEchoRequest eth ip options icmp data trailer =>
    eth.bytes ++ ip.bytes ++ options ++ icmp.bytes ++ data ++ trailer
  | .icmpOtherType eth ip options icmp data trailer =>
    eth.bytes ++ ip.bytes ++ options ++ icmp.bytes ++ data ++ trailer

/-- The `n` bytes that a table word stands for: bit 0 of `w` is the least significant bit of the first byte. -/
def tableBytes : Nat → Nat → List Byte
  | 0, _ => []
  | n + 1, w => BitVec.ofNat 8 w :: tableBytes n (w / 256)

/-- The frame that a row's bits stand for. A row with no bits is the empty frame; any other is extended with zero bytes to 78 bytes,
so that every field the decoder reads at a fixed offset or after the longest IPv4 header (14 + 60 + 4) lies inside it.
DESIGN CHOICE (notes/assumptions/11.md): the table's words carry no frame length. -/
def tableFrame (nbits w : Nat) : List Byte :=
  let n := (nbits + 7) / 8
  if n = 0 then [] else tableBytes n w ++ List.replicate (78 - n) 0#8

/-- What the decoder reads from a row's bits. The decoder refuses nothing (R79), so this is never `none`. -/
def decodeTableWord (nbits w : Nat) : Option Instr := some (decode (tableFrame nbits w))

end Sys2Proof
end

