-- ==== Sys2Proof/Machine/State.lean ====
section
/-! DEFINITION. The machine's state (10_state.md), the reasons a step can stop, and the state after reset (70_reset_and_hazards.md R220, R223). -/
namespace Sys2Proof.Machine

/-- The layer of a report (R190): ETH = 0, ARP = 1, IP = 2, ICMP = 3. -/
inductive Layer where
  | eth
  | arp
  | ip
  | icmp
  deriving DecidableEq, Repr

/-- The kinds of report (R190). -/
inductive ReportKind where
  | truncated
  | unsupportedHardware
  | arpUnsupportedProtocol
  | wrongVersion
  | headerTooShort
  | ttlExpired
  | checksumMismatch
  | ipUnsupportedProtocol
  | unhandledOpcode
  | unhandledIcmpType
  | cacheFull
  | notForUs
  | cacheUpdated
  | cacheInserted
  | sendFailed
  | readFailed
  | sourceClosed
  deriving DecidableEq, Repr

/-- A report record (R190); `Report.word` in Machine/Flags.lean is the 16-bit word on the port. -/
structure Report where
  kind : ReportKind
  layer : Layer
  deriving DecidableEq, Repr

/-- Why the block stopped (R31, R194). -/
inductive HaltCause where
  | readFailed
  | sourceClosed
  deriving DecidableEq, Repr

/-- The sequencer phase, which stands in for a program counter (R31). -/
inductive Phase where
  | idle
  | halted (cause : HaltCause)
  deriving DecidableEq, Repr

/-- An entry of the ARP cache (R27): Free, or Resolved with its three other fields. A Free entry's fields are unspecified and never
read, so a Free entry has none (R30; DESIGN CHOICE, notes/assumptions/3.md, safe). -/
inductive CacheEntry where
  | free
  | resolved (htype : Half) (spa : IpAddr) (sha : MacAddr)
  deriving DecidableEq, Repr

/-- The send sink's answer to an outbound frame (R171). -/
inductive Verdict where
  | ok
  | failed
  deriving DecidableEq, Repr

/-- What the host input port delivers (R180). -/
inductive HostEvent where
  | frame (bytes : List Byte)
  | readFailed
  | sourceClosed
  deriving DecidableEq, Repr

/-- What the outside does next: an event on the host input port, with the verdict the sink gives in that transition (the two free
inputs of a transition, R171, R180), or a reset (R206, R220). -/
inductive Stimulus where
  | event (e : HostEvent) (sink : Verdict)
  | reset
  deriving DecidableEq, Repr

/-- The frame buffer as the cells that hold data, by rising offset (R32, R50). An unlisted offset has no value (R32, U7). -/
abbrev Memory := List Host.Cell

/-- Everything the spec gives the machine (R20), and two fields of the model's own (`inputs`, `sinkVerdict`). -/
structure State where
  /-- The sequencer phase (R31). -/
  phase : Phase
  /-- The ARP cache, `cache[0]` to `cache[31]` (R27). -/
  cache : List CacheEntry
  /-- CFG0 to CFG3 (R22 to R25); no operation writes them (R26). -/
  cfg : Config
  /-- The frame buffer (R32). -/
  buf : Memory
  /-- The number of valid bytes in it (R32). -/
  len : Nat
  /-- The report port: the reports of the last transition, in order (R33, R190). -/
  reports : List Report
  /-- The send-sink port: the outbound frame of the last transition, if any (R33, R170). -/
  out : Option (List Byte)
  /-- The model's own: what the outside will do, in order (U10; DESIGN CHOICE, notes/assumptions/5.md). -/
  inputs : List Stimulus
  /-- The model's own: the verdict that the current transition draws (U9; DESIGN CHOICE, notes/assumptions/6.md). -/
  sinkVerdict : Verdict
  deriving DecidableEq, Repr

/-- Why the model stops where no rule of the spec can lead. -/
inductive Fault where
  /-- A read at an offset `>= len` (R52, R195, U8). Raised by the buffer operations; unreachable from `step`. Safe. -/
  | readOutsideFrame
  /-- A write at an offset `>= len` (R53 says none exists). Raised by the buffer operations; unreachable from `step`. Safe. -/
  | writeOutsideFrame
  deriving DecidableEq, Repr

/-- Why the machine takes no step. -/
inductive Refusal where
  /-- An instruction without a meaning; no arm of `exec` answers it. Safe. -/
  | notModelled (mnemonic : String)
  /-- No event is offered and no reset is applied: the block waits (R185). Raised by `step`. Safe. -/
  | noEventOffered
  /-- An event is offered in a halted phase (R185, U11). Raised by `step`. Safe. -/
  | haltedPhase
  /-- A frame longer than `FRAME_BUFFER_BYTES` is offered (R186, U5). Raised by `step`. Safe. -/
  | frameTooLong
  deriving DecidableEq, Repr

/-- The state after initialization with configuration `c` and reset (R220, R221, R223). -/
def State.initial (c : Config) : State :=
  { phase := .idle
    cache := List.replicate cacheEntries .free
    cfg := c
    buf := []
    len := 0
    reports := []
    out := none
    inputs := []
    sinkVerdict := .ok }

/-- The state after reset, with the parameter values of 95_test_vectors.md section 1 as the initialization's
(DESIGN CHOICE, notes/assumptions/1.md, unsafe). -/
def State.reset : State := State.initial Config.sample

end Sys2Proof.Machine
end

