-- ==== Sys2Proof/Machine/Memory.lean ====
section
/-! DEFINITION. The frame buffer as a list of cells in one canonical form (10_state.md R32, 20_memory.md R50): read and write of one
byte and of a range. -/
namespace Sys2Proof.Machine

/-- The byte at an offset; an offset that is not listed has no value (R32, U7). -/
def Memory.read : Memory → Nat → Option Byte
  | [], _ => none
  | (k, b) :: m, a => if a = k then some b else Memory.read m a

/-- Write one byte, keeping the offsets strictly rising. -/
def Memory.write : Memory → Nat → Byte → Memory
  | [], a, b => [(a, b)]
  | (k, c) :: m, a, b =>
    if a < k then (a, b) :: (k, c) :: m
    else if a = k then (a, b) :: m
    else (k, c) :: Memory.write m a b

/-- The `n` bytes from offset `o`, if all are listed. -/
def Memory.readRange (m : Memory) : Nat → Nat → Option (List Byte)
  | _, 0 => some []
  | o, n + 1 =>
    match Memory.read m o, Memory.readRange m (o + 1) n with
    | some b, some bs => some (b :: bs)
    | _, _ => none

/-- Write a byte string from offset `o`. -/
def Memory.writeRange : Memory → Nat → List Byte → Memory
  | m, _, [] => m
  | m, o, b :: bs => Memory.writeRange (Memory.write m o b) (o + 1) bs

/-- The cells of a byte string that starts at offset `o`. -/
def cellsFrom : Nat → List Byte → Memory
  | _, [] => []
  | o, b :: bs => (o, b) :: cellsFrom (o + 1) bs

/-- The canonical form: offsets strictly rising. An unlisted offset has no value, so no entry can equal what it reads as. -/
def Memory.wf : Memory → Bool
  | [] => true
  | [_] => true
  | (a, _) :: (b, c) :: m => decide (a < b) && Memory.wf ((b, c) :: m)

/-- The buffer holds exactly the bytes at offsets `0 .. n-1` (R32). -/
def Memory.holdsExactly (m : Memory) (n : Nat) : Bool := m.map Prod.fst == List.range n

end Sys2Proof.Machine
end

