-- ==== Sys2Proof/Machine/Ops.lean ====
section
/-! DEFINITION. The shared operations over the state: reports and how a frame ends (60_exceptions.md R192 to R194), the frame buffer
(20_memory.md R52, R53), the checksum of a range of it and its fill (43_checksum.md R150, R153), reset (70_reset_and_hazards.md R220). -/
namespace Sys2Proof.Machine

/-- An operation inside one frame: a value, or the fault of an access outside `buf[0..len)`. -/
abbrev Op (α : Type) := Except Fault α

/-- The result of a step. -/
abbrev Result := Host.Outcome State Fault Refusal

/-- The end of a frame as the outcome of the instruction. -/
def finish : Op State → Result
  | .ok s => .next s
  | .error f => .fault f

/-! ### Reports and the end of a frame -/

/-- `report K(layer)` (R11, R193): append the record; processing goes on. -/
def State.report (s : State) (k : ReportKind) (l : Layer) : State := { s with reports := s.reports ++ [⟨k, l⟩] }

/-- `raise K(layer)` (R11, R192), the block's analogue of taking an exception: append the record and end the frame with no outbound
frame. Nothing is saved and no mode changes; the frame's earlier effects stay. -/
def drop (k : ReportKind) (l : Layer) (s : State) : Op State := .ok { s.report k l with out := none }

/-- `ignore` (R11, R101): end the frame with no report and no outbound frame. -/
def ignore (s : State) : Op State := .ok { s with out := none }

/-- The report of a halt (R183, R184). -/
def HaltCause.kind : HaltCause → ReportKind
  | .readFailed => .readFailed
  | .sourceClosed => .sourceClosed

/-- A halt (R183, R184, R194): the phase becomes `Halted(c)`, one report, no outbound frame. -/
def State.halt (s : State) (c : HaltCause) : State :=
  { s with phase := .halted c, reports := [⟨c.kind, .eth⟩], out := none }

/-- RESET (R220): every entry Free, the phase `Idle`, no frame, no reports, no outbound frame. The configuration is kept, and so is what the
outside will do next. -/
def State.applyReset (s : State) : State :=
  { s with
    phase := .idle
    cache := List.replicate cacheEntries .free
    buf := []
    len := 0
    reports := []
    out := none }

/-! ### The frame buffer -/

/-- R181: the start of a frame step. -/
def State.loadFrame (s : State) (bytes : List Byte) : State :=
  { s with buf := cellsFrom 0 bytes, len := bytes.length, reports := [], out := none }

/-- R181: the buffer is discarded at the end of a frame step. -/
def State.discardFrame (s : State) : State := { s with buf := [], len := 0 }

/-- The state with another buffer content. -/
def State.setBuf (s : State) (m : Memory) : State := { s with buf := m }

/-- `buf[o..o+n)`, guarded by `o + n <= len`: a read outside faults (R52). -/
def State.readBytes (s : State) (o n : Nat) : Op (List Byte) :=
  if o + n ≤ s.len then
    match s.buf.readRange o n with
    | some bs => .ok bs
    | none => .error .readOutsideFrame
  else .error .readOutsideFrame

/-- Write a byte string at `o`, inside `buf[0..len)` (R53). -/
def State.writeBytes (s : State) (o : Nat) (bs : List Byte) : Op State :=
  if o + bs.length ≤ s.len then .ok (s.setBuf (s.buf.writeRange o bs)) else .error .writeOutsideFrame

/-- `MemRead(o, n)` (R52). -/
def State.memRead (s : State) (o n : Nat) : Op Nat :=
  match s.readBytes o n with
  | .ok bs => .ok (beNat bs)
  | .error f => .error f

/-- `MemWrite(o, n, v)` (R53). -/
def State.memWrite (s : State) (o n v : Nat) : Op State := s.writeBytes o (beBytes n v)

/-- `csum(a, b)`: CSUM over `buf[a..b)` (R150). -/
def State.csum (s : State) (a b : Nat) : Op Half :=
  match s.readBytes a (b - a) with
  | .ok bs => .ok (internetChecksum bs)
  | .error f => .error f

/-- CSUM_FILL over `[a, b)` with its field at `f` (R153): zero the field, compute, write back big-endian. -/
def State.csumFill (s : State) (a b f : Nat) : Op State := do
  let s ← s.memWrite f 2 0
  let c ← s.csum a b
  s.memWrite f 2 c.toNat

end Sys2Proof.Machine
end

