-- ==== Sys2Proof/Machine/Cache.lean ====
section
/-! DEFINITION. The ARP cache (10_state.md R27 to R29): update, insert (41_arp.md R111, R112) and step A5 of ARP_HANDLE, which learns a sender. -/
namespace Sys2Proof.Machine

/-- The entry is Resolved with this key (R27, R28). -/
def CacheEntry.hasKey : CacheEntry → Half → IpAddr → Bool
  | .free, _, _ => false
  | .resolved h i _, ht, ip => h == ht && i == ip

/-- The cache key of a Resolved entry (R28). -/
def CacheEntry.key : CacheEntry → Option (Half × IpAddr)
  | .free => none
  | .resolved h i _ => some (h, i)

/-- ARP_CACHE_UPDATE (R111): overwrite `sha` in the first Resolved entry with the key; `none` is the result false. -/
def cacheUpdate : List CacheEntry → Half → IpAddr → MacAddr → Option (List CacheEntry)
  | [], _, _, _ => none
  | e :: es, ht, ip, hw =>
    if e.hasKey ht ip then some (.resolved ht ip hw :: es)
    else (cacheUpdate es ht ip hw).map (e :: ·)

/-- ARP_CACHE_INSERT (R112): turn the first Free entry Resolved; `none` is the result false (table full). -/
def cacheInsert : List CacheEntry → Half → IpAddr → MacAddr → Option (List CacheEntry)
  | [], _, _, _ => none
  | .free :: es, ht, ip, hw => some (.resolved ht ip hw :: es)
  | .resolved h i m :: es, ht, ip, hw => (cacheInsert es ht ip hw).map (.resolved h i m :: ·)

/-- Step A5 of ARP_HANDLE (R110): update, else insert, else CacheFull; each is reported and processing goes on. -/
def State.learn (s : State) (ht : Half) (ip : IpAddr) (hw : MacAddr) : State :=
  match cacheUpdate s.cache ht ip hw with
  | some c => { s with cache := c }.report .cacheUpdated .arp
  | none =>
    match cacheInsert s.cache ht ip hw with
    | some c => { s with cache := c }.report .cacheInserted .arp
    | none => s.report .cacheFull .arp

/-- R28: no two Resolved entries share a key. -/
def cacheKeysDistinct (c : List CacheEntry) : Bool := decide (c.filterMap CacheEntry.key).Nodup

/-- R112: the Free entries form a suffix. -/
def cacheFreeSuffix : List CacheEntry → Bool
  | [] => true
  | .resolved _ _ _ :: es => cacheFreeSuffix es
  | .free :: es => es.all (· == .free)

/-- The cache is an array of 32 entries with the invariant of R28 and the shape of R112. -/
def cacheWf (c : List CacheEntry) : Bool := c.length == cacheEntries && cacheKeysDistinct c && cacheFreeSuffix c

end Sys2Proof.Machine
end

