-- ==== Sys2Proof/Machine/Operands.lean ====
section
/-! DEFINITION. The operand forms: a field of the frame buffer at each access width (20_memory.md R55), read and written through
MemRead and MemWrite (R52, R53). -/
namespace Sys2Proof.Machine

/-- An 8-bit field (R55): `buf[o]`. -/
def State.readByte (s : State) (o : Nat) : Op Byte := (s.memRead o 1).map (BitVec.ofNat 8)

/-- A 16-bit field (R55): `be16(o)`. -/
def State.readHalf (s : State) (o : Nat) : Op Half := (s.memRead o 2).map (BitVec.ofNat 16)

/-- A 32-bit field (R55): `be32(o)`. -/
def State.readIp (s : State) (o : Nat) : Op IpAddr := (s.memRead o 4).map (BitVec.ofNat 32)

/-- A 48-bit field (R55): `mac(o)`. -/
def State.readMac (s : State) (o : Nat) : Op MacAddr := (s.memRead o 6).map (BitVec.ofNat 48)

/-- Write an 8-bit field (R53, R55). -/
def State.writeByte (s : State) (o : Nat) (v : Byte) : Op State := s.memWrite o 1 v.toNat

/-- Write a 16-bit field (R53, R55). -/
def State.writeHalf (s : State) (o : Nat) (v : Half) : Op State := s.memWrite o 2 v.toNat

/-- Write a 32-bit field (R53, R55). -/
def State.writeIp (s : State) (o : Nat) (v : IpAddr) : Op State := s.memWrite o 4 v.toNat

/-- Write a 48-bit field (R53, R55). -/
def State.writeMac (s : State) (o : Nat) (v : MacAddr) : Op State := s.memWrite o 6 v.toNat

end Sys2Proof.Machine
end

