-- ==== Sys2Proof/Machine/Transmit.lean ====
section
/-! DEFINITION. The frame transmitter (45_transmit.md R170, R171) and ETH_FINALIZE (40_ethernet.md R102). -/
namespace Sys2Proof.Machine

/-- ETH_FINALIZE (R102): write the Ethernet header; the payload is not touched. -/
def State.ethFinalize (s : State) (et : Half) (dmac smac : MacAddr) : Op State := do
  let s ← s.writeHalf 12 et
  let s ← s.writeMac 0 dmac
  s.writeMac 6 smac

/-- `emit(n)` (R11, R170): hand the bytes to the send sink, and report SendFailed when the verdict of this transition is `failed` (R171). -/
def State.emit (s : State) (bytes : List Byte) : State :=
  match s.sinkVerdict with
  | .ok => { s with out := some bytes }
  | .failed => { s with out := some bytes }.report .sendFailed .eth

/-- SEND (R170): finalize, then emit `buf[0..length+14)`; the length is never narrowed (R230). -/
def State.send (s : State) (et : Half) (length : Nat) (dmac : MacAddr) : Op State := do
  let s ← s.ethFinalize et dmac s.cfg.devMac
  let bytes ← s.readBytes 0 (length + 14)
  .ok (s.emit bytes)

/-- The destination check of the ARP path (R110 step A6) and of the IPv4 path (R131): on a mismatch NotForUs is reported, and the frame
goes on under PERMISSIVE and ends under DROP (R24). -/
def State.notForUs (s : State) (l : Layer) (ip : IpAddr) (go : State → Op State) : Op State :=
  if ip = s.cfg.devIp then go s
  else
    match s.cfg.policy with
    | .permissive => go (s.report .notForUs l)
    | .drop => drop .notForUs l s

end Sys2Proof.Machine
end

