-- ==== Sys2Proof/Machine/Arp.lean ====
section
/-! DEFINITION. The ARP reply (41_arp.md R113) and the ARP classes (R114 to R120). -/
namespace Sys2Proof.Machine

/-- ARP_REPLY (R113): the original sender is read before any write (R12, R224), the packet is rewritten in place, and 28 bytes of payload are
sent to the original sender's hardware address. -/
def State.arpReply (s : State) : Op State := do
  let osha ← s.readMac 22
  let ospa ← s.readIp 28
  let s ← s.writeHalf 20 arpReplyOpcode
  let s ← s.writeMac 22 s.cfg.devMac
  let s ← s.writeIp 28 s.cfg.devIp
  let s ← s.writeMac 32 osha
  let s ← s.writeIp 38 ospa
  s.send etherTypeArp 28 osha

/-- ARP_RUNT (R114). -/
def execArpRunt (_eth : EthHeader) (_payload : List Byte) (s : State) : Result := finish (drop .truncated .arp s)

/-- ARP_BAD_HTYPE (R115). -/
def execArpBadHtype (_eth : EthHeader) (_arp : ArpHeader) (_rest : List Byte) (s : State) : Result :=
  finish (drop .unsupportedHardware .arp s)

/-- ARP_BAD_PTYPE (R116). -/
def execArpBadPtype (_eth : EthHeader) (_arp : ArpHeader) (_rest : List Byte) (s : State) : Result :=
  finish (drop .arpUnsupportedProtocol .arp s)

/-- ARP_SHORT_BODY (R117). -/
def execArpShortBody (_eth : EthHeader) (_arp : ArpHeader) (_rest : List Byte) (s : State) : Result :=
  finish (drop .truncated .arp s)

/-- ARP_REQUEST (R118): learn the sender, check the target, reply. -/
def execArpRequest (_eth : EthHeader) (arp : ArpHeader) (body : ArpBody) (_trailer : List Byte) (s : State) : Result :=
  finish ((s.learn arp.htype body.spa body.sha).notForUs .arp body.tpa State.arpReply)

/-- ARP_REPLY_IN (R119): learn the sender, check the target, drop with UnhandledOpcode. -/
def execArpReplyIn (_eth : EthHeader) (arp : ArpHeader) (body : ArpBody) (_trailer : List Byte) (s : State) : Result :=
  finish ((s.learn arp.htype body.spa body.sha).notForUs .arp body.tpa (drop .unhandledOpcode .arp))

/-- ARP_OPCODE_OTHER (R120): as ARP_REPLY_IN. -/
def execArpOpcodeOther (_eth : EthHeader) (arp : ArpHeader) (body : ArpBody) (_trailer : List Byte) (s : State) : Result :=
  finish ((s.learn arp.htype body.spa body.sha).notForUs .arp body.tpa (drop .unhandledOpcode .arp))

end Sys2Proof.Machine
end

