-- ==== Sys2Proof/Machine/Ethernet.lean ====
section
/-! DEFINITION. The Ethernet classes (40_ethernet.md R104, R105). -/
namespace Sys2Proof.Machine

/-- ETH_RUNT (R104): `[Truncated(ETH)]`, no outbound frame. -/
def execEthRunt (_bytes : List Byte) (s : State) : Result := finish (drop .truncated .eth s)

/-- ETH_OTHER (R105): no report, no outbound frame. -/
def execEthOther (_eth : EthHeader) (_payload : List Byte) (s : State) : Result := finish (ignore s)

end Sys2Proof.Machine
end

