-- ==== Sys2Proof/Machine/Ipv4.lean ====
section
/-! DEFINITION. The IPv4 reply (42_ipv4.md R133) and the IPv4 classes (R134 to R141). -/
namespace Sys2Proof.Machine

/-- IP_REPLY (R133), with header length `hl = IHL*4` and total length `tl`: the originals are read before any write (R12, R224 to R226), the
new destination is the old source and the new source is `DEV_IP` (R225, C4), the header checksum is filled after both (R227), and `tl` bytes of
payload are sent to the inbound Ethernet source. -/
def State.ipReply (s : State) (hl tl : Nat) : Op State := do
  let osrc ← s.readIp 26
  let oethsrc ← s.readMac 6
  let s ← s.writeIp 30 osrc
  let s ← s.writeIp 26 s.cfg.devIp
  let s ← s.csumFill 14 (14 + hl) 24
  s.send etherTypeIpv4 tl oethsrc

/-- IP_RUNT (R134). -/
def execIpRunt (_eth : EthHeader) (_payload : List Byte) (s : State) : Result := finish (drop .truncated .ip s)

/-- IP_BAD_VERSION (R135). -/
def execIpBadVersion (_eth : EthHeader) (_ip : IpHeader) (_rest : List Byte) (s : State) : Result :=
  finish (drop .wrongVersion .ip s)

/-- IP_BAD_IHL (R136). -/
def execIpBadIhl (_eth : EthHeader) (_ip : IpHeader) (_rest : List Byte) (s : State) : Result :=
  finish (drop .headerTooShort .ip s)

/-- IP_TTL_ZERO (R137). -/
def execIpTtlZero (_eth : EthHeader) (_ip : IpHeader) (_rest : List Byte) (s : State) : Result :=
  finish (drop .ttlExpired .ip s)

/-- IP_HDR_OVERRUN (R138). -/
def execIpHdrOverrun (_eth : EthHeader) (_ip : IpHeader) (_rest : List Byte) (s : State) : Result :=
  finish (drop .truncated .ip s)

/-- IP_BAD_CHECKSUM (R139). -/
def execIpBadChecksum (_eth : EthHeader) (_ip : IpHeader) (_rest : List Byte) (s : State) : Result :=
  finish (drop .checksumMismatch .ip s)

/-- IP_BAD_TOTAL_LENGTH (R140). -/
def execIpBadTotalLength (_eth : EthHeader) (_ip : IpHeader) (_rest : List Byte) (s : State) : Result :=
  finish (drop .truncated .ip s)

/-- IP_NOT_ICMP (R141): the destination check, then IpUnsupportedProtocol. -/
def execIpNotIcmp (_eth : EthHeader) (ip : IpHeader) (_rest : List Byte) (s : State) : Result :=
  finish (s.notForUs .ip ip.dst (drop .ipUnsupportedProtocol .ip))

end Sys2Proof.Machine
end

