-- ==== Sys2Proof/Machine/Icmp.lean ====
section
/-! DEFINITION. The echo-reply transformer (44_icmp.md R161) and the ICMP classes (R162 to R164). -/
namespace Sys2Proof.Machine

/-- ICMP_TO_REPLY (R161) on the message of `l` bytes at offset `i`: type Reply, then CSUM_FILL over the whole message. -/
def State.icmpToReply (s : State) (i l : Nat) : Op State := do
  let s ← s.writeByte i icmpEchoReplyType
  s.csumFill i (i + l) (i + 2)

/-- ICMP_RUNT (R162): the destination check, then Truncated(ICMP). -/
def execIcmpRunt (_eth : EthHeader) (ip : IpHeader) (_rest : List Byte) (s : State) : Result :=
  finish (s.notForUs .ip ip.dst (drop .truncated .icmp))

/-- ICMP_ECHO_REQUEST (R163): the destination check, the message made a reply (R161), then the IPv4 reply (R132, R133). -/
def execIcmpEchoRequest (_eth : EthHeader) (ip : IpHeader) (_options : List Byte) (_icmp : IcmpHeader) (_data _trailer : List Byte)
    (s : State) : Result :=
  finish (s.notForUs .ip ip.dst fun s => do
    let s ← s.icmpToReply (14 + ip.headerLen) (ip.tl.toNat - ip.headerLen)
    s.ipReply ip.headerLen ip.tl.toNat)

/-- ICMP_OTHER_TYPE (R164): the destination check, UnhandledIcmpType, then the IPv4 reply with the message untouched. -/
def execIcmpOtherType (_eth : EthHeader) (ip : IpHeader) (_options : List Byte) (_icmp : IcmpHeader) (_data _trailer : List Byte)
    (s : State) : Result :=
  finish (s.notForUs .ip ip.dst fun s => (s.report .unhandledIcmpType .icmp).ipReply ip.headerLen ip.tl.toNat)

end Sys2Proof.Machine
end

