-- ==== Sys2Proof/Machine/Dispatch.lean ====
section
/-! DEFINITION. The meaning of each frame class: one arm per constructor of Instr. -/
namespace Sys2Proof.Machine

def exec (i : Instr) (s : State) : Host.Outcome State Fault Refusal :=
  match i with
  | .ethRunt bytes => Sys2Proof.Machine.execEthRunt bytes s
  | .ethOther eth payload => Sys2Proof.Machine.execEthOther eth payload s
  | .arpRunt eth payload => Sys2Proof.Machine.execArpRunt eth payload s
  | .arpBadHtype eth arp rest => Sys2Proof.Machine.execArpBadHtype eth arp rest s
  | .arpBadPtype eth arp rest => Sys2Proof.Machine.execArpBadPtype eth arp rest s
  | .arpShortBody eth arp rest => Sys2Proof.Machine.execArpShortBody eth arp rest s
  | .arpRequest eth arp body trailer => Sys2Proof.Machine.execArpRequest eth arp body trailer s
  | .arpReplyIn eth arp body trailer => Sys2Proof.Machine.execArpReplyIn eth arp body trailer s
  | .arpOpcodeOther eth arp body trailer => Sys2Proof.Machine.execArpOpcodeOther eth arp body trailer s
  | .ipRunt eth payload => Sys2Proof.Machine.execIpRunt eth payload s
  | .ipBadVersion eth ip rest => Sys2Proof.Machine.execIpBadVersion eth ip rest s
  | .ipBadIhl eth ip rest => Sys2Proof.Machine.execIpBadIhl eth ip rest s
  | .ipTtlZero eth ip rest => Sys2Proof.Machine.execIpTtlZero eth ip rest s
  | .ipHdrOverrun eth ip rest => Sys2Proof.Machine.execIpHdrOverrun eth ip rest s
  | .ipBadChecksum eth ip rest => Sys2Proof.Machine.execIpBadChecksum eth ip rest s
  | .ipBadTotalLength eth ip rest => Sys2Proof.Machine.execIpBadTotalLength eth ip rest s
  | .ipNotIcmp eth ip rest => Sys2Proof.Machine.execIpNotIcmp eth ip rest s
  | .icmpRunt eth ip rest => Sys2Proof.Machine.execIcmpRunt eth ip rest s
  | .icmpEchoRequest eth ip options icmp data trailer => Sys2Proof.Machine.execIcmpEchoRequest eth ip options icmp data trailer s
  | .icmpOtherType eth ip options icmp data trailer => Sys2Proof.Machine.execIcmpOtherType eth ip options icmp data trailer s

end Sys2Proof.Machine
end

