-- ==== Sys2Proof/Machine/Cycle.lean ====
section
/-! DEFINITION. The frame cycle (46_frame_cycle.md): what one host input event does, and what the machine does with what the outside offers. -/
namespace Sys2Proof.Machine

/-- The transition takes the next stimulus from the input port and, with an event, the sink's verdict (R57, R171, R180). -/
def State.take (s : State) (rest : List Stimulus) (v : Verdict) : State := { s with inputs := rest, sinkVerdict := v }

/-- The buffer is discarded when the frame ends in a next state (R181). -/
def endFrame : Result → Result
  | .next s => .next s.discardFrame
  | .fault f => .fault f
  | .refused r => .refused r

/-- STEP on `Frame(bytes)` in phase `Idle` (R181): the frame is loaded, decoded (R79) and run as its class. A frame longer than the buffer has no
step (R186). -/
def State.frameStep (s : State) (bytes : List Byte) : Result :=
  if bytes.length ≤ s.cfg.frameBufferBytes then endFrame (exec (decode bytes) (s.loadFrame bytes))
  else .refused .frameTooLong

/-- STEP on an event in phase `Idle` (R181, R183, R184). -/
def State.eventStep (s : State) : HostEvent → Result
  | .frame bytes => s.frameStep bytes
  | .readFailed => .next (s.halt .readFailed)
  | .sourceClosed => .next (s.halt .sourceClosed)

/-- One transition: a reset in any phase (R220), an event in phase `Idle`; no event is taken in a halted phase, and none is made up (R185). -/
def State.transition (s : State) : Result :=
  match s.inputs with
  | [] => .refused .noEventOffered
  | .reset :: rest => .next ({ s with inputs := rest }.applyReset)
  | .event e v :: rest =>
    match s.phase with
    | .halted _ => .refused .haltedPhase
    | .idle => (s.take rest v).eventStep e

/-- Put an event with frame `bytes` at the head of the input port of an idle machine whose buffer can hold it. The verdict of a transition is a free
draw (R171, U9); for the placed frame it is the one that the state holds from its last transition.
DESIGN CHOICE (notes/assumptions/6.md), unsafe as a named value: from `State.reset` it is `ok`. No step and no statement uses this definition. -/
def State.offerFrame (s : State) (bytes : List Byte) : State :=
  { s with
    phase := .idle
    cfg := { s.cfg with frameBufferBytes := max s.cfg.frameBufferBytes bytes.length }
    inputs := .event (.frame bytes) s.sinkVerdict :: s.inputs }

end Sys2Proof.Machine
end

