-- ==== Sys2Proof/Machine/Step.lean ====
section
/-! DEFINITION. One step of the machine (46_frame_cycle.md R180 to R186; definitions in Machine/Cycle.lean), and where the host places a frame for it. -/
namespace Sys2Proof.Machine

/-- One step: the transition that the next stimulus causes. -/
def step (s : State) : Host.Outcome State Fault Refusal := s.transition

/-- The state whose next step takes the frame that a table word stands for (Decode.lean, `tableFrame`) from the input port. -/
def State.withFetchWord (s : State) (nbits w : Nat) : State := s.offerFrame (tableFrame nbits w)

end Sys2Proof.Machine
end

