-- ==== Sys2Proof/Machine/ClassTable.lean ====
section
/-! DEFINITION. The opcode table as data (30_encoding.md R80): the rows of spec/opcode_table.json with their match and mask strings, guards and
priorities, and the decoder that R80 gives them. It is the spec's other description of what `decode` finds (R79). -/
namespace Sys2Proof

/-- A row of the table (R80). The guard is read on the whole frame. -/
structure ClassRow where
  mnemonic : String
  bits : List Byte
  mask : List Byte
  guard : List Byte → Bool
  priority : Nat

/-- `P = len - 14` (R76). -/
def payloadLen (buf : List Byte) : Nat := buf.length - 14

/-- `IHL` (R75). -/
def ihlOf (buf : List Byte) : Nat := (byteAt buf 14 &&& 0xF#8).toNat

/-- `ver` (R75). -/
def verOf (buf : List Byte) : Nat := ((byteAt buf 14 >>> 4) &&& 0xF#8).toNat

/-- `TL` (R73). -/
def tlOf (buf : List Byte) : Nat := (be16At buf 16).toNat

/-- `csum(14, 14 + IHL*4)` (R150). -/
def headerCsumOf (buf : List Byte) : Half := internetChecksum ((buf.drop 14).take (ihlOf buf * 4))

/-- The guard that rows 14 to 20 share: a complete minimum header of at least 5 words and a TTL. -/
def guardHeader (buf : List Byte) : Bool :=
  decide (20 ≤ payloadLen buf) && decide (5 ≤ ihlOf buf) && byteAt buf 22 != 0#8

/-- The guard that rows 17 to 20 share: a valid header and a total length within it and the frame. -/
def guardDatagram (buf : List Byte) : Bool :=
  guardHeader buf && verOf buf == 4 && decide (ihlOf buf * 4 ≤ payloadLen buf) && headerCsumOf buf == 0#16 &&
    decide (ihlOf buf * 4 ≤ tlOf buf) && decide (tlOf buf ≤ payloadLen buf)

/-- Twelve bytes that a match or a mask leaves open: the two addresses. -/
def openAddresses : List Byte := List.replicate 12 0#8

/-- The match and mask strings of the ARP rows: the EtherType, then the given fixed bytes. -/
def arpBits (more : List Byte) : List Byte := openAddresses ++ [0x08#8, 0x06#8] ++ more

/-- The match and mask strings of the IPv4 rows. -/
def ipBits (more : List Byte) : List Byte := openAddresses ++ [0x08#8, 0x00#8] ++ more

/-- A mask that fixes the EtherType, then the given bytes. -/
def etypeMask (more : List Byte) : List Byte := openAddresses ++ [0xff#8, 0xff#8] ++ more

/-- The match string of rows 18 to 20 after the EtherType: version 4 and protocol 1. -/
def icmpBits : List Byte := [0x40#8, 0#8, 0#8, 0#8, 0#8, 0#8, 0#8, 0#8, 0#8, 0x01#8]

/-- The mask string of rows 18 to 20 after the EtherType. -/
def icmpMask : List Byte := [0xf0#8, 0#8, 0#8, 0#8, 0#8, 0#8, 0#8, 0#8, 0#8, 0xff#8]

/-- The rows of spec/opcode_table.json. -/
def classTable : List ClassRow :=
  [ ⟨"ETH_RUNT", [], [], fun b => decide (b.length < 14), 1⟩,
    ⟨"ETH_OTHER", [], [], fun b => decide (14 ≤ b.length) && be16At b 12 != 0x0806#16 && be16At b 12 != 0x0800#16, 2⟩,
    ⟨"ARP_RUNT", arpBits [], etypeMask [], fun b => decide (payloadLen b < 8), 3⟩,
    ⟨"ARP_BAD_HTYPE", arpBits [], etypeMask [], fun b => decide (8 ≤ payloadLen b) && be16At b 14 != 1#16, 4⟩,
    ⟨"ARP_BAD_PTYPE", arpBits [0x00#8, 0x01#8], etypeMask [0xff#8, 0xff#8],
      fun b => decide (8 ≤ payloadLen b) && be16At b 16 != 0x0800#16, 5⟩,
    ⟨"ARP_SHORT_BODY", arpBits [0x00#8, 0x01#8, 0x08#8, 0x00#8], etypeMask [0xff#8, 0xff#8, 0xff#8, 0xff#8],
      fun b => decide (payloadLen b < 28), 6⟩,
    ⟨"ARP_REQUEST", arpBits [0x00#8, 0x01#8, 0x08#8, 0x00#8, 0#8, 0#8, 0x00#8, 0x01#8],
      etypeMask [0xff#8, 0xff#8, 0xff#8, 0xff#8, 0#8, 0#8, 0xff#8, 0xff#8], fun b => decide (28 ≤ payloadLen b), 7⟩,
    ⟨"ARP_REPLY_IN", arpBits [0x00#8, 0x01#8, 0x08#8, 0x00#8, 0#8, 0#8, 0x00#8, 0x02#8],
      etypeMask [0xff#8, 0xff#8, 0xff#8, 0xff#8, 0#8, 0#8, 0xff#8, 0xff#8], fun b => decide (28 ≤ payloadLen b), 8⟩,
    ⟨"ARP_OPCODE_OTHER", arpBits [0x00#8, 0x01#8, 0x08#8, 0x00#8], etypeMask [0xff#8, 0xff#8, 0xff#8, 0xff#8],
      fun b => decide (28 ≤ payloadLen b) && be16At b 20 != 1#16 && be16At b 20 != 2#16, 9⟩,
    ⟨"IP_RUNT", ipBits [], etypeMask [], fun b => decide (payloadLen b < 20), 10⟩,
    ⟨"IP_BAD_VERSION", ipBits [], etypeMask [], fun b => decide (20 ≤ payloadLen b) && verOf b != 4, 11⟩,
    ⟨"IP_BAD_IHL", ipBits [0x40#8], etypeMask [0xf0#8], fun b => decide (20 ≤ payloadLen b) && decide (ihlOf b < 5), 12⟩,
    ⟨"IP_TTL_ZERO", ipBits [0x40#8, 0#8, 0#8, 0#8, 0#8, 0#8, 0#8, 0#8, 0x00#8],
      etypeMask [0xf0#8, 0#8, 0#8, 0#8, 0#8, 0#8, 0#8, 0#8, 0xff#8],
      fun b => decide (20 ≤ payloadLen b) && decide (5 ≤ ihlOf b), 13⟩,
    ⟨"IP_HDR_OVERRUN", ipBits [0x40#8], etypeMask [0xf0#8],
      fun b => guardHeader b && decide (payloadLen b < ihlOf b * 4), 14⟩,
    ⟨"IP_BAD_CHECKSUM", ipBits [0x40#8], etypeMask [0xf0#8],
      fun b => guardHeader b && decide (ihlOf b * 4 ≤ payloadLen b) && headerCsumOf b != 0#16, 15⟩,
    ⟨"IP_BAD_TOTAL_LENGTH", ipBits [0x40#8], etypeMask [0xf0#8],
      fun b => guardHeader b && verOf b == 4 && decide (ihlOf b * 4 ≤ payloadLen b) && headerCsumOf b == 0#16 &&
        (decide (tlOf b < ihlOf b * 4) || decide (payloadLen b < tlOf b)), 16⟩,
    ⟨"IP_NOT_ICMP", ipBits [0x40#8], etypeMask [0xf0#8], fun b => guardDatagram b && byteAt b 23 != 1#8, 17⟩,
    ⟨"ICMP_RUNT", ipBits icmpBits, etypeMask icmpMask, fun b => guardDatagram b && decide (tlOf b - ihlOf b * 4 < 4), 18⟩,
    ⟨"ICMP_ECHO_REQUEST", ipBits icmpBits, etypeMask icmpMask,
      fun b => guardDatagram b && decide (4 ≤ tlOf b - ihlOf b * 4) && byteAt b (14 + ihlOf b * 4) == 8#8, 19⟩,
    ⟨"ICMP_OTHER_TYPE", ipBits icmpBits, etypeMask icmpMask,
      fun b => guardDatagram b && decide (4 ≤ tlOf b - ihlOf b * 4) && byteAt b (14 + ihlOf b * 4) != 8#8, 20⟩ ]

/-- `(buf[k] & mask[k]) = match[k]` for every `k < n` (R80). -/
def maskMatches : List Byte → List Byte → List Byte → Bool
  | _, [], _ => true
  | b :: buf, m :: mask, x :: bits => b &&& m == x && maskMatches buf mask bits
  | _, _, _ => false

/-- The row applies (R80): `len >= n`, the masked bytes match, and the guard holds. -/
def ClassRow.applies (r : ClassRow) (buf : List Byte) : Bool :=
  decide (r.mask.length ≤ buf.length) && maskMatches buf r.mask r.bits && r.guard buf

/-- The class of a frame by the table (R80): the first row that applies; the rows stand in increasing priority. -/
def classByTable (buf : List Byte) : Option String := (classTable.find? (·.applies buf)).map ClassRow.mnemonic

end Sys2Proof
end

