-- ==== Sys2Proof/Machine/EventText.lean ====
section
/-! DEFINITION. The textual form of a stream of host input events (30_encoding.md R82): one event per line, `FRAME <hex bytes>`, `READ_FAILED` or
`SOURCE_CLOSED`; a line may end with `; comment`. Text is a list of characters. -/
namespace Sys2Proof.Machine

/-- The value of a hex digit; capitals are read too. -/
def hexValue (c : Char) : Option Nat :=
  let n := c.toNat
  if 48 ≤ n ∧ n ≤ 57 then some (n - 48)
  else if 97 ≤ n ∧ n ≤ 102 then some (n - 87)
  else if 65 ≤ n ∧ n ≤ 70 then some (n - 55)
  else none

/-- A hex digit below 16. -/
def hexChar (n : Nat) : Char := Char.ofNat (if n < 10 then 48 + n else 87 + n)

/-- Two hex digits per byte (R10, R82). -/
def parseByte : List Char → Option Byte
  | [a, b] =>
    match hexValue a, hexValue b with
    | some x, some y => some (BitVec.ofNat 8 (x * 16 + y))
    | _, _ => none
  | _ => none

/-- The words of a line, separated by spaces. -/
def splitWords : List Char → List (List Char)
  | [] => [[]]
  | c :: cs =>
    match splitWords cs with
    | [] => [[c]]
    | w :: ws => if c = ' ' then [] :: w :: ws else (c :: w) :: ws

/-- The bytes of the words after `FRAME`. -/
def parseBytes : List (List Char) → Option (List Byte)
  | [] => some []
  | w :: ws =>
    match parseByte w, parseBytes ws with
    | some b, some bs => some (b :: bs)
    | _, _ => none

/-- The event of one line (R82); `none` for a line of another form. -/
def parseLine (line : List Char) : Option HostEvent :=
  match (splitWords (line.takeWhile (· != ';'))).filter (fun w => !w.isEmpty) with
  | [] => none
  | w :: ws =>
    if w = "FRAME".toList then (parseBytes ws).map .frame
    else if w = "READ_FAILED".toList ∧ ws = [] then some .readFailed
    else if w = "SOURCE_CLOSED".toList ∧ ws = [] then some .sourceClosed
    else none

/-- One byte as a space and two hex digits. -/
def renderByte (b : Byte) : List Char := [' ', hexChar (b.toNat / 16), hexChar (b.toNat % 16)]

/-- The line of an event (R82). -/
def renderLine : HostEvent → List Char
  | .frame bytes => "FRAME".toList ++ bytes.flatMap renderByte
  | .readFailed => "READ_FAILED".toList
  | .sourceClosed => "SOURCE_CLOSED".toList

end Sys2Proof.Machine
end

