-- ==== Sys2Proof/Machine/Stages.lean ====
section
/-! DEFINITION. The frame step as the stage graph of 46_frame_cycle.md R182, each stage its rule's pseudocode over the frame buffer. It is the spec's
other description of what `exec (decode bytes)` does; that the two agree is stated in Certificates/Slice0/Obligations.lean. -/
namespace Sys2Proof.Machine

/-- ARP_HANDLE, steps A5 to A7 (R110). -/
def State.arpAnswer (s : State) (htype oper : Half) (sha : MacAddr) (spa tpa : IpAddr) : Op State :=
  (s.learn htype spa sha).notForUs .arp tpa fun s =>
    if oper = arpRequestOpcode then s.arpReply else drop .unhandledOpcode .arp s

/-- ARP_HANDLE (R110). -/
def State.arpHandle (s : State) : Op State :=
  if s.len - 14 < 8 then drop .truncated .arp s
  else do
    let htype ← s.readHalf 14
    let ptype ← s.readHalf 16
    let oper ← s.readHalf 20
    if htype ≠ arpHardwareEthernet then drop .unsupportedHardware .arp s
    else if ptype ≠ arpProtocolIpv4 then drop .arpUnsupportedProtocol .arp s
    else if s.len - 14 < 28 then drop .truncated .arp s
    else do
      let sha ← s.readMac 22
      let spa ← s.readIp 28
      let tpa ← s.readIp 38
      s.arpAnswer htype oper sha spa tpa

/-- ICMP_HANDLE (R160), then the IPv4 reply that follows it when it returns (R132). -/
def State.icmpHandle (s : State) (hl tl : Nat) : Op State :=
  if tl - hl < 4 then drop .truncated .icmp s
  else do
    let t ← s.readByte (14 + hl)
    if t = icmpEchoRequestType then do
      let s ← s.icmpToReply (14 + hl) (tl - hl)
      s.ipReply hl tl
    else (s.report .unhandledIcmpType .icmp).ipReply hl tl

/-- IP_DISPATCH (R132). -/
def State.ipDispatch (s : State) (hl tl : Nat) : Op State := do
  let proto ← s.readByte 23
  if proto = ipProtocolIcmp then s.icmpHandle hl tl else drop .ipUnsupportedProtocol .ip s

/-- IP_INCOMING (R130), then IP_NOT_FOR_US (R131) and IP_DISPATCH. -/
def State.ipIncoming (s : State) : Op State :=
  if s.len - 14 < 20 then drop .truncated .ip s
  else do
    let b ← s.readByte 14
    let ttl ← s.readByte 22
    let ver := (b >>> 4) &&& 0xF#8
    let hl := (b &&& 0xF#8).toNat * 4
    if ver ≠ 4#8 then drop .wrongVersion .ip s
    else if (b &&& 0xF#8).toNat < 5 then drop .headerTooShort .ip s
    else if ttl = 0#8 then drop .ttlExpired .ip s
    else if s.len - 14 < hl then drop .truncated .ip s
    else do
      let c ← s.csum 14 (14 + hl)
      if c ≠ 0#16 then drop .checksumMismatch .ip s
      else do
        let tl ← s.readHalf 16
        if tl.toNat < hl ∨ s.len - 14 < tl.toNat then drop .truncated .ip s
        else do
          let dst ← s.readIp 30
          s.notForUs .ip dst fun s => s.ipDispatch hl tl.toNat

/-- ETH_DISPATCH (R101). -/
def State.ethDispatch (s : State) (etype : Half) : Op State :=
  if etype = etherTypeArp then s.arpHandle
  else if etype = etherTypeIpv4 then s.ipIncoming
  else ignore s

/-- ETH_PARSE (R100) and the stages it dispatches to (R182). No rule reads `eth_dst`, and `eth_src` is read by R133. -/
def State.ethParse (s : State) : Op State :=
  if s.len < 14 then drop .truncated .eth s
  else do
    let etype ← s.readHalf 12
    s.ethDispatch etype

end Sys2Proof.Machine
end

