-- ==== Sys2Proof/Machine/Flags.lean ====
section
/-! DEFINITION. The block has no flags (10_state.md R34). What stands in their place: the report records and their policies (60_exceptions.md R190,
R191), and the one-bit encodings of the cache entry's state (R27) and of the policy (R24). -/
namespace Sys2Proof.Machine

/-- The layer's number in a record (R190). -/
def Layer.code : Layer → BitVec 2
  | .eth => 0#2
  | .arp => 1#2
  | .ip => 2#2
  | .icmp => 3#2

/-- The kind's code (R190). -/
def ReportKind.code : ReportKind → BitVec 8
  | .truncated => 0x01#8
  | .unsupportedHardware => 0x02#8
  | .arpUnsupportedProtocol => 0x03#8
  | .wrongVersion => 0x04#8
  | .headerTooShort => 0x05#8
  | .ttlExpired => 0x06#8
  | .checksumMismatch => 0x07#8
  | .ipUnsupportedProtocol => 0x08#8
  | .unhandledOpcode => 0x09#8
  | .unhandledIcmpType => 0x0A#8
  | .cacheFull => 0x0B#8
  | .notForUs => 0x0C#8
  | .cacheUpdated => 0x0D#8
  | .cacheInserted => 0x0E#8
  | .sendFailed => 0x0F#8
  | .readFailed => 0x10#8
  | .sourceClosed => 0x11#8

/-- The 16-bit record (R190): bits 7:0 the kind, bits 9:8 the layer, bits 15:10 zero. -/
def Report.word (r : Report) : BitVec 16 := 0#6 ++ r.layer.code ++ r.kind.code

/-- The layers for which a kind is emitted (R190's table). -/
def ReportKind.layers : ReportKind → List Layer
  | .truncated => [.eth, .arp, .ip, .icmp]
  | .unsupportedHardware => [.arp]
  | .arpUnsupportedProtocol => [.arp]
  | .wrongVersion => [.ip]
  | .headerTooShort => [.ip]
  | .ttlExpired => [.ip]
  | .checksumMismatch => [.ip]
  | .ipUnsupportedProtocol => [.ip]
  | .unhandledOpcode => [.arp]
  | .unhandledIcmpType => [.icmp]
  | .cacheFull => [.arp]
  | .notForUs => [.arp, .ip]
  | .cacheUpdated => [.arp]
  | .cacheInserted => [.arp]
  | .sendFailed => [.eth]
  | .readFailed => [.eth]
  | .sourceClosed => [.eth]

/-- What a report does to the frame (R190's policy column). -/
inductive ReportPolicy where
  | drop
  | proceed
  | halt
  deriving DecidableEq, Repr

/-- R190, R191; NotForUs follows CFG2 (R24). -/
def ReportKind.policy (p : NotForUsPolicy) : ReportKind → ReportPolicy
  | .truncated => .drop
  | .unsupportedHardware => .drop
  | .arpUnsupportedProtocol => .drop
  | .wrongVersion => .drop
  | .headerTooShort => .drop
  | .ttlExpired => .drop
  | .checksumMismatch => .drop
  | .ipUnsupportedProtocol => .drop
  | .unhandledOpcode => .drop
  | .unhandledIcmpType => .proceed
  | .cacheFull => .proceed
  | .notForUs =>
    match p with
    | .permissive => .proceed
    | .drop => .drop
  | .cacheUpdated => .proceed
  | .cacheInserted => .proceed
  | .sendFailed => .proceed
  | .readFailed => .halt
  | .sourceClosed => .halt

/-- `cache[i].state` as its bit (R27, D2): 0 = Free, 1 = Resolved. -/
def CacheEntry.stateBit : CacheEntry → BitVec 1
  | .free => 0#1
  | .resolved _ _ _ => 1#1

/-- CFG2's bit `drop[0]` (R24): 0 = PERMISSIVE, 1 = DROP. -/
def policyBit : NotForUsPolicy → BitVec 1
  | .permissive => 0#1
  | .drop => 1#1

end Sys2Proof.Machine
end

