-- ==== Sys2Proof/Machine/Replies.lean ====
section
/-! DEFINITION. The outbound formats (30_encoding.md R81) written out as bytes, as the rules describe the replies rather than as the in-place rewriting that
makes them. The statements compare the machine with these. -/
namespace Sys2Proof

/-- The ARP reply (R81, R113): 42 bytes to the original sender, from `DEV_MAC` and `DEV_IP`; the types and lengths are echoed. -/
def arpReplyFrame (c : Config) (arp : ArpHeader) (body : ArpBody) : List Byte :=
  EthHeader.bytes { dst := body.sha, src := c.devMac, etype := etherTypeArp } ++
    ArpHeader.bytes { arp with oper := arpReplyOpcode } ++
    ArpBody.bytes { sha := c.devMac, spa := c.devIp, tha := body.sha, tpa := body.spa }

/-- The IPv4 header of a reply (R133): destination the old source, source `DEV_IP`, the checksum filled over the header span (R153). -/
def IpHeader.reply (h : IpHeader) (c : Config) (options : List Byte) : IpHeader :=
  let z := { h with src := c.devIp, dst := h.src, hcsum := 0#16 }
  { z with hcsum := internetChecksum (z.bytes ++ options) }

/-- The first 4 bytes of an Echo Reply (R161): type Reply, the checksum filled over the whole message (R153). -/
def IcmpHeader.reply (m : IcmpHeader) (data : List Byte) : IcmpHeader :=
  let z := { m with icmpType := icmpEchoReplyType, csum := 0#16 }
  { z with csum := internetChecksum (z.bytes ++ data) }

/-- The IPv4 reply (R81, R133): `TL + 14` bytes to the inbound Ethernet source, carrying `message`. -/
def ipReplyFrame (c : Config) (eth : EthHeader) (ip : IpHeader) (options message : List Byte) : List Byte :=
  EthHeader.bytes { dst := eth.src, src := c.devMac, etype := etherTypeIpv4 } ++ (ip.reply c options).bytes ++ options ++ message

end Sys2Proof
end

