-- ==== Sys2Proof/Safety.lean ====
section
/-! DEFINITION. What counts as a safe state, a safe step and an observation of a run, in the terms the statements use. -/
namespace Sys2Proof.Machine

/-- The state's data are as the spec says they always are: the cache is 32 entries with distinct keys and its Free entries last (R27, R28, R112), the
buffer holds exactly `buf[0..len)` and no more than the capacity (R32), and the capacity is at least 14 (R25). -/
def State.inv (s : State) : Bool :=
  cacheWf s.cache && s.buf.holdsExactly s.len && decide (s.len ≤ s.cfg.frameBufferBytes) && s.cfg.wellFormed

/-- The step ends in a model fault. -/
def faults : Result → Bool
  | .fault _ => true
  | .next _ => false
  | .refused _ => false

/-- A run is over exactly in a halted phase (R188). -/
def State.runOver (s : State) : Bool :=
  match s.phase with
  | .halted _ => true
  | .idle => false

/-- What an observer sees of one step (R188): the event, the outbound frame, the report records, and the verdict if a frame was sent. -/
structure Observation where
  event : HostEvent
  out : Option (List Byte)
  reports : List (BitVec 16)
  verdict : Option Verdict
  deriving DecidableEq, Repr

/-- The observation of a step that takes event `e` and ends in `t` (R188). -/
def observe (e : HostEvent) (t : State) : Observation :=
  { event := e, out := t.out, reports := t.reports.map Report.word, verdict := t.out.map fun _ => t.sinkVerdict }

/-- The observations of at most `n` steps of the run that `s` stands in (R188): none once the run is over, none past a reset, which begins another
run, and none where the block waits or has no step. -/
def observations : Nat → State → List Observation
  | 0, _ => []
  | n + 1, s =>
    if s.runOver then []
    else
      match s.inputs with
      | [] => []
      | .reset :: _ => []
      | .event e _ :: _ =>
        match step s with
        | .next t => observe e t :: observations n t
        | .fault _ => []
        | .refused _ => []

/-- A run is a sequence of steps from reset (R188): the observations of at most `n` steps of a block with configuration `c`, right after reset, on
what the outside does next. -/
def runFromReset (n : Nat) (c : Config) (inputs : List Stimulus) : List Observation :=
  observations n { State.initial c with inputs := inputs }

/-- A record at its beginning, if it is `r`, is taken off the list. -/
def optionally (k : ReportKind) (l : Layer) (rs : List Report) : List Report :=
  match rs with
  | r :: rest => if r = ⟨k, l⟩ then rest else rs
  | [] => []

/-- The list ends after an optional SendFailed (a reply was sent). -/
def sentReports (rs : List Report) : Bool := (optionally .sendFailed .eth rs).isEmpty

/-- The possible report lists of the ARP path after step A5 (R196), under a policy. -/
def arpReportsAllowed (p : NotForUsPolicy) (rs : List Report) : Bool :=
  (p == .drop && rs == [⟨.notForUs, .arp⟩]) ||
    (let rest := match p with
      | .permissive => optionally .notForUs .arp rs
      | .drop => rs
     rest == [⟨.unhandledOpcode, .arp⟩] || sentReports rest)

/-- The possible report lists of the IPv4 path after R130 (R196), under a policy. -/
def ipReportsAllowed (p : NotForUsPolicy) (rs : List Report) : Bool :=
  (p == .drop && rs == [⟨.notForUs, .ip⟩]) ||
    (let rest := match p with
      | .permissive => optionally .notForUs .ip rs
      | .drop => rs
     rest == [⟨.ipUnsupportedProtocol, .ip⟩] || rest == [⟨.truncated, .icmp⟩] ||
       sentReports (optionally .unhandledIcmpType .icmp rest))

/-- The possible report lists of one transition (R196), with the policy under which each can occur. -/
def reportListAllowed (p : NotForUsPolicy) : List Report → Bool
  | [⟨.truncated, .eth⟩] => true
  | [⟨.truncated, .arp⟩] => true
  | [⟨.unsupportedHardware, .arp⟩] => true
  | [⟨.arpUnsupportedProtocol, .arp⟩] => true
  | [⟨.truncated, .ip⟩] => true
  | [⟨.wrongVersion, .ip⟩] => true
  | [⟨.headerTooShort, .ip⟩] => true
  | [⟨.ttlExpired, .ip⟩] => true
  | [⟨.checksumMismatch, .ip⟩] => true
  | [⟨.readFailed, .eth⟩] => true
  | [⟨.sourceClosed, .eth⟩] => true
  | ⟨.cacheUpdated, .arp⟩ :: rs => arpReportsAllowed p rs
  | ⟨.cacheInserted, .arp⟩ :: rs => arpReportsAllowed p rs
  | ⟨.cacheFull, .arp⟩ :: rs => arpReportsAllowed p rs
  | rs => ipReportsAllowed p rs

/-- The next transition takes the frame `bytes` with verdict `v`, and the buffer can hold it (R180, R181). -/
structure State.Offers (s : State) (bytes : List Byte) (v : Verdict) (rest : List Stimulus) : Prop where
  idle : s.phase = .idle
  head : s.inputs = .event (.frame bytes) v :: rest
  fits : bytes.length ≤ s.cfg.frameBufferBytes

/-- The state after a frame step (R181): the stimulus is taken, the buffer is discarded, and the ports and the cache are as given. The stimulus list, the
verdict field and the empty buffer are the model's (notes/assumptions/4.md, 5.md, 6.md). -/
def State.afterFrame (s : State) (rest : List Stimulus) (v : Verdict) (cache : List CacheEntry) (reports : List Report)
    (out : Option (List Byte)) : State :=
  { s with inputs := rest, sinkVerdict := v, cache := cache, buf := [], len := 0, reports := reports, out := out }

/-- The report that step A5 makes (R110): updated, else inserted, else full. -/
def learnReport (c : List CacheEntry) (ht : Half) (ip : IpAddr) (hw : MacAddr) : ReportKind :=
  match cacheUpdate c ht ip hw, cacheInsert c ht ip hw with
  | some _, _ => .cacheUpdated
  | none, some _ => .cacheInserted
  | none, none => .cacheFull

/-- The cache after step A5 (R110 to R112). -/
def learnedCache (c : List CacheEntry) (ht : Half) (ip : IpAddr) (hw : MacAddr) : List CacheEntry :=
  ((cacheUpdate c ht ip hw).or (cacheInsert c ht ip hw)).getD c

/-- The report of the destination check, made on a mismatch (R110 step A6, R131). -/
def mismatchReports (c : Config) (l : Layer) (ip : IpAddr) : List Report := if ip = c.devIp then [] else [⟨.notForUs, l⟩]

/-- The report of a send, made on a failed verdict (R171). -/
def verdictReports : Verdict → List Report
  | .ok => []
  | .failed => [⟨.sendFailed, .eth⟩]

/-- The frame goes on past the destination check (R24): the address is the device's, or the policy is PERMISSIVE. -/
def passesCheck (c : Config) (ip : IpAddr) : Prop := ip = c.devIp ∨ c.policy = .permissive

/-- The three report kinds that tell the cache's contents apart (R35), made one. -/
def forgetCache (r : Report) : Report :=
  match r.kind with
  | .cacheUpdated => { r with kind := .cacheFull }
  | .cacheInserted => { r with kind := .cacheFull }
  | _ => r

end Sys2Proof.Machine
end

