-- ==== Sys2Proof/Certificates/Slice0/Obligations.lean ====
section
/-! DEFINITION. The statements about the frame engine, for the provers. -/
open Sys2Proof Sys2Proof.Machine

/-! ### Encoding -/

/-- Decoding the bytes of a well-formed instruction gives the instruction back, for every class and every operand (R71 to R74, R79). -/
def Obligations.DecodeOfEncodedInstruction : Prop :=
  ∀ i : Instr, i.wellFormed = true → decode (encode i) = i

/-- Every byte string is the encoding of exactly one well-formed instruction, and the decoder finds it (R79). -/
def Obligations.EveryFrameIsOneEncodedClass : Prop :=
  ∀ bs : List Byte, (decode bs).wellFormed = true ∧ encode (decode bs) = bs ∧
    ∀ i : Instr, i.wellFormed = true → encode i = bs → i = decode bs

/-- The decoder finds the class that the opcode table gives: the first row, in increasing priority, that applies (R80). -/
def Obligations.DecoderFollowsOpcodeTable : Prop :=
  ∀ bs : List Byte, classByTable bs = some (decode bs).mnemonic

/-- Three frames written out from R71 to R74: an ARP header cut short, an ARP request and an echo request of 12 bytes. -/
def Obligations.SampleFramesDecode : Prop :=
  decode [0xff, 0xff, 0xff, 0xff, 0xff, 0xff, 0xaa, 0xbb, 0xcc, 0xdd, 0xee, 0xff, 0x08, 0x06, 0x00] =
    .arpRunt ⟨0xffffffffffff, 0xaabbccddeeff, 0x0806⟩ [0x00] ∧
  decode [0xff, 0xff, 0xff, 0xff, 0xff, 0xff, 0xaa, 0xbb, 0xcc, 0xdd, 0xee, 0xff, 0x08, 0x06,
      0x00, 0x01, 0x08, 0x00, 0x06, 0x04, 0x00, 0x01,
      0xaa, 0xbb, 0xcc, 0xdd, 0xee, 0xff, 0x0a, 0x00, 0x00, 0x05, 0x00, 0x00, 0x00, 0x00, 0x00, 0x00, 0x0a, 0x00, 0x00, 0x04] =
    .arpRequest ⟨0xffffffffffff, 0xaabbccddeeff, 0x0806⟩ ⟨1, 0x0800, 6, 4, 1⟩ ⟨0xaabbccddeeff, 0x0a000005, 0, 0x0a000004⟩ [] ∧
  decode [0x02, 0x00, 0x00, 0x00, 0x00, 0x04, 0xaa, 0xbb, 0xcc, 0xdd, 0xee, 0xff, 0x08, 0x00,
      0x45, 0x00, 0x00, 0x20, 0x1c, 0x46, 0x40, 0x00, 0x40, 0x01, 0x0a, 0x8f, 0x0a, 0x00, 0x00, 0x05, 0x0a, 0x00, 0x00, 0x04,
      0x08, 0x00, 0x21, 0x04, 0x12, 0x34, 0x00, 0x01, 0x61, 0x62, 0x63, 0x64] =
    .icmpEchoRequest ⟨0x020000000004, 0xaabbccddeeff, 0x0800⟩
      ⟨4, 5, 0, 0x20, 0x1c46, 2, 0, 0x40, 1, 0x0a8f, 0x0a000005, 0x0a000004⟩ [] ⟨8, 0, 0x2104⟩
      [0x12, 0x34, 0x00, 0x01, 0x61, 0x62, 0x63, 0x64] []

/-! ### The step and the two descriptions of a frame's effect -/

/-- A step on an offered frame runs the class that the frame decodes to, on the state with the stimulus taken and the frame loaded, and discards
the buffer afterwards (R79, R181). The list of stimuli and the verdict drawn with an event are the model's (notes/assumptions/5.md, 6.md). -/
def Obligations.StepRunsDecodedClass : Prop :=
  ∀ (s : State) (bytes : List Byte) (v : Verdict) (rest : List Stimulus) (i : Instr),
    s.Offers bytes v rest → decode bytes = i → i.wellFormed = true →
      step s = endFrame (exec i ((s.take rest v).loadFrame bytes))

/-- The stage graph of R182 (R100, R101, R110, R130 to R132, R160 run on the buffer) and the meaning of the decoded class agree on every
frame. -/
def Obligations.StageGraphAgreesWithClassMeaning : Prop :=
  ∀ (s : State) (bytes : List Byte), finish (s.loadFrame bytes).ethParse = exec (decode bytes) (s.loadFrame bytes)

/-! ### The frame buffer -/

/-- MemRead on a loaded frame is the big-endian number of its bytes inside the frame, and faults outside (R52). The fault outside is the spec's
decision D19 (notes/assumptions/10.md). -/
def Obligations.MemReadIsBigEndianOrFaults : Prop :=
  ∀ (s : State) (bs : List Byte) (o n : Nat), n ∈ [1, 2, 4, 6] →
    (o + n ≤ bs.length →
      (s.loadFrame bs).memRead o n = .ok ((List.range n).map fun k => (bs.getD (o + k) 0).toNat * 256 ^ (n - 1 - k)).sum) ∧
    (bs.length < o + n → (s.loadFrame bs).memRead o n = .error .readOutsideFrame)

/-- MemWrite inside a loaded frame sets exactly its `n` bytes, big-endian, and MemRead gives the value back (R52, R53). -/
def Obligations.MemWriteSetsBigEndianBytes : Prop :=
  ∀ (s : State) (bs : List Byte) (o n v : Nat), n ∈ [1, 2, 4, 6] → v < 256 ^ n → o + n ≤ bs.length →
    ∃ t, (s.loadFrame bs).memWrite o n v = .ok t ∧ t.memRead o n = .ok v ∧
      (∀ k < n, t.buf.read (o + k) = some (BitVec.ofNat 8 ((v >>> (8 * (n - 1 - k))) &&& 0xFF))) ∧
      (∀ a, a < o ∨ o + n ≤ a → t.buf.read a = (s.loadFrame bs).buf.read a) ∧
      t = (s.loadFrame bs).setBuf t.buf

/-- Every instruction that completes keeps the buffer's canonical form, its length, and, where the buffer holds exactly `buf[0..len)`, that too
(R32, R50). The canonical form is the model's (notes/assumptions/4.md). -/
def Obligations.ExecKeepsBufferForm : Prop :=
  ∀ (i : Instr) (s t : State), s.buf.wf = true → exec i s = .next t →
    t.buf.wf = true ∧ t.len = s.len ∧ (s.buf.holdsExactly s.len = true → t.buf.holdsExactly t.len = true)

/-- ETH_FINALIZE writes the three header fields and touches nothing else (R102). -/
def Obligations.EthFinalizeWritesHeaderOnly : Prop :=
  ∀ (s : State) (bs : List Byte) (et : Half) (d m : MacAddr), 14 ≤ bs.length →
    (s.loadFrame bs).ethFinalize et d m =
      .ok { s.loadFrame bs with buf := cellsFrom 0 (EthHeader.bytes { dst := d, src := m, etype := et } ++ bs.drop 14) }

/-- SEND emits the finalized header and `length` bytes of payload, and reports SendFailed exactly when the sink's verdict is `failed`
(R170, R171). The report on a failed verdict is the spec's decision D16; the verdict is drawn into a field of the model's (notes/assumptions/6.md). -/
def Obligations.SendEmitsHeaderAndPayload : Prop :=
  ∀ (s : State) (bs : List Byte) (et : Half) (n : Nat) (d : MacAddr), n + 14 ≤ bs.length →
    (s.loadFrame bs).send et n d =
      .ok { s.loadFrame bs with
        buf := cellsFrom 0 (EthHeader.bytes { dst := d, src := s.cfg.devMac, etype := et } ++ bs.drop 14)
        out := some (EthHeader.bytes { dst := d, src := s.cfg.devMac, etype := et } ++ (bs.drop 14).take n)
        reports := verdictReports s.sinkVerdict }

/-! ### The Internet checksum -/

/-- On every range within the accumulator's bound, the 32-bit accumulator holds the exact sum, the fold loop ends within two rounds at R151's closed
form, and the checksum is its complement (R150, R151 items 1 to 3). -/
def Obligations.ChecksumIsComplementOfOnesFold : Prop :=
  (∀ a : BitVec 32, (foldCarries 2 a).toNat = onesFold a.toNat ∧ foldCarries 2 a >>> 16 = 0#32) ∧
  ∀ bs : List Byte, bs.length ≤ 131074 →
    (sumWords 0#32 bs).toNat = wordSum bs ∧ (internetChecksum bs).toNat = 0xFFFF - onesFold (wordSum bs)

/-- A range verifies exactly when the fold of its exact sum is 0xFFFF, that is, when the sum is positive and a multiple of 0xFFFF (R152; the
length bound is R151 item 1's). -/
def Obligations.ChecksumVerifiesExactlyOnMultiples : Prop :=
  ∀ bs : List Byte, bs.length ≤ 131074 →
    (internetChecksum bs = 0#16 ↔ onesFold (wordSum bs) = 0xFFFF) ∧
    (internetChecksum bs = 0#16 ↔ 0 < wordSum bs ∧ wordSum bs % 0xFFFF = 0)

/-- The checksum is 0xFFFF exactly on the ranges of zero bytes, and 0x0000 exactly where the sum folds to 0xFFFF (R154). -/
def Obligations.ChecksumExtremes : Prop :=
  ∀ bs : List Byte, bs.length ≤ 131074 →
    (internetChecksum bs = 0xFFFF#16 ↔ ∀ b ∈ bs, b = 0#8) ∧
    (internetChecksum bs = 0#16 ↔ onesFold (wordSum bs) = 0xFFFF)

/-- Reordering whole 16-bit words, before an optional odd last byte, does not change the checksum (R151 item 4). -/
def Obligations.ChecksumIgnoresWordOrder : Prop :=
  ∀ (ws ws' : List (Byte × Byte)) (last : List Byte), ws.Perm ws' →
    internetChecksum (ws.flatMap (fun w => [w.1, w.2]) ++ last) = internetChecksum (ws'.flatMap (fun w => [w.1, w.2]) ++ last)

/-- CSUM_FILL on a loaded frame completes, the filled range verifies, the field holds the checksum computed with the field zero, and no other byte
and nothing else of the state changes (R153; the length bound is R151 item 1's). -/
def Obligations.ChecksumFillVerifies : Prop :=
  ∀ (s : State) (bs : List Byte) (a b f : Nat),
    a ≤ f → f + 2 ≤ b → b ≤ bs.length → (f - a) % 2 = 0 → b - a ≤ 131074 →
    ∃ t c, (s.loadFrame bs).csumFill a b f = .ok t ∧ t.csum a b = .ok 0#16 ∧
      c = internetChecksum (bs.extract a f ++ [0#8, 0#8] ++ bs.extract (f + 2) b) ∧ t.readHalf f = .ok c ∧
      (∀ x, x < f ∨ f + 2 ≤ x → t.buf.read x = bs[x]?) ∧ t = (s.loadFrame bs).setBuf t.buf

/-! ### The ARP cache -/

/-- ARP_CACHE_UPDATE answers true exactly when a Resolved entry has the key, and then overwrites the `sha` of the first one only (R111). -/
def Obligations.CacheUpdateOverwritesFirstMatch : Prop :=
  ∀ (es : List CacheEntry) (ht : Half) (ip : IpAddr) (hw : MacAddr),
    (cacheUpdate es ht ip hw = none ↔ ∀ e ∈ es, e.key ≠ some (ht, ip)) ∧
    ∀ es', cacheUpdate es ht ip hw = some es' →
      ∃ i, (∃ m, es[i]? = some (.resolved ht ip m)) ∧ (∀ j < i, ∀ m, es[j]? ≠ some (.resolved ht ip m)) ∧
        es' = es.set i (.resolved ht ip hw)

/-- ARP_CACHE_INSERT answers true exactly when an entry is Free, and then makes the first Free entry Resolved with the three fields (R112). -/
def Obligations.CacheInsertTakesFirstFree : Prop :=
  ∀ (es : List CacheEntry) (ht : Half) (ip : IpAddr) (hw : MacAddr),
    (cacheInsert es ht ip hw = none ↔ CacheEntry.free ∉ es) ∧
    ∀ es', cacheInsert es ht ip hw = some es' →
      ∃ i, es[i]? = some .free ∧ (∀ j < i, es[j]? ≠ some .free) ∧ es' = es.set i (.resolved ht ip hw)

/-- Learning a sender keeps the cache at 32 entries with distinct keys and the Free entries last, and reports what it did (R28, R110 step A5, R112). -/
def Obligations.LearningKeepsCacheInvariant : Prop :=
  ∀ (s : State) (ht : Half) (ip : IpAddr) (hw : MacAddr), cacheWf s.cache = true →
    cacheWf (s.learn ht ip hw).cache = true ∧
    s.learn ht ip hw = { s with
      cache := learnedCache s.cache ht ip hw
      reports := s.reports ++ [⟨learnReport s.cache ht ip hw, .arp⟩] }

/-- Learning the same sender twice: the second is an update, the cache is as after the first, and exactly one Resolved entry has the key, unless the
table was full (R28, R111, R112; the property W4). -/
def Obligations.LearningTwiceIsAnUpdate : Prop :=
  ∀ (c : List CacheEntry) (ht : Half) (ip : IpAddr) (hw : MacAddr), cacheWf c = true →
    learnReport c ht ip hw ≠ .cacheFull →
      learnReport (learnedCache c ht ip hw) ht ip hw = .cacheUpdated ∧
      learnedCache (learnedCache c ht ip hw) ht ip hw = learnedCache c ht ip hw ∧
      ((learnedCache c ht ip hw).filter (·.hasKey ht ip)) = [.resolved ht ip hw]

/-- A new key meets CacheFull exactly when no entry is Free, and then no entry is altered (R112; the property W5). -/
def Obligations.FullCacheIsNotAltered : Prop :=
  ∀ (c : List CacheEntry) (ht : Half) (ip : IpAddr) (hw : MacAddr), (∀ e ∈ c, e.key ≠ some (ht, ip)) →
    (learnReport c ht ip hw = .cacheFull ↔ CacheEntry.free ∉ c) ∧
    (CacheEntry.free ∉ c → learnedCache c ht ip hw = c)

/-- No host event takes a Resolved entry back to Free or changes its key: only its `sha` can change (R29). -/
def Obligations.ResolvedEntriesKeepTheirKeys : Prop :=
  ∀ (s t : State) (e : HostEvent) (v : Verdict) (rest : List Stimulus),
    s.inputs = .event e v :: rest → step s = .next t →
      ∀ (i : Nat) (ht : Half) (ip : IpAddr) (m : MacAddr), s.cache[i]? = some (.resolved ht ip m) →
        ∃ m', t.cache[i]? = some (.resolved ht ip m')

/-! ### What each instruction does when it completes -/

/-- ETH_RUNT and ETH_OTHER complete on every state with only their report (none for ETH_OTHER) and no outbound frame (R104, R105). -/
def Obligations.EthernetClassesComplete : Prop :=
  ∀ (s : State) (eth : EthHeader) (bytes : List Byte),
    exec (.ethRunt bytes) s = .next { s with reports := s.reports ++ [⟨.truncated, .eth⟩], out := none } ∧
    exec (.ethOther eth bytes) s = .next { s with out := none }

/-- The four ARP classes that fail a header check complete on every state with only their report: the buffer, the cache and all else are
unchanged (R114 to R117). -/
def Obligations.ArpDropClassesComplete : Prop :=
  ∀ (s : State) (eth : EthHeader) (arp : ArpHeader) (bs : List Byte),
    exec (.arpRunt eth bs) s = .next { s with reports := s.reports ++ [⟨.truncated, .arp⟩], out := none } ∧
    exec (.arpBadHtype eth arp bs) s = .next { s with reports := s.reports ++ [⟨.unsupportedHardware, .arp⟩], out := none } ∧
    exec (.arpBadPtype eth arp bs) s = .next { s with reports := s.reports ++ [⟨.arpUnsupportedProtocol, .arp⟩], out := none } ∧
    exec (.arpShortBody eth arp bs) s = .next { s with reports := s.reports ++ [⟨.truncated, .arp⟩], out := none }

/-- The seven IPv4 classes that fail a validity check complete on every state with only their report (R134 to R140). -/
def Obligations.IpDropClassesComplete : Prop :=
  ∀ (s : State) (eth : EthHeader) (ip : IpHeader) (bs : List Byte),
    exec (.ipRunt eth bs) s = .next { s with reports := s.reports ++ [⟨.truncated, .ip⟩], out := none } ∧
    exec (.ipBadVersion eth ip bs) s = .next { s with reports := s.reports ++ [⟨.wrongVersion, .ip⟩], out := none } ∧
    exec (.ipBadIhl eth ip bs) s = .next { s with reports := s.reports ++ [⟨.headerTooShort, .ip⟩], out := none } ∧
    exec (.ipTtlZero eth ip bs) s = .next { s with reports := s.reports ++ [⟨.ttlExpired, .ip⟩], out := none } ∧
    exec (.ipHdrOverrun eth ip bs) s = .next { s with reports := s.reports ++ [⟨.truncated, .ip⟩], out := none } ∧
    exec (.ipBadChecksum eth ip bs) s = .next { s with reports := s.reports ++ [⟨.checksumMismatch, .ip⟩], out := none } ∧
    exec (.ipBadTotalLength eth ip bs) s = .next { s with reports := s.reports ++ [⟨.truncated, .ip⟩], out := none }

/-- ARP_REPLY_IN and ARP_OPCODE_OTHER complete past the destination check: the sender is learned, a mismatch is reported, UnhandledOpcode
ends the frame; the buffer is unchanged (R110, R119, R120). -/
def Obligations.ArpOtherOpcodesLearnAndDrop : Prop :=
  ∀ (s : State) (eth : EthHeader) (arp : ArpHeader) (body : ArpBody) (trailer : List Byte), passesCheck s.cfg body.tpa →
    let t := { s with
      cache := learnedCache s.cache arp.htype body.spa body.sha
      reports := s.reports ++ [⟨learnReport s.cache arp.htype body.spa body.sha, .arp⟩] ++ mismatchReports s.cfg .arp body.tpa ++
        [⟨.unhandledOpcode, .arp⟩]
      out := none }
    exec (.arpReplyIn eth arp body trailer) s = .next t ∧ exec (.arpOpcodeOther eth arp body trailer) s = .next t

/-- IP_NOT_ICMP and ICMP_RUNT complete past the destination check: a mismatch is reported, then their drop ends the frame; the buffer and the
cache are unchanged (R141, R162). The drop of ICMP_RUNT is the spec's decision D13. -/
def Obligations.IpNotIcmpAndIcmpRuntDrop : Prop :=
  ∀ (s : State) (eth : EthHeader) (ip : IpHeader) (bs : List Byte), passesCheck s.cfg ip.dst →
    exec (.ipNotIcmp eth ip bs) s =
      .next { s with reports := s.reports ++ mismatchReports s.cfg .ip ip.dst ++ [⟨.ipUnsupportedProtocol, .ip⟩], out := none } ∧
    exec (.icmpRunt eth ip bs) s =
      .next { s with reports := s.reports ++ mismatchReports s.cfg .ip ip.dst ++ [⟨.truncated, .icmp⟩], out := none }

/-- ARP_REQUEST completes on its own frame, past the destination check: the sender is learned, the 42-byte reply stands in the buffer before
the unchanged trailing bytes and is the outbound frame, SendFailed follows a failed verdict; nothing else changes (R113, R118, R170, R171). -/
def Obligations.ArpRequestIsAnswered : Prop :=
  ∀ (s : State) (eth : EthHeader) (arp : ArpHeader) (body : ArpBody) (trailer : List Byte),
    (Instr.arpRequest eth arp body trailer).wellFormed = true → passesCheck s.cfg body.tpa →
    let f := encode (.arpRequest eth arp body trailer)
    exec (.arpRequest eth arp body trailer) (s.loadFrame f) = .next { s.loadFrame f with
      cache := learnedCache s.cache arp.htype body.spa body.sha
      buf := cellsFrom 0 (arpReplyFrame s.cfg arp body ++ trailer)
      reports := [⟨learnReport s.cache arp.htype body.spa body.sha, .arp⟩] ++ mismatchReports s.cfg .arp body.tpa ++
        verdictReports s.sinkVerdict
      out := some (arpReplyFrame s.cfg arp body) }

/-- ICMP_ECHO_REQUEST completes on its own frame, past the destination check: the header is rewritten as R133 says, the message as R161 says, both
checksums filled, and `TL + 14` bytes are the outbound frame; the trailing bytes and all else are unchanged (R133, R161, R163, R170, R171). -/
def Obligations.EchoRequestIsAnswered : Prop :=
  ∀ (s : State) (eth : EthHeader) (ip : IpHeader) (options : List Byte) (icmp : IcmpHeader) (data trailer : List Byte),
    (Instr.icmpEchoRequest eth ip options icmp data trailer).wellFormed = true → passesCheck s.cfg ip.dst →
    let f := encode (.icmpEchoRequest eth ip options icmp data trailer)
    let r := ipReplyFrame s.cfg eth ip options ((icmp.reply data).bytes ++ data)
    exec (.icmpEchoRequest eth ip options icmp data trailer) (s.loadFrame f) = .next { s.loadFrame f with
      buf := cellsFrom 0 (r ++ trailer)
      reports := mismatchReports s.cfg .ip ip.dst ++ verdictReports s.sinkVerdict
      out := some r }

/-- ICMP_OTHER_TYPE completes on its own frame, past the destination check: UnhandledIcmpType is reported and the message is reflected untouched under
the rewritten header (R133, R164, R170, R171). -/
def Obligations.OtherIcmpTypeIsReflected : Prop :=
  ∀ (s : State) (eth : EthHeader) (ip : IpHeader) (options : List Byte) (icmp : IcmpHeader) (data trailer : List Byte),
    (Instr.icmpOtherType eth ip options icmp data trailer).wellFormed = true → passesCheck s.cfg ip.dst →
    let f := encode (.icmpOtherType eth ip options icmp data trailer)
    let r := ipReplyFrame s.cfg eth ip options (icmp.bytes ++ data)
    exec (.icmpOtherType eth ip options icmp data trailer) (s.loadFrame f) = .next { s.loadFrame f with
      buf := cellsFrom 0 (r ++ trailer)
      reports := mismatchReports s.cfg .ip ip.dst ++ [⟨.unhandledIcmpType, .icmp⟩] ++ verdictReports s.sinkVerdict
      out := some r }

/-- Under the DROP policy, a destination mismatch ends each of the seven classes it can meet at NotForUs with no outbound frame; on the ARP path the
sender is learned first; the buffer is unchanged (R24, R110 step A6, R131). The DROP policy and the place of the IPv4 check are the spec's decisions
D4 and D11. -/
def Obligations.DropPolicyEndsAtNotForUs : Prop :=
  ∀ (s : State) (eth : EthHeader) (arp : ArpHeader) (body : ArpBody) (ip : IpHeader) (icmp : IcmpHeader) (x y z : List Byte),
    s.cfg.policy = .drop →
    (body.tpa ≠ s.cfg.devIp →
      let t := { s with
        cache := learnedCache s.cache arp.htype body.spa body.sha
        reports := s.reports ++ [⟨learnReport s.cache arp.htype body.spa body.sha, .arp⟩, ⟨.notForUs, .arp⟩]
        out := none }
      exec (.arpRequest eth arp body x) s = .next t ∧ exec (.arpReplyIn eth arp body x) s = .next t ∧
        exec (.arpOpcodeOther eth arp body x) s = .next t) ∧
    (ip.dst ≠ s.cfg.devIp →
      let t := { s with reports := s.reports ++ [⟨.notForUs, .ip⟩], out := none }
      exec (.ipNotIcmp eth ip x) s = .next t ∧ exec (.icmpRunt eth ip x) s = .next t ∧
        exec (.icmpEchoRequest eth ip x icmp y z) s = .next t ∧ exec (.icmpOtherType eth ip x icmp y z) s = .next t)

/-! ### Frames -/

/-- The frame of ARP_REQUEST, for every state in which it completes: only the bytes `[0, 14)` and `[20, 42)` are stored to, the cache is the
learned one, and the phase, the configuration, the length and the inputs are unchanged (R102, R113). -/
def Obligations.ArpRequestFrame : Prop :=
  ∀ (s t : State) (eth : EthHeader) (arp : ArpHeader) (body : ArpBody) (trailer : List Byte),
    exec (.arpRequest eth arp body trailer) s = .next t →
      (∀ a, 14 ≤ a → a < 20 ∨ 42 ≤ a → t.buf.read a = s.buf.read a) ∧
      t.cache = learnedCache s.cache arp.htype body.spa body.sha ∧
      t.phase = s.phase ∧ t.cfg = s.cfg ∧ t.len = s.len ∧ t.inputs = s.inputs ∧ t.sinkVerdict = s.sinkVerdict

/-- The frames of the two replying ICMP classes, for every state in which they complete: both store to `[0, 14)` and `[24, 34)`; ICMP_ECHO_REQUEST
also to its message's type byte and checksum field, at `14 + IHL*4` and two bytes on; the cache, the phase, the configuration, the length and
the inputs are unchanged (R102, R133, R161). -/
def Obligations.IcmpReplyFrames : Prop :=
  ∀ (s t : State) (eth : EthHeader) (ip : IpHeader) (options : List Byte) (icmp : IcmpHeader) (data trailer : List Byte),
    (exec (.icmpEchoRequest eth ip options icmp data trailer) s = .next t →
      (∀ a, 14 ≤ a → a < 24 ∨ 34 ≤ a → a ≠ 14 + ip.headerLen → a < 14 + ip.headerLen + 2 ∨ 14 + ip.headerLen + 4 ≤ a →
        t.buf.read a = s.buf.read a) ∧
      t.cache = s.cache ∧ t.phase = s.phase ∧ t.cfg = s.cfg ∧ t.len = s.len ∧ t.inputs = s.inputs ∧ t.sinkVerdict = s.sinkVerdict) ∧
    (exec (.icmpOtherType eth ip options icmp data trailer) s = .next t →
      (∀ a, 14 ≤ a → a < 24 ∨ 34 ≤ a → t.buf.read a = s.buf.read a) ∧
      t.cache = s.cache ∧ t.phase = s.phase ∧ t.cfg = s.cfg ∧ t.len = s.len ∧ t.inputs = s.inputs ∧ t.sinkVerdict = s.sinkVerdict)

/-! ### The class rules, as steps. Each gives the whole next state; besides the rule's outcome, that state has the stimulus taken, its verdict held and the
buffer empty, which is the model's form of R181's end of a frame (notes/assumptions/4.md, 5.md, 6.md). -/

/-- The Ethernet class rules as steps on the frame's bytes (R104, R105), and that a frame with neither a report nor an outbound frame is an
ETH_OTHER frame. The spec derives that third clause, from R101 and R79, in the words "[derived: from rule R101 and 30_encoding.md rule R79]" of
R105. The next state's empty buffer, taken stimulus and held verdict are the model's (notes/assumptions/4.md, 5.md, 6.md). -/
def Obligations.EthernetClassSteps : Prop :=
  ∀ (s : State) (bytes : List Byte) (v : Verdict) (rest : List Stimulus), s.Offers bytes v rest →
    (bytes.length < 14 → step s = .next (s.afterFrame rest v s.cache [⟨.truncated, .eth⟩] none)) ∧
    (14 ≤ bytes.length → be16At bytes 12 ≠ 0x0806#16 → be16At bytes 12 ≠ 0x0800#16 →
      step s = .next (s.afterFrame rest v s.cache [] none)) ∧
    (∀ t, step s = .next t → t.reports = [] → t.out = none →
      14 ≤ bytes.length ∧ be16At bytes 12 ≠ 0x0806#16 ∧ be16At bytes 12 ≠ 0x0800#16)

/-- The class rules of the two ARP type checks, as steps on the frame's bytes (R115, R116). The next state's empty buffer, taken stimulus and held
verdict are the model's (notes/assumptions/4.md, 5.md, 6.md). -/
def Obligations.ArpTypeFaultSteps : Prop :=
  ∀ (s : State) (bytes : List Byte) (v : Verdict) (rest : List Stimulus), s.Offers bytes v rest →
    22 ≤ bytes.length → be16At bytes 12 = 0x0806#16 →
    (be16At bytes 14 ≠ 1#16 → step s = .next (s.afterFrame rest v s.cache [⟨.unsupportedHardware, .arp⟩] none)) ∧
    (be16At bytes 14 = 1#16 → be16At bytes 16 ≠ 0x0800#16 →
      step s = .next (s.afterFrame rest v s.cache [⟨.arpUnsupportedProtocol, .arp⟩] none))

/-- The class rules of the four IPv4 header checks, as steps on the frame's bytes, in the source's order (R135, R136, R137, R139). The next state's
empty buffer, taken stimulus and held verdict are the model's (notes/assumptions/4.md, 5.md, 6.md). -/
def Obligations.IpHeaderFaultSteps : Prop :=
  ∀ (s : State) (bytes : List Byte) (v : Verdict) (rest : List Stimulus), s.Offers bytes v rest →
    34 ≤ bytes.length → be16At bytes 12 = 0x0800#16 →
    let dropped := fun k => step s = .next (s.afterFrame rest v s.cache [⟨k, .ip⟩] none)
    (verOf bytes ≠ 4 → dropped .wrongVersion) ∧
    (verOf bytes = 4 → ihlOf bytes < 5 → dropped .headerTooShort) ∧
    (verOf bytes = 4 → 5 ≤ ihlOf bytes → byteAt bytes 22 = 0#8 → dropped .ttlExpired) ∧
    (verOf bytes = 4 → 5 ≤ ihlOf bytes → byteAt bytes 22 ≠ 0#8 → ihlOf bytes * 4 ≤ payloadLen bytes → headerCsumOf bytes ≠ 0#16 →
      dropped .checksumMismatch)

/-- The class rules of the bounds checks after the Ethernet header, as steps on the frame's bytes: each cut of a header or a datagram is a Truncated
drop of its layer (R114, R117, R134, R138, R140, R162). Where the checks stand in the order is the spec's own choice (its decisions D7, D10, D13).
The next state's empty buffer, taken stimulus and held verdict are the model's (notes/assumptions/4.md, 5.md, 6.md). -/
def Obligations.BoundsFaultSteps : Prop :=
  ∀ (s : State) (bytes : List Byte) (v : Verdict) (rest : List Stimulus), s.Offers bytes v rest → 14 ≤ bytes.length →
    let p := payloadLen bytes
    let hl := ihlOf bytes * 4
    let tl := tlOf bytes
    let dropped := fun l => step s = .next (s.afterFrame rest v s.cache [⟨.truncated, l⟩] none)
    let fieldsOk := 20 ≤ p ∧ verOf bytes = 4 ∧ 5 ≤ ihlOf bytes ∧ byteAt bytes 22 ≠ 0#8
    (be16At bytes 12 = 0x0806#16 →
      (p < 8 → dropped .arp) ∧
      (8 ≤ p → p < 28 → be16At bytes 14 = 1#16 → be16At bytes 16 = 0x0800#16 → dropped .arp)) ∧
    (be16At bytes 12 = 0x0800#16 →
      (p < 20 → dropped .ip) ∧
      (fieldsOk → p < hl → dropped .ip) ∧
      (fieldsOk → hl ≤ p → headerCsumOf bytes = 0#16 → tl < hl ∨ p < tl → dropped .ip) ∧
      (fieldsOk → hl ≤ p → headerCsumOf bytes = 0#16 → hl ≤ tl → tl ≤ p → byteAt bytes 23 = 1#8 → be32At bytes 30 = s.cfg.devIp →
        tl - hl < 4 → dropped .icmp))

/-- The class rule of ARP_REQUEST as a step (R118): the sender is learned, a mismatch is reported, and the frame is answered or, under DROP on a
mismatch, ends at NotForUs. The next state's empty buffer, taken stimulus and held verdict are the model's (notes/assumptions/4.md, 5.md, 6.md). -/
def Obligations.ArpRequestStep : Prop :=
  ∀ (s : State) (bytes : List Byte) (v : Verdict) (rest : List Stimulus) (eth : EthHeader) (arp : ArpHeader) (body : ArpBody)
    (trailer : List Byte), s.Offers bytes v rest → decode bytes = .arpRequest eth arp body trailer →
    let c := learnedCache s.cache arp.htype body.spa body.sha
    let rs := [⟨learnReport s.cache arp.htype body.spa body.sha, .arp⟩] ++ mismatchReports s.cfg .arp body.tpa
    (passesCheck s.cfg body.tpa →
      step s = .next (s.afterFrame rest v c (rs ++ verdictReports v) (some (arpReplyFrame s.cfg arp body))) ∧
        (arpReplyFrame s.cfg arp body).length = 42) ∧
    (¬ passesCheck s.cfg body.tpa → step s = .next (s.afterFrame rest v c rs none))

/-- The class rules of ARP_REPLY_IN and ARP_OPCODE_OTHER as steps (R119, R120). The next state's empty buffer, taken stimulus and held verdict are
the model's (notes/assumptions/4.md, 5.md, 6.md). That opcode 2 is one of the other opcodes R119 marks "[derived: from rule R110]". -/
def Obligations.ArpOtherOpcodeSteps : Prop :=
  ∀ (s : State) (bytes : List Byte) (v : Verdict) (rest : List Stimulus) (eth : EthHeader) (arp : ArpHeader) (body : ArpBody)
    (trailer : List Byte), s.Offers bytes v rest →
    decode bytes = .arpReplyIn eth arp body trailer ∨ decode bytes = .arpOpcodeOther eth arp body trailer →
    let c := learnedCache s.cache arp.htype body.spa body.sha
    let rs := [⟨learnReport s.cache arp.htype body.spa body.sha, .arp⟩] ++ mismatchReports s.cfg .arp body.tpa
    (passesCheck s.cfg body.tpa → step s = .next (s.afterFrame rest v c (rs ++ [⟨.unhandledOpcode, .arp⟩]) none)) ∧
    (¬ passesCheck s.cfg body.tpa → step s = .next (s.afterFrame rest v c rs none))

/-- The class rule of IP_NOT_ICMP as a step (R141). The next state's empty buffer, taken stimulus and held verdict are the model's
(notes/assumptions/4.md, 5.md, 6.md). -/
def Obligations.IpNotIcmpStep : Prop :=
  ∀ (s : State) (bytes : List Byte) (v : Verdict) (rest : List Stimulus) (eth : EthHeader) (ip : IpHeader) (more : List Byte),
    s.Offers bytes v rest → decode bytes = .ipNotIcmp eth ip more →
    let rs := mismatchReports s.cfg .ip ip.dst
    (passesCheck s.cfg ip.dst → step s = .next (s.afterFrame rest v s.cache (rs ++ [⟨.ipUnsupportedProtocol, .ip⟩]) none)) ∧
    (¬ passesCheck s.cfg ip.dst → step s = .next (s.afterFrame rest v s.cache rs none))

/-- The class rule of ICMP_ECHO_REQUEST as a step, with the source's property W8: the outbound message has type 0 and the inbound length, it and the
header verify, the addresses are as R133 says, and `TL + 14` bytes are sent (R163). NotForUs and the end under DROP are R131's and R24's, the spec's
decisions D4 and D11; the report of a failed send is R171's, its decision D16. The next state's empty buffer, taken stimulus and held verdict are
the model's (notes/assumptions/4.md, 5.md, 6.md). -/
def Obligations.EchoRequestStep : Prop :=
  ∀ (s : State) (bytes : List Byte) (v : Verdict) (rest : List Stimulus) (eth : EthHeader) (ip : IpHeader) (options : List Byte)
    (icmp : IcmpHeader) (data trailer : List Byte), s.Offers bytes v rest →
    decode bytes = .icmpEchoRequest eth ip options icmp data trailer →
    let rs := mismatchReports s.cfg .ip ip.dst
    (passesCheck s.cfg ip.dst →
      ∃ f, step s = .next (s.afterFrame rest v s.cache (rs ++ verdictReports v) (some f)) ∧
        f = ipReplyFrame s.cfg eth ip options ((icmp.reply data).bytes ++ data) ∧
        f.length = ip.tl.toNat + 14 ∧
        internetChecksum ((f.drop 14).take ip.headerLen) = 0#16 ∧
        internetChecksum (f.drop (14 + ip.headerLen)) = 0#16 ∧
        byteAt f (14 + ip.headerLen) = 0#8 ∧
        be32At f 30 = ip.src ∧ be32At f 26 = s.cfg.devIp) ∧
    (¬ passesCheck s.cfg ip.dst → step s = .next (s.afterFrame rest v s.cache rs none))

/-- The class rule of ICMP_OTHER_TYPE as a step: the message is reflected as received under a header that verifies (R164). NotForUs and the end
under DROP are R131's and R24's, the spec's decisions D4 and D11; the report of a failed send is R171's, its decision D16. The next state's empty
buffer, taken stimulus and held verdict are the model's (notes/assumptions/4.md, 5.md, 6.md). -/
def Obligations.OtherIcmpTypeStep : Prop :=
  ∀ (s : State) (bytes : List Byte) (v : Verdict) (rest : List Stimulus) (eth : EthHeader) (ip : IpHeader) (options : List Byte)
    (icmp : IcmpHeader) (data trailer : List Byte), s.Offers bytes v rest →
    decode bytes = .icmpOtherType eth ip options icmp data trailer →
    let rs := mismatchReports s.cfg .ip ip.dst
    (passesCheck s.cfg ip.dst →
      ∃ f, step s = .next (s.afterFrame rest v s.cache (rs ++ [⟨.unhandledIcmpType, .icmp⟩] ++ verdictReports v) (some f)) ∧
        f = ipReplyFrame s.cfg eth ip options (icmp.bytes ++ data) ∧
        f.length = ip.tl.toNat + 14 ∧
        internetChecksum ((f.drop 14).take ip.headerLen) = 0#16 ∧
        f.drop (14 + ip.headerLen) = (bytes.drop (14 + ip.headerLen)).take (ip.tl.toNat - ip.headerLen)) ∧
    (¬ passesCheck s.cfg ip.dst → step s = .next (s.afterFrame rest v s.cache rs none))

/-! ### The other steps -/

/-- ReadFailed and SourceClosed in phase Idle halt the block with one report, no outbound frame and the cache unchanged (R183, R184). The two halts
are the spec's decision D17. The taken stimulus and the held verdict, which a halting event does not draw in the spec, are the model's
(notes/assumptions/5.md, 6.md). -/
def Obligations.HostFailureEventsHalt : Prop :=
  ∀ (s : State) (v : Verdict) (rest : List Stimulus), s.phase = .idle →
    (s.inputs = .event .readFailed v :: rest →
      step s = .next { s with
        inputs := rest, sinkVerdict := v, phase := .halted .readFailed, reports := [⟨.readFailed, .eth⟩], out := none }) ∧
    (s.inputs = .event .sourceClosed v :: rest →
      step s = .next { s with
        inputs := rest, sinkVerdict := v, phase := .halted .sourceClosed, reports := [⟨.sourceClosed, .eth⟩], out := none })

/-- No other step exists: a halted block takes no step on any event and only a reset leaves the halt; an idle block with no event offered takes no
step (R185). That no step is a refusal by name is the model's form of it (notes/assumptions/9.md). -/
def Obligations.NoStepWhenHaltedOrWaiting : Prop :=
  (∀ (s : State) (c : HaltCause) (e : HostEvent) (v : Verdict) (rest : List Stimulus),
    s.phase = .halted c → s.inputs = .event e v :: rest → step s = .refused .haltedPhase) ∧
  (∀ (s t : State) (c : HaltCause), s.phase = .halted c → step s = .next t → ∃ rest, s.inputs = .reset :: rest) ∧
  (∀ s : State, s.phase = .idle → s.inputs = [] → step s = .refused .noEventOffered)

/-- A frame longer than the buffer has no step: it is neither truncated nor dropped (R186). The spec's decision D3: "the model refuses it, neither
truncating nor dropping it" (notes/assumptions/9.md). -/
def Obligations.OversizeFrameIsRefused : Prop :=
  ∀ (s : State) (bytes : List Byte) (v : Verdict) (rest : List Stimulus),
    s.phase = .idle → s.inputs = .event (.frame bytes) v :: rest → s.cfg.frameBufferBytes < bytes.length →
      step s = .refused .frameTooLong

/-- RESET in any phase frees every entry, makes the phase Idle, leaves no frame, report or output, and keeps the configuration (R220). That reset is
a stimulus, that it keeps the later ones, and that no frame is an empty buffer are the model's (notes/assumptions/4.md, 5.md, 8.md). -/
def Obligations.ResetStep : Prop :=
  ∀ (s : State) (rest : List Stimulus), s.inputs = .reset :: rest →
    step s = .next { s with
      inputs := rest, phase := .idle, cache := List.replicate 32 .free, buf := [], len := 0, reports := [], out := none }

/-- Two resets with the same configuration, followed by the same inputs, give the same state, and it is the initial state of that configuration
(R223). The verdict field is the model's own (notes/assumptions/6.md) and is left out of the comparison. -/
def Obligations.ResetsWithSameConfigurationAgree : Prop :=
  ∀ s s' : State, s.cfg = s'.cfg → s.inputs = s'.inputs →
    { s.applyReset with sinkVerdict := s'.sinkVerdict } = s'.applyReset ∧
    { s.applyReset with inputs := [], sinkVerdict := .ok } = State.initial s.cfg

/-! ### Invariants and whole-machine rules -/

/-- The initial state of every configuration of at least 14 bytes has the invariant, and so has `State.reset` (R25, R27, R220). The configuration of
`State.reset` is the model's choice (notes/assumptions/1.md). -/
def Obligations.ResetSatisfiesInvariant : Prop :=
  (∀ c : Config, c.wellFormed = true → (State.initial c).inv = true) ∧ State.reset.inv = true

/-- Every step keeps the invariant: the cache is 32 entries with distinct keys and its Free entries last, the buffer holds exactly `buf[0..len)` within
its capacity (R25, R27, R28, R32, R112). That the buffer between frames is empty is the model's choice (notes/assumptions/4.md). -/
def Obligations.StepKeepsInvariant : Prop :=
  ∀ s t : State, s.inv = true → step s = .next t → t.inv = true

/-- No step of any state ends in a model fault: no frame can make the block read or write outside `buf[0..len)` (R52, R195). -/
def Obligations.StepNeverFaults : Prop :=
  ∀ s : State, faults (step s) = false

/-- Every frame of every length and content that the buffer can hold ends in a next state with phase Idle (R195). The taken stimulus is the model's
(notes/assumptions/5.md). -/
def Obligations.EveryFrameEndsIdle : Prop :=
  ∀ (s : State) (bytes : List Byte) (v : Verdict) (rest : List Stimulus), s.Offers bytes v rest →
    ∃ t, step s = .next t ∧ t.phase = .idle ∧ t.inputs = rest

/-- No step writes the configuration (R26). The spec derives this from its operation rules. -/
def Obligations.ConfigurationNeverChanges : Prop :=
  ∀ s t : State, step s = .next t → t.cfg = s.cfg

/-- The report list of every step is one of those that R196 lists, under the policy that allows it. The spec derives the lists from its stage graph. -/
def Obligations.ReportListsAreTheListedOnes : Prop :=
  ∀ s t : State, step s = .next t → reportListAllowed s.cfg.policy t.reports = true

/-- Every step reports at most three records, each with a layer its kind is emitted for, at most one of them a drop, and with a drop no frame is
sent (R190, R192, R196). The spec derives this from its stage graph. -/
def Obligations.AtMostOneDropPerStep : Prop :=
  ∀ s t : State, step s = .next t →
    t.reports.length ≤ 3 ∧ (∀ r ∈ t.reports, r.layer ∈ r.kind.layers) ∧
    (t.reports.filter fun r => r.kind.policy s.cfg.policy == .drop).length ≤ 1 ∧
    (∀ r ∈ t.reports, r.kind.policy s.cfg.policy = .drop → t.out = none)

/-- The 16-bit record: bits 7:0 the kind's code, bits 9:8 the layer, bits 15:10 zero; the codes are 0x01 to 0x11 and two records differ as words where
they differ (R190). The codes and the layer field are the spec's decision D5. -/
def Obligations.ReportRecordLayout : Prop :=
  (∀ r : Report, r.word.extractLsb' 0 8 = r.kind.code ∧ r.word.extractLsb' 8 2 = r.layer.code ∧ r.word.extractLsb' 10 6 = 0#6) ∧
  (∀ k : ReportKind, 0x01 ≤ k.code.toNat ∧ k.code.toNat ≤ 0x11) ∧
  (∀ r r' : Report, r.word = r'.word → r = r')

/-- Every outbound frame is at most as long as the inbound one, comes from `DEV_MAC`, keeps the EtherType, and is 42 bytes for ARP and `TL + 14` bytes,
never truncated, for IPv4, whose header verifies (R81, R133, R170, R230). -/
def Obligations.OutboundFramesAreWellFormed : Prop :=
  ∀ (s t : State) (bytes f : List Byte) (v : Verdict) (rest : List Stimulus), s.Offers bytes v rest → step s = .next t →
    t.out = some f →
      f.length ≤ bytes.length ∧ macAt f 6 = s.cfg.devMac ∧ be16At f 12 = be16At bytes 12 ∧
      (be16At bytes 12 = 0x0806#16 → f.length = 42 ∧ macAt f 0 = macAt bytes 22) ∧
      (be16At bytes 12 = 0x0800#16 → f.length = tlOf bytes + 14 ∧ macAt f 0 = macAt bytes 6 ∧ headerCsumOf f = 0#16)

/-- No destination filtering: the six bytes of `eth_dst` have no effect on a step (R103). That no filter exists is the spec's decision D6. -/
def Obligations.DestinationMacIsIgnored : Prop :=
  ∀ (s : State) (bytes d : List Byte) (v : Verdict) (rest : List Stimulus), s.Offers bytes v rest → 14 ≤ bytes.length → d.length = 6 →
    step { s with inputs := .event (.frame (d ++ bytes.drop 6)) v :: rest } = step s

/-- The ARP cache is observable only in which of CacheUpdated, CacheInserted and CacheFull is reported: another cache gives the same outbound frame,
the same phase and, those kinds apart, the same reports (R35). The spec derives this from its ARP and IPv4 rules. -/
def Obligations.CacheIsObservableOnlyInReports : Prop :=
  ∀ (s t : State) (c : List CacheEntry), step s = .next t →
    ∃ t', step { s with cache := c } = .next t' ∧ t'.out = t.out ∧ t'.phase = t.phase ∧
      t'.reports.map forgetCache = t.reports.map forgetCache

/-- Bytes past the ARP packet, or past the `TL` bytes of a datagram that is there whole, have no effect on a step (R58, R76). -/
def Obligations.TrailingBytesAreIgnored : Prop :=
  ∀ (s : State) (bytes extra : List Byte) (v : Verdict) (rest : List Stimulus), s.Offers (bytes ++ extra) v rest →
    (be16At bytes 12 = 0x0806#16 ∧ 42 ≤ bytes.length) ∨
      (be16At bytes 12 = 0x0800#16 ∧ 34 ≤ bytes.length ∧ 14 + ihlOf bytes * 4 ≤ bytes.length ∧ 14 + tlOf bytes ≤ bytes.length) →
    step { s with inputs := .event (.frame bytes) v :: rest } = step s

/-- The text of an event reads back as the event (R82). The notation is the spec's decision D23, the renderer the model's (notes/assumptions/17.md). -/
def Obligations.RenderedEventsParseBack : Prop :=
  ∀ e : HostEvent, parseLine (renderLine e) = some e
end

