-- ==== Sys2Proof/Laws/Bytes.lean ====
section
/-! SUPPORT. The byte order's laws: a number and its big-endian bytes determine each other. -/
namespace Sys2Proof

@[simp] theorem length_beBytes (n v : Nat) : (beBytes n v).length = n := by
  induction n with
  | zero => rfl
  | succ n ih => simp [beBytes, ih]

@[simp] theorem length_halfBytes (v : Half) : (halfBytes v).length = 2 := length_beBytes 2 _
@[simp] theorem length_ipBytes (v : IpAddr) : (ipBytes v).length = 4 := length_beBytes 4 _
@[simp] theorem length_macBytes (v : MacAddr) : (macBytes v).length = 6 := length_beBytes 6 _

theorem beNat_beBytes_mod (n v : Nat) : beNat (beBytes n v) = v % 256 ^ n := by
  induction n with
  | zero => simp [beBytes, beNat, Nat.mod_one]
  | succ n ih =>
    rw [beBytes, beNat, length_beBytes, ih, Nat.mod_pow_succ, BitVec.toNat_ofNat]
    ring

theorem beNat_beBytes {n v : Nat} (h : v < 256 ^ n) : beNat (beBytes n v) = v := by
  rw [beNat_beBytes_mod, Nat.mod_eq_of_lt h]

theorem beBytes_mod (n v : Nat) : beBytes n (v % 256 ^ n) = beBytes n v := by
  induction n generalizing v with
  | zero => rfl
  | succ n ih =>
    have hd : v % 256 ^ (n + 1) / 256 ^ n = v / 256 ^ n % 256 := by
      rw [pow_succ, Nat.mod_mul_right_div_self]
    have tl : v % 256 ^ (n + 1) % 256 ^ n = v % 256 ^ n :=
      Nat.mod_mod_of_dvd v (pow_dvd_pow 256 (Nat.le_succ n))
    rw [beBytes, beBytes, hd, ← ih (v % 256 ^ (n + 1)), tl, ih v]
    congr 1
    apply BitVec.eq_of_toNat_eq
    simp

theorem beBytes_beNat (bs : List Byte) : beBytes bs.length (beNat bs) = bs := by
  induction bs with
  | nil => rfl
  | cons b bs ih =>
    have hlt : beNat bs < 256 ^ bs.length := by
      rw [← ih, beNat_beBytes_mod, length_beBytes]
      exact Nat.mod_lt _ (by positivity)
    have hp : 0 < 256 ^ bs.length := by positivity
    have hm : (b.toNat * 256 ^ bs.length + beNat bs) % 256 ^ bs.length = beNat bs := by
      rw [Nat.mul_comm, Nat.mul_add_mod, Nat.mod_eq_of_lt hlt]
    rw [List.length_cons, beBytes, beNat, ← beBytes_mod, hm, ih]
    congr 1
    apply BitVec.eq_of_toNat_eq
    rw [Nat.mul_comm, Nat.mul_add_div hp, Nat.div_eq_of_lt hlt]
    simp

theorem beNat_lt (bs : List Byte) : beNat bs < 256 ^ bs.length := by
  conv_lhs => rw [← beBytes_beNat bs, beNat_beBytes_mod]
  exact Nat.mod_lt _ (by positivity)

/-- A field written at the front of a byte string reads back. -/
theorem fieldAt_prefix {n v : Nat} (h : v < 256 ^ n) (rest : List Byte) : fieldAt (beBytes n v ++ rest) 0 n = v := by
  have : (beBytes n v ++ rest).take n = beBytes n v := by simp
  rw [fieldAt, List.drop_zero, this, beNat_beBytes h]

/-- A field past a prefix is the field at the offset after it. -/
theorem fieldAt_append {pre : List Byte} {o : Nat} (h : pre.length ≤ o) (rest : List Byte) (n : Nat) :
    fieldAt (pre ++ rest) o n = fieldAt rest (o - pre.length) n := by
  simp [fieldAt, List.drop_append, List.drop_eq_nil_of_le h]

theorem fieldAt_drop (bs : List Byte) (k o n : Nat) : fieldAt (bs.drop k) o n = fieldAt bs (k + o) n := by
  simp [fieldAt, List.drop_drop]

/-- Reading a field and writing it back gives the bytes that were there. -/
theorem beBytes_fieldAt {bs : List Byte} {o n : Nat} (h : o + n ≤ bs.length) : beBytes n (fieldAt bs o n) = (bs.drop o).take n := by
  have hl : ((bs.drop o).take n).length = n := by simp; omega
  conv_rhs => rw [← beBytes_beNat ((bs.drop o).take n), hl]
  rfl

theorem fieldAt_lt (bs : List Byte) (o n : Nat) : fieldAt bs o n < 256 ^ n := by
  refine lt_of_lt_of_le (beNat_lt _) (Nat.pow_le_pow_right (by norm_num) ?_)
  simp

theorem halfBytes_be16At {bs : List Byte} {o : Nat} (h : o + 2 ≤ bs.length) : halfBytes (be16At bs o) = (bs.drop o).take 2 := by
  rw [halfBytes, be16At, BitVec.toNat_ofNat, Nat.mod_eq_of_lt (b := 2 ^ 16) (fieldAt_lt bs o 2), beBytes_fieldAt h]

theorem ipBytes_be32At {bs : List Byte} {o : Nat} (h : o + 4 ≤ bs.length) : ipBytes (be32At bs o) = (bs.drop o).take 4 := by
  rw [ipBytes, be32At, BitVec.toNat_ofNat, Nat.mod_eq_of_lt (b := 2 ^ 32) (fieldAt_lt bs o 4), beBytes_fieldAt h]

theorem macBytes_macAt {bs : List Byte} {o : Nat} (h : o + 6 ≤ bs.length) : macBytes (macAt bs o) = (bs.drop o).take 6 := by
  rw [macBytes, macAt, BitVec.toNat_ofNat, Nat.mod_eq_of_lt (b := 2 ^ 48) (fieldAt_lt bs o 6), beBytes_fieldAt h]

theorem byteAt_eq {bs : List Byte} {o : Nat} (h : o < bs.length) : byteAt bs o = bs[o] := by
  have : (bs.drop o).take 1 = [bs[o]] := by rw [List.drop_eq_getElem_cons h, List.take_succ_cons, List.take_zero]
  simp [byteAt, fieldAt, this, beNat]

@[simp] theorem be16At_halfBytes (v : Half) (rest : List Byte) : be16At (halfBytes v ++ rest) 0 = v := by
  rw [be16At, halfBytes, fieldAt_prefix (n := 2) v.isLt]; simp

@[simp] theorem be32At_ipBytes (v : IpAddr) (rest : List Byte) : be32At (ipBytes v ++ rest) 0 = v := by
  rw [be32At, ipBytes, fieldAt_prefix (n := 4) v.isLt]; simp

@[simp] theorem macAt_macBytes (v : MacAddr) (rest : List Byte) : macAt (macBytes v ++ rest) 0 = v := by
  rw [macAt, macBytes, fieldAt_prefix (n := 6) v.isLt]; simp

theorem be16At_append {pre : List Byte} {o : Nat} (h : pre.length ≤ o) (rest : List Byte) :
    be16At (pre ++ rest) o = be16At rest (o - pre.length) := by simp only [be16At, fieldAt_append h]

theorem be32At_append {pre : List Byte} {o : Nat} (h : pre.length ≤ o) (rest : List Byte) :
    be32At (pre ++ rest) o = be32At rest (o - pre.length) := by simp only [be32At, fieldAt_append h]

theorem macAt_append {pre : List Byte} {o : Nat} (h : pre.length ≤ o) (rest : List Byte) :
    macAt (pre ++ rest) o = macAt rest (o - pre.length) := by simp only [macAt, fieldAt_append h]

theorem byteAt_append {pre : List Byte} {o : Nat} (h : pre.length ≤ o) (rest : List Byte) :
    byteAt (pre ++ rest) o = byteAt rest (o - pre.length) := by simp only [byteAt, fieldAt_append h]

@[simp] theorem byteAt_cons_zero (b : Byte) (rest : List Byte) : byteAt (b :: rest) 0 = b := by
  rw [byteAt_eq (by simp)]; rfl

@[simp] theorem byteAt_cons_one (a b : Byte) (rest : List Byte) : byteAt (a :: b :: rest) 1 = b := by
  rw [byteAt_eq (by simp)]; rfl

theorem be16At_drop (bs : List Byte) (k o : Nat) : be16At (bs.drop k) o = be16At bs (k + o) := by simp only [be16At, fieldAt_drop]
theorem be32At_drop (bs : List Byte) (k o : Nat) : be32At (bs.drop k) o = be32At bs (k + o) := by simp only [be32At, fieldAt_drop]
theorem macAt_drop (bs : List Byte) (k o : Nat) : macAt (bs.drop k) o = macAt bs (k + o) := by simp only [macAt, fieldAt_drop]
theorem byteAt_drop (bs : List Byte) (k o : Nat) : byteAt (bs.drop k) o = byteAt bs (k + o) := by simp only [byteAt, fieldAt_drop]

end Sys2Proof
end

