-- ==== Sys2Proof/Laws/Memory.lean ====
section
/-! SUPPORT. The frame buffer's laws: a read after a write, the canonical form, and the buffer as a byte string. -/
namespace Sys2Proof.Machine

@[simp] theorem Memory.read_nil (a : Nat) : Memory.read [] a = none := rfl

theorem Memory.read_write_same (m : Memory) (a : Nat) (b : Byte) : (m.write a b).read a = some b := by
  induction m with
  | nil => simp [Memory.write, Memory.read]
  | cons c m ih =>
    obtain ⟨k, x⟩ := c
    simp only [Memory.write]
    split
    · simp [Memory.read]
    · split
      · simp [Memory.read]
      · next h => simp [Memory.read, h, ih]

theorem Memory.read_write_other {m : Memory} {a a' : Nat} (b : Byte) (h : a' ≠ a) : (m.write a b).read a' = m.read a' := by
  induction m with
  | nil => simp [Memory.write, Memory.read, h]
  | cons c m ih =>
    obtain ⟨k, x⟩ := c
    simp only [Memory.write]
    split
    · simp [Memory.read, h]
    · split
      · next h1 h2 => subst h2; simp [Memory.read, h]
      · simp [Memory.read, ih]

theorem Memory.read_writeRange_other {m : Memory} {o a : Nat} {bs : List Byte} (h : a < o ∨ o + bs.length ≤ a) :
    (m.writeRange o bs).read a = m.read a := by
  induction bs generalizing m o with
  | nil => rfl
  | cons b bs ih =>
    simp only [List.length_cons] at h
    rw [Memory.writeRange, ih (by omega), Memory.read_write_other b (by omega)]

theorem Memory.read_writeRange_same {m : Memory} {o k : Nat} {bs : List Byte} (h : k < bs.length) :
    (m.writeRange o bs).read (o + k) = some bs[k] := by
  induction bs generalizing m o k with
  | nil => simp at h
  | cons b bs ih =>
    rw [Memory.writeRange]
    cases k with
    | zero => rw [Memory.read_writeRange_other (by omega), Nat.add_zero, Memory.read_write_same]; rfl
    | succ k =>
      have := ih (m := m.write o b) (o := o + 1) (k := k) (by simpa using h)
      rw [show o + (k + 1) = o + 1 + k by omega, this]
      rfl

theorem Memory.wf_cons_iff (a : Nat) (x : Byte) (m : Memory) :
    Memory.wf ((a, x) :: m) = true ↔ (∀ c ∈ m, a < c.1) ∧ Memory.wf m = true := by
  induction m generalizing a x with
  | nil => simp [Memory.wf]
  | cons c m ih =>
    obtain ⟨b, y⟩ := c
    rw [Memory.wf, Bool.and_eq_true, decide_eq_true_eq, ih b y]
    constructor
    · rintro ⟨h1, h2, h3⟩
      refine ⟨fun c hc => ?_, h2, h3⟩
      rcases List.mem_cons.1 hc with rfl | hc
      · exact h1
      · exact h1.trans (h2 c hc)
    · rintro ⟨h1, h2, h3⟩
      exact ⟨h1 _ List.mem_cons_self, h2, h3⟩

theorem Memory.mem_write {m : Memory} {a : Nat} {b : Byte} {c : Host.Cell} (h : c ∈ m.write a b) : c.1 = a ∨ c ∈ m := by
  induction m with
  | nil => simp [Memory.write] at h; simp [h]
  | cons d m ih =>
    obtain ⟨k, x⟩ := d
    simp only [Memory.write] at h
    split at h
    · rcases List.mem_cons.1 h with rfl | h
      · exact .inl rfl
      · exact .inr h
    · split at h
      · rcases List.mem_cons.1 h with rfl | h
        · exact .inl rfl
        · exact .inr (List.mem_cons_of_mem _ h)
      · rcases List.mem_cons.1 h with rfl | h
        · exact .inr List.mem_cons_self
        · exact (ih h).imp_right (List.mem_cons_of_mem _)

/-- A write keeps the canonical form. -/
theorem Memory.wf_write {m : Memory} (h : m.wf = true) (a : Nat) (b : Byte) : (m.write a b).wf = true := by
  induction m with
  | nil => rfl
  | cons c m ih =>
    obtain ⟨k, x⟩ := c
    have ⟨h1, h2⟩ := (Memory.wf_cons_iff k x m).1 h
    simp only [Memory.write]
    split
    · next hk =>
      refine (Memory.wf_cons_iff _ _ _).2 ⟨fun c hc => ?_, h⟩
      rcases List.mem_cons.1 hc with rfl | hc
      · exact hk
      · exact hk.trans (h1 c hc)
    · split
      · next hk => subst hk; exact (Memory.wf_cons_iff _ _ _).2 ⟨h1, h2⟩
      · next h3 h4 =>
        refine (Memory.wf_cons_iff _ _ _).2 ⟨fun c hc => ?_, ih h2⟩
        rcases Memory.mem_write hc with hc | hc
        · omega
        · exact h1 c hc

/-- A range write keeps the canonical form. -/
theorem Memory.wf_writeRange {m : Memory} (h : m.wf = true) (o : Nat) (bs : List Byte) : (m.writeRange o bs).wf = true := by
  induction bs generalizing m o with
  | nil => exact h
  | cons b bs ih => exact ih (Memory.wf_write h o b) (o + 1)

theorem mem_cellsFrom {o : Nat} {bs : List Byte} {c : Host.Cell} (h : c ∈ cellsFrom o bs) : o ≤ c.1 := by
  induction bs generalizing o with
  | nil => simp [cellsFrom] at h
  | cons b bs ih =>
    rcases List.mem_cons.1 h with rfl | h
    · exact le_refl _
    · exact (Nat.le_succ o).trans (ih h)

/-- A loaded frame is in the canonical form. -/
theorem wf_cellsFrom (o : Nat) (bs : List Byte) : (cellsFrom o bs).wf = true := by
  induction bs generalizing o with
  | nil => rfl
  | cons b bs ih => exact (Memory.wf_cons_iff _ _ _).2 ⟨fun c hc => mem_cellsFrom hc, ih (o + 1)⟩

theorem read_cellsFrom (o k : Nat) (bs : List Byte) : (cellsFrom o bs).read (o + k) = bs[k]? := by
  induction bs generalizing o k with
  | nil => rfl
  | cons b bs ih =>
    cases k with
    | zero => simp [cellsFrom, Memory.read]
    | succ k =>
      rw [cellsFrom, Memory.read, if_neg (by omega), show o + (k + 1) = o + 1 + k by omega, ih]
      rfl

/-- The byte at an offset of a loaded frame. -/
@[simp] theorem read_cellsFrom_zero (k : Nat) (bs : List Byte) : (cellsFrom 0 bs).read k = bs[k]? := by
  simpa using read_cellsFrom 0 k bs

theorem map_fst_cellsFrom (o : Nat) (bs : List Byte) : (cellsFrom o bs).map Prod.fst = List.range' o bs.length := by
  induction bs generalizing o with
  | nil => rfl
  | cons b bs ih => simp [cellsFrom, ih, List.range'_succ]

/-- A loaded frame of `n` bytes holds exactly the offsets `0 .. n-1`. -/
@[simp] theorem holdsExactly_cellsFrom (bs : List Byte) : (cellsFrom 0 bs).holdsExactly bs.length = true := by
  simp [Memory.holdsExactly, map_fst_cellsFrom, List.range_eq_range']

theorem write_cellsFrom {o k : Nat} {bs : List Byte} (h : k < bs.length) (b : Byte) :
    (cellsFrom o bs).write (o + k) b = cellsFrom o (bs.set k b) := by
  induction bs generalizing o k with
  | nil => simp at h
  | cons c bs ih =>
    rw [cellsFrom, Memory.write]
    cases k with
    | zero => simp [cellsFrom]
    | succ k =>
      rw [if_neg (by omega), if_neg (by omega), List.set_cons_succ, cellsFrom, show o + (k + 1) = o + 1 + k by omega,
        ih (by simpa using h)]

/-- A byte string with `ws` written over it at `o`. -/
def splice (bs : List Byte) (o : Nat) (ws : List Byte) : List Byte := bs.take o ++ ws ++ bs.drop (o + ws.length)

theorem length_splice {bs : List Byte} {o : Nat} {ws : List Byte} (h : o + ws.length ≤ bs.length) : (splice bs o ws).length = bs.length := by
  simp [splice]; omega

/-- Writing over one piece of a byte string replaces that piece. -/
theorem splice_append {a b c w : List Byte} {o : Nat} (ho : a.length = o) (hw : w.length = b.length) :
    splice (a ++ (b ++ c)) o w = a ++ (w ++ c) := by
  subst ho
  simp [splice, hw, List.drop_append]

theorem writeRange_cellsFrom {o : Nat} {bs ws : List Byte} (h : o + ws.length ≤ bs.length) :
    (cellsFrom 0 bs).writeRange o ws = cellsFrom 0 (splice bs o ws) := by
  induction ws generalizing bs o with
  | nil => simp [Memory.writeRange, splice]
  | cons w ws ih =>
    simp only [List.length_cons] at h
    have hw := write_cellsFrom (o := 0) (k := o) (bs := bs) (by omega) w
    rw [Nat.zero_add] at hw
    rw [Memory.writeRange, hw, ih (by simp; omega)]
    congr 1
    have h1 : (bs.set o w).take (o + 1) = bs.take o ++ [w] := by
      rw [List.take_add_one, List.getElem?_set_self (by omega), List.take_set_of_le (le_refl o)]; rfl
    have h2 : (bs.set o w).drop (o + 1 + ws.length) = bs.drop (o + (ws.length + 1)) := by
      rw [List.drop_set_of_lt (by omega)]; congr 1; omega
    simp only [splice, h1, h2, List.append_assoc, List.cons_append, List.nil_append, List.length_cons]

theorem readRange_cellsFrom {o n : Nat} {bs : List Byte} (h : o + n ≤ bs.length) :
    (cellsFrom 0 bs).readRange o n = some ((bs.drop o).take n) := by
  induction n generalizing o with
  | zero => simp [Memory.readRange]
  | succ n ih =>
    have ho : o < bs.length := by omega
    rw [Memory.readRange, read_cellsFrom_zero, ih (by omega), List.getElem?_eq_getElem ho, List.drop_eq_getElem_cons ho,
      List.take_succ_cons]

end Sys2Proof.Machine
end

