-- ==== Sys2Proof/Laws/State.lean ====
section
/-! SUPPORT. What each update of the state does to each field. -/
namespace Sys2Proof.Machine

@[simp] theorem State.report_phase (s : State) (k : ReportKind) (l : Layer) : (s.report k l).phase = s.phase := rfl
@[simp] theorem State.report_cache (s : State) (k : ReportKind) (l : Layer) : (s.report k l).cache = s.cache := rfl
@[simp] theorem State.report_cfg (s : State) (k : ReportKind) (l : Layer) : (s.report k l).cfg = s.cfg := rfl
@[simp] theorem State.report_buf (s : State) (k : ReportKind) (l : Layer) : (s.report k l).buf = s.buf := rfl
@[simp] theorem State.report_len (s : State) (k : ReportKind) (l : Layer) : (s.report k l).len = s.len := rfl
@[simp] theorem State.report_reports (s : State) (k : ReportKind) (l : Layer) : (s.report k l).reports = s.reports ++ [⟨k, l⟩] := rfl
@[simp] theorem State.report_out (s : State) (k : ReportKind) (l : Layer) : (s.report k l).out = s.out := rfl
@[simp] theorem State.report_inputs (s : State) (k : ReportKind) (l : Layer) : (s.report k l).inputs = s.inputs := rfl
@[simp] theorem State.report_sinkVerdict (s : State) (k : ReportKind) (l : Layer) : (s.report k l).sinkVerdict = s.sinkVerdict := rfl

@[simp] theorem State.halt_phase (s : State) (c : HaltCause) : (s.halt c).phase = .halted c := rfl
@[simp] theorem State.halt_cache (s : State) (c : HaltCause) : (s.halt c).cache = s.cache := rfl
@[simp] theorem State.halt_cfg (s : State) (c : HaltCause) : (s.halt c).cfg = s.cfg := rfl
@[simp] theorem State.halt_buf (s : State) (c : HaltCause) : (s.halt c).buf = s.buf := rfl
@[simp] theorem State.halt_len (s : State) (c : HaltCause) : (s.halt c).len = s.len := rfl
@[simp] theorem State.halt_reports (s : State) (c : HaltCause) : (s.halt c).reports = [⟨c.kind, .eth⟩] := rfl
@[simp] theorem State.halt_out (s : State) (c : HaltCause) : (s.halt c).out = none := rfl
@[simp] theorem State.halt_inputs (s : State) (c : HaltCause) : (s.halt c).inputs = s.inputs := rfl
@[simp] theorem State.halt_sinkVerdict (s : State) (c : HaltCause) : (s.halt c).sinkVerdict = s.sinkVerdict := rfl

@[simp] theorem State.applyReset_phase (s : State) : (s.applyReset).phase = .idle := rfl
@[simp] theorem State.applyReset_cache (s : State) : (s.applyReset).cache = List.replicate cacheEntries .free := rfl
@[simp] theorem State.applyReset_cfg (s : State) : (s.applyReset).cfg = s.cfg := rfl
@[simp] theorem State.applyReset_buf (s : State) : (s.applyReset).buf = [] := rfl
@[simp] theorem State.applyReset_len (s : State) : (s.applyReset).len = 0 := rfl
@[simp] theorem State.applyReset_reports (s : State) : (s.applyReset).reports = [] := rfl
@[simp] theorem State.applyReset_out (s : State) : (s.applyReset).out = none := rfl
@[simp] theorem State.applyReset_inputs (s : State) : (s.applyReset).inputs = s.inputs := rfl
@[simp] theorem State.applyReset_sinkVerdict (s : State) : (s.applyReset).sinkVerdict = s.sinkVerdict := rfl

@[simp] theorem State.loadFrame_phase (s : State) (bs : List Byte) : (s.loadFrame bs).phase = s.phase := rfl
@[simp] theorem State.loadFrame_cache (s : State) (bs : List Byte) : (s.loadFrame bs).cache = s.cache := rfl
@[simp] theorem State.loadFrame_cfg (s : State) (bs : List Byte) : (s.loadFrame bs).cfg = s.cfg := rfl
@[simp] theorem State.loadFrame_buf (s : State) (bs : List Byte) : (s.loadFrame bs).buf = cellsFrom 0 bs := rfl
@[simp] theorem State.loadFrame_len (s : State) (bs : List Byte) : (s.loadFrame bs).len = bs.length := rfl
@[simp] theorem State.loadFrame_reports (s : State) (bs : List Byte) : (s.loadFrame bs).reports = [] := rfl
@[simp] theorem State.loadFrame_out (s : State) (bs : List Byte) : (s.loadFrame bs).out = none := rfl
@[simp] theorem State.loadFrame_inputs (s : State) (bs : List Byte) : (s.loadFrame bs).inputs = s.inputs := rfl
@[simp] theorem State.loadFrame_sinkVerdict (s : State) (bs : List Byte) : (s.loadFrame bs).sinkVerdict = s.sinkVerdict := rfl

@[simp] theorem State.discardFrame_phase (s : State) : (s.discardFrame).phase = s.phase := rfl
@[simp] theorem State.discardFrame_cache (s : State) : (s.discardFrame).cache = s.cache := rfl
@[simp] theorem State.discardFrame_cfg (s : State) : (s.discardFrame).cfg = s.cfg := rfl
@[simp] theorem State.discardFrame_buf (s : State) : (s.discardFrame).buf = [] := rfl
@[simp] theorem State.discardFrame_len (s : State) : (s.discardFrame).len = 0 := rfl
@[simp] theorem State.discardFrame_reports (s : State) : (s.discardFrame).reports = s.reports := rfl
@[simp] theorem State.discardFrame_out (s : State) : (s.discardFrame).out = s.out := rfl
@[simp] theorem State.discardFrame_inputs (s : State) : (s.discardFrame).inputs = s.inputs := rfl
@[simp] theorem State.discardFrame_sinkVerdict (s : State) : (s.discardFrame).sinkVerdict = s.sinkVerdict := rfl

@[simp] theorem State.setBuf_phase (s : State) (m : Memory) : (s.setBuf m).phase = s.phase := rfl
@[simp] theorem State.setBuf_cache (s : State) (m : Memory) : (s.setBuf m).cache = s.cache := rfl
@[simp] theorem State.setBuf_cfg (s : State) (m : Memory) : (s.setBuf m).cfg = s.cfg := rfl
@[simp] theorem State.setBuf_buf (s : State) (m : Memory) : (s.setBuf m).buf = m := rfl
@[simp] theorem State.setBuf_len (s : State) (m : Memory) : (s.setBuf m).len = s.len := rfl
@[simp] theorem State.setBuf_reports (s : State) (m : Memory) : (s.setBuf m).reports = s.reports := rfl
@[simp] theorem State.setBuf_out (s : State) (m : Memory) : (s.setBuf m).out = s.out := rfl
@[simp] theorem State.setBuf_inputs (s : State) (m : Memory) : (s.setBuf m).inputs = s.inputs := rfl
@[simp] theorem State.setBuf_sinkVerdict (s : State) (m : Memory) : (s.setBuf m).sinkVerdict = s.sinkVerdict := rfl

@[simp] theorem State.take_phase (s : State) (r : List Stimulus) (v : Verdict) : (s.take r v).phase = s.phase := rfl
@[simp] theorem State.take_cache (s : State) (r : List Stimulus) (v : Verdict) : (s.take r v).cache = s.cache := rfl
@[simp] theorem State.take_cfg (s : State) (r : List Stimulus) (v : Verdict) : (s.take r v).cfg = s.cfg := rfl
@[simp] theorem State.take_buf (s : State) (r : List Stimulus) (v : Verdict) : (s.take r v).buf = s.buf := rfl
@[simp] theorem State.take_len (s : State) (r : List Stimulus) (v : Verdict) : (s.take r v).len = s.len := rfl
@[simp] theorem State.take_reports (s : State) (r : List Stimulus) (v : Verdict) : (s.take r v).reports = s.reports := rfl
@[simp] theorem State.take_out (s : State) (r : List Stimulus) (v : Verdict) : (s.take r v).out = s.out := rfl
@[simp] theorem State.take_inputs (s : State) (r : List Stimulus) (v : Verdict) : (s.take r v).inputs = r := rfl
@[simp] theorem State.take_sinkVerdict (s : State) (r : List Stimulus) (v : Verdict) : (s.take r v).sinkVerdict = v := rfl

@[simp] theorem State.emit_phase (s : State) (bs : List Byte) : (s.emit bs).phase = s.phase := by
  unfold State.emit
  split <;> rfl
@[simp] theorem State.emit_cache (s : State) (bs : List Byte) : (s.emit bs).cache = s.cache := by
  unfold State.emit
  split <;> rfl
@[simp] theorem State.emit_cfg (s : State) (bs : List Byte) : (s.emit bs).cfg = s.cfg := by
  unfold State.emit
  split <;> rfl
@[simp] theorem State.emit_buf (s : State) (bs : List Byte) : (s.emit bs).buf = s.buf := by
  unfold State.emit
  split <;> rfl
@[simp] theorem State.emit_len (s : State) (bs : List Byte) : (s.emit bs).len = s.len := by
  unfold State.emit
  split <;> rfl
@[simp] theorem State.emit_inputs (s : State) (bs : List Byte) : (s.emit bs).inputs = s.inputs := by
  unfold State.emit
  split <;> rfl
@[simp] theorem State.emit_sinkVerdict (s : State) (bs : List Byte) : (s.emit bs).sinkVerdict = s.sinkVerdict := by
  unfold State.emit
  split <;> rfl
@[simp] theorem State.emit_out (s : State) (bs : List Byte) : (s.emit bs).out = some bs := by
  unfold State.emit
  split <;> rfl
/-- R171: SendFailed is the only report of a send, and only on a failed verdict. -/
theorem State.emit_reports (s : State) (bs : List Byte) :
    (s.emit bs).reports = s.reports ++ (if s.sinkVerdict = .failed then [⟨.sendFailed, .eth⟩] else []) := by
  unfold State.emit
  cases s.sinkVerdict <;> simp

@[simp] theorem State.learn_phase (s : State) (h : Half) (i : IpAddr) (m : MacAddr) : (s.learn h i m).phase = s.phase := by
  unfold State.learn
  split
  · rfl
  · split <;> rfl
@[simp] theorem State.learn_cfg (s : State) (h : Half) (i : IpAddr) (m : MacAddr) : (s.learn h i m).cfg = s.cfg := by
  unfold State.learn
  split
  · rfl
  · split <;> rfl
@[simp] theorem State.learn_buf (s : State) (h : Half) (i : IpAddr) (m : MacAddr) : (s.learn h i m).buf = s.buf := by
  unfold State.learn
  split
  · rfl
  · split <;> rfl
@[simp] theorem State.learn_len (s : State) (h : Half) (i : IpAddr) (m : MacAddr) : (s.learn h i m).len = s.len := by
  unfold State.learn
  split
  · rfl
  · split <;> rfl
@[simp] theorem State.learn_out (s : State) (h : Half) (i : IpAddr) (m : MacAddr) : (s.learn h i m).out = s.out := by
  unfold State.learn
  split
  · rfl
  · split <;> rfl
@[simp] theorem State.learn_inputs (s : State) (h : Half) (i : IpAddr) (m : MacAddr) : (s.learn h i m).inputs = s.inputs := by
  unfold State.learn
  split
  · rfl
  · split <;> rfl
@[simp] theorem State.learn_sinkVerdict (s : State) (h : Half) (i : IpAddr) (m : MacAddr) : (s.learn h i m).sinkVerdict = s.sinkVerdict := by
  unfold State.learn
  split
  · rfl
  · split <;> rfl

/-- Step A5 (R110) says what it learned in exactly one report, and changes nothing but the cache and the report list. -/
theorem State.learn_cases (s : State) (h : Half) (i : IpAddr) (m : MacAddr) :
    (∃ c, cacheUpdate s.cache h i m = some c ∧ s.learn h i m = { s with cache := c }.report .cacheUpdated .arp) ∨
    (∃ c, cacheUpdate s.cache h i m = none ∧ cacheInsert s.cache h i m = some c ∧
      s.learn h i m = { s with cache := c }.report .cacheInserted .arp) ∨
    (cacheUpdate s.cache h i m = none ∧ cacheInsert s.cache h i m = none ∧ s.learn h i m = s.report .cacheFull .arp) := by
  unfold State.learn
  split
  · next c hc => exact .inl ⟨c, hc, rfl⟩
  · next hc =>
    split
    · next c hi => exact .inr (.inl ⟨c, hc, hi, rfl⟩)
    · next hi => exact .inr (.inr ⟨hc, hi, rfl⟩)

end Sys2Proof.Machine
end

