-- ==== Sys2Proof/Laws/Ops.lean ====
section
/-! SUPPORT. What each shared operation can do: an inversion lemma for every state, and its exact result on a loaded frame. -/
namespace Sys2Proof.Machine

@[simp] theorem ok_bind {α β : Type} (a : α) (f : α → Op β) : (Except.ok a >>= f) = f a := rfl
@[simp] theorem error_bind {α β : Type} (e : Fault) (f : α → Op β) : ((Except.error e : Op α) >>= f) = .error e := rfl

/-- A sequence answers exactly when its parts do. -/
theorem bind_eq_ok {α β : Type} {x : Op α} {f : α → Op β} {b : β} : (x >>= f) = .ok b ↔ ∃ a, x = .ok a ∧ f a = .ok b := by
  cases x with
  | ok a => simp
  | error e => simp

theorem map_eq_ok {α β : Type} {x : Op α} {f : α → β} {b : β} : x.map f = .ok b ↔ ∃ a, x = .ok a ∧ f a = b := by
  cases x with
  | ok a => simp [Except.map]
  | error e => simp [Except.map]

@[simp] theorem finish_ok (s : State) : finish (.ok s) = .next s := rfl
@[simp] theorem finish_error (f : Fault) : finish (.error f) = .fault f := rfl

theorem finish_eq_next {x : Op State} {t : State} : finish x = .next t ↔ x = .ok t := by
  cases x with
  | ok a => simp [finish]
  | error e => simp [finish]

/-! ### Inversion, for every state -/

theorem State.readBytes_eq_ok {s : State} {o n : Nat} {bs : List Byte} :
    s.readBytes o n = .ok bs ↔ o + n ≤ s.len ∧ s.buf.readRange o n = some bs := by
  unfold State.readBytes
  split
  · next h => cases hr : s.buf.readRange o n <;> simp [h]
  · next h => simp [h]

theorem State.writeBytes_eq_ok {s t : State} {o : Nat} {bs : List Byte} :
    s.writeBytes o bs = .ok t ↔ o + bs.length ≤ s.len ∧ t = s.setBuf (s.buf.writeRange o bs) := by
  unfold State.writeBytes
  split
  · next h => simp [h, eq_comm]
  · next h => simp [h]

theorem State.memWrite_eq_ok {s t : State} {o n v : Nat} :
    s.memWrite o n v = .ok t ↔ o + n ≤ s.len ∧ t = s.setBuf (s.buf.writeRange o (beBytes n v)) := by
  simp [State.memWrite, State.writeBytes_eq_ok]

/-- R153: what a checksum fill does, when it answers: two bytes are written, nothing else changes. -/
theorem State.csumFill_eq_ok {s t : State} {a b f : Nat} (h : s.csumFill a b f = .ok t) :
    ∃ c : Half, f + 2 ≤ s.len ∧
      (s.setBuf (s.buf.writeRange f (beBytes 2 0))).csum a b = .ok c ∧
      t = s.setBuf ((s.buf.writeRange f (beBytes 2 0)).writeRange f (halfBytes c)) := by
  obtain ⟨s1, h1, h2⟩ := bind_eq_ok.1 h
  obtain ⟨hl, rfl⟩ := State.memWrite_eq_ok.1 h1
  obtain ⟨c, h3, h4⟩ := bind_eq_ok.1 h2
  obtain ⟨-, rfl⟩ := State.memWrite_eq_ok.1 h4
  exact ⟨c, hl, h3, rfl⟩

/-- R110 step A6, R131: what the destination check does. -/
theorem State.notForUs_eq (s : State) (l : Layer) (ip : IpAddr) (go : State → Op State) :
    s.notForUs l ip go =
      if ip = s.cfg.devIp then go s
      else if s.cfg.policy = .permissive then go (s.report .notForUs l) else drop .notForUs l s := by
  unfold State.notForUs
  split
  · rfl
  · cases s.cfg.policy <;> rfl

/-- A send, when it answers, writes the Ethernet header and emits; only `buf`, `out` and `reports` change (R102, R170). -/
theorem State.send_eq_ok {s t : State} {et : Half} {n : Nat} {d : MacAddr} (h : s.send et n d = .ok t) :
    ∃ bs, 12 + 2 ≤ s.len ∧
      t = (s.setBuf (((s.buf.writeRange 12 (halfBytes et)).writeRange 0 (macBytes d)).writeRange 6 (macBytes s.cfg.devMac))).emit bs ∧
      (((s.buf.writeRange 12 (halfBytes et)).writeRange 0 (macBytes d)).writeRange 6 (macBytes s.cfg.devMac)).readRange 0 (n + 14) =
        some bs := by
  obtain ⟨s3, h1, h2⟩ := bind_eq_ok.1 h
  obtain ⟨s1, h3, h4⟩ := bind_eq_ok.1 h1
  obtain ⟨s2, h5, h6⟩ := bind_eq_ok.1 h4
  obtain ⟨hl, rfl⟩ := State.memWrite_eq_ok.1 h3
  obtain ⟨-, rfl⟩ := State.memWrite_eq_ok.1 h5
  obtain ⟨-, rfl⟩ := State.memWrite_eq_ok.1 h6
  obtain ⟨bs, h7, h8⟩ := bind_eq_ok.1 h2
  obtain ⟨-, h9⟩ := State.readBytes_eq_ok.1 h7
  cases h8
  exact ⟨bs, hl, rfl, h9⟩

/-! ### The exact result on a loaded frame -/

/-- The state whose buffer holds exactly the bytes `bs`. -/
def State.withBytes (s : State) (bs : List Byte) : State := { s with buf := cellsFrom 0 bs, len := bs.length }

@[simp] theorem State.withBytes_phase (s : State) (bs : List Byte) : (s.withBytes bs).phase = s.phase := rfl
@[simp] theorem State.withBytes_cache (s : State) (bs : List Byte) : (s.withBytes bs).cache = s.cache := rfl
@[simp] theorem State.withBytes_cfg (s : State) (bs : List Byte) : (s.withBytes bs).cfg = s.cfg := rfl
@[simp] theorem State.withBytes_buf (s : State) (bs : List Byte) : (s.withBytes bs).buf = cellsFrom 0 bs := rfl
@[simp] theorem State.withBytes_len (s : State) (bs : List Byte) : (s.withBytes bs).len = bs.length := rfl
@[simp] theorem State.withBytes_reports (s : State) (bs : List Byte) : (s.withBytes bs).reports = s.reports := rfl
@[simp] theorem State.withBytes_out (s : State) (bs : List Byte) : (s.withBytes bs).out = s.out := rfl
@[simp] theorem State.withBytes_inputs (s : State) (bs : List Byte) : (s.withBytes bs).inputs = s.inputs := rfl
@[simp] theorem State.withBytes_sinkVerdict (s : State) (bs : List Byte) : (s.withBytes bs).sinkVerdict = s.sinkVerdict := rfl

theorem State.loadFrame_eq (s : State) (bs : List Byte) :
    s.loadFrame bs = { s with reports := [], out := none }.withBytes bs := rfl

@[simp] theorem State.withBytes_withBytes (s : State) (bs bs' : List Byte) : (s.withBytes bs).withBytes bs' = s.withBytes bs' := rfl

theorem State.report_withBytes (s : State) (bs : List Byte) (k : ReportKind) (l : Layer) :
    (s.withBytes bs).report k l = (s.report k l).withBytes bs := rfl

theorem State.emit_withBytes (s : State) (bs f : List Byte) : (s.withBytes bs).emit f = (s.emit f).withBytes bs := by
  unfold State.emit
  rw [State.withBytes_sinkVerdict]
  cases s.sinkVerdict <;> rfl

theorem State.learn_withBytes (s : State) (bs : List Byte) (h : Half) (i : IpAddr) (m : MacAddr) :
    (s.withBytes bs).learn h i m = (s.learn h i m).withBytes bs := by
  unfold State.learn
  simp only [State.withBytes_cache]
  split
  · rfl
  · split <;> rfl

theorem State.readBytes_withBytes (s : State) {bs : List Byte} {o n : Nat} (h : o + n ≤ bs.length) :
    (s.withBytes bs).readBytes o n = .ok ((bs.drop o).take n) :=
  State.readBytes_eq_ok.2 ⟨h, readRange_cellsFrom h⟩

/-- R52: a read outside the frame faults. -/
theorem State.readBytes_outside {s : State} {o n : Nat} (h : s.len < o + n) : s.readBytes o n = .error .readOutsideFrame := by
  simp [State.readBytes, Nat.not_le.2 h]

theorem State.writeBytes_withBytes (s : State) {bs ws : List Byte} {o : Nat} (h : o + ws.length ≤ bs.length) :
    (s.withBytes bs).writeBytes o ws = .ok (s.withBytes (splice bs o ws)) := by
  refine State.writeBytes_eq_ok.2 ⟨h, ?_⟩
  rw [State.withBytes_buf, writeRange_cellsFrom h, State.withBytes, length_splice h]
  rfl

theorem State.memRead_withBytes (s : State) {bs : List Byte} {o n : Nat} (h : o + n ≤ bs.length) :
    (s.withBytes bs).memRead o n = .ok (fieldAt bs o n) := by
  rw [State.memRead, State.readBytes_withBytes s h]; rfl

theorem State.memWrite_withBytes (s : State) {bs : List Byte} {o n v : Nat} (h : o + n ≤ bs.length) :
    (s.withBytes bs).memWrite o n v = .ok (s.withBytes (splice bs o (beBytes n v))) :=
  State.writeBytes_withBytes s (by simpa using h)

theorem State.readByte_withBytes (s : State) {bs : List Byte} {o : Nat} (h : o + 1 ≤ bs.length) :
    (s.withBytes bs).readByte o = .ok (byteAt bs o) := by
  rw [State.readByte, State.memRead_withBytes s h]; rfl

theorem State.readHalf_withBytes (s : State) {bs : List Byte} {o : Nat} (h : o + 2 ≤ bs.length) :
    (s.withBytes bs).readHalf o = .ok (be16At bs o) := by
  rw [State.readHalf, State.memRead_withBytes s h]; rfl

theorem State.readIp_withBytes (s : State) {bs : List Byte} {o : Nat} (h : o + 4 ≤ bs.length) :
    (s.withBytes bs).readIp o = .ok (be32At bs o) := by
  rw [State.readIp, State.memRead_withBytes s h]; rfl

theorem State.readMac_withBytes (s : State) {bs : List Byte} {o : Nat} (h : o + 6 ≤ bs.length) :
    (s.withBytes bs).readMac o = .ok (macAt bs o) := by
  rw [State.readMac, State.memRead_withBytes s h]; rfl

theorem State.writeByte_withBytes (s : State) {bs : List Byte} {o : Nat} (v : Byte) (h : o + 1 ≤ bs.length) :
    (s.withBytes bs).writeByte o v = .ok (s.withBytes (splice bs o [v])) := by
  rw [State.writeByte, State.memWrite_withBytes s h]
  simp [beBytes]

theorem State.writeHalf_withBytes (s : State) {bs : List Byte} {o : Nat} (v : Half) (h : o + 2 ≤ bs.length) :
    (s.withBytes bs).writeHalf o v = .ok (s.withBytes (splice bs o (halfBytes v))) := State.memWrite_withBytes s h

theorem State.writeIp_withBytes (s : State) {bs : List Byte} {o : Nat} (v : IpAddr) (h : o + 4 ≤ bs.length) :
    (s.withBytes bs).writeIp o v = .ok (s.withBytes (splice bs o (ipBytes v))) := State.memWrite_withBytes s h

theorem State.writeMac_withBytes (s : State) {bs : List Byte} {o : Nat} (v : MacAddr) (h : o + 6 ≤ bs.length) :
    (s.withBytes bs).writeMac o v = .ok (s.withBytes (splice bs o (macBytes v))) := State.memWrite_withBytes s h

theorem State.csum_withBytes (s : State) {bs : List Byte} {a b : Nat} (h : a + (b - a) ≤ bs.length) :
    (s.withBytes bs).csum a b = .ok (internetChecksum ((bs.drop a).take (b - a))) := by
  rw [State.csum, State.readBytes_withBytes s h]

/-- R153 on a loaded frame. -/
theorem State.csumFill_withBytes (s : State) {bs : List Byte} {a b f : Nat} (hf : f + 2 ≤ bs.length) (hb : a + (b - a) ≤ bs.length) :
    (s.withBytes bs).csumFill a b f =
      .ok (s.withBytes (splice (splice bs f (halfBytes 0#16)) f
        (halfBytes (internetChecksum (((splice bs f (halfBytes 0#16)).drop a).take (b - a)))))) := by
  have hl : (splice bs f (beBytes 2 0)).length = bs.length := length_splice (by simpa using hf)
  rw [State.csumFill, State.memWrite_withBytes s hf, ok_bind, State.csum_withBytes s (by omega), ok_bind,
    State.memWrite_withBytes s (by omega)]
  rfl

/-- The first 14 bytes of a frame and the rest, as pieces. -/
theorem eth_pieces {bs : List Byte} (h : 14 ≤ bs.length) :
    ∃ a b c r : List Byte, bs = a ++ (b ++ (c ++ r)) ∧ a.length = 6 ∧ b.length = 6 ∧ c.length = 2 ∧ bs.drop 14 = r := by
  refine ⟨bs.take 6, (bs.drop 6).take 6, (bs.drop 12).take 2, bs.drop 14, ?_, ?_, ?_, ?_, rfl⟩
  · have e2 : bs.drop 12 = (bs.drop 12).take 2 ++ bs.drop 14 := by
      conv_lhs => rw [← List.take_append_drop 2 (bs.drop 12), List.drop_drop]
    have e1 : bs.drop 6 = (bs.drop 6).take 6 ++ bs.drop 12 := by
      conv_lhs => rw [← List.take_append_drop 6 (bs.drop 6), List.drop_drop]
    rw [← e2, ← e1, List.take_append_drop]
  all_goals simp; omega

/-- R102 on a loaded frame. -/
theorem State.ethFinalize_withBytes (s : State) {bs : List Byte} (et : Half) (d m : MacAddr) (h : 14 ≤ bs.length) :
    (s.withBytes bs).ethFinalize et d m = .ok (s.withBytes (macBytes d ++ macBytes m ++ halfBytes et ++ bs.drop 14)) := by
  obtain ⟨a, b, c, r, e, ha, hb, hc, hr⟩ := eth_pieces h
  have s1 : splice (a ++ (b ++ (c ++ r))) 12 (halfBytes et) = a ++ (b ++ (halfBytes et ++ r)) := by
    have := splice_append (a := a ++ b) (b := c) (c := r) (w := halfBytes et) (o := 12) (by simp [ha, hb]) (by simp [hc])
    simpa [List.append_assoc] using this
  have s2 : splice (a ++ (b ++ (halfBytes et ++ r))) 0 (macBytes d) = macBytes d ++ (b ++ (halfBytes et ++ r)) :=
    splice_append (a := []) rfl (by simp [ha])
  have s3 : splice (macBytes d ++ (b ++ (halfBytes et ++ r))) 6 (macBytes m) = macBytes d ++ (macBytes m ++ (halfBytes et ++ r)) :=
    splice_append (by simp) (by simp [hb])
  rw [hr, State.ethFinalize, State.writeHalf_withBytes s et (by omega), ok_bind, e, s1,
    State.writeMac_withBytes s d (by simp; omega), ok_bind, s2, State.writeMac_withBytes s m (by simp; omega), s3]
  simp [List.append_assoc]

/-- R170 on a loaded frame. -/
theorem State.send_withBytes (s : State) {bs : List Byte} (et : Half) {n : Nat} (d : MacAddr) (h : n + 14 ≤ bs.length) :
    (s.withBytes bs).send et n d =
      .ok ((s.emit (macBytes d ++ macBytes s.cfg.devMac ++ halfBytes et ++ (bs.drop 14).take n)).withBytes
        (macBytes d ++ macBytes s.cfg.devMac ++ halfBytes et ++ bs.drop 14)) := by
  have hl : (macBytes d ++ macBytes s.cfg.devMac ++ halfBytes et ++ bs.drop 14).length = bs.length := by simp; omega
  rw [State.send, State.withBytes_cfg, State.ethFinalize_withBytes s et d _ (by omega), ok_bind, State.readBytes_withBytes s (by omega),
    ok_bind, State.emit_withBytes]
  have hp : ((macBytes d ++ macBytes s.cfg.devMac ++ halfBytes et ++ bs.drop 14).drop 0).take (n + 14) =
      macBytes d ++ macBytes s.cfg.devMac ++ halfBytes et ++ (bs.drop 14).take n := by
    rw [List.drop_zero, List.take_append, List.take_of_length_le (by simp)]
    simp
  rw [hp]

end Sys2Proof.Machine
end

