-- ==== Sys2Proof/Laws/Cycle.lean ====
section
/-! SUPPORT. Everything one step can do: the four ways in which `step` answers a next state, which proofs about a step cite instead of unfolding the
cycle; and what an observed run can hold (R188). -/
namespace Sys2Proof.Machine

theorem endFrame_eq_next {r : Result} {t : State} : endFrame r = .next t ↔ ∃ u, r = .next u ∧ t = u.discardFrame := by
  cases r <;> simp [endFrame, eq_comm]

theorem State.frameStep_eq_next {s t : State} {bytes : List Byte} :
    s.frameStep bytes = .next t ↔
      bytes.length ≤ s.cfg.frameBufferBytes ∧ ∃ u, exec (decode bytes) (s.loadFrame bytes) = .next u ∧ t = u.discardFrame := by
  unfold State.frameStep
  split <;> simp_all [endFrame_eq_next]

/-- A step that answers a next state is a reset, one of the two halts, or a frame that fits the buffer and completes as its class. -/
theorem step_cases {s t : State} (h : step s = .next t) :
    (∃ rest, s.inputs = .reset :: rest ∧ t = State.applyReset { s with inputs := rest }) ∨
    (s.phase = .idle ∧ ∃ v rest, s.inputs = .event .readFailed v :: rest ∧ t = (s.take rest v).halt .readFailed) ∨
    (s.phase = .idle ∧ ∃ v rest, s.inputs = .event .sourceClosed v :: rest ∧ t = (s.take rest v).halt .sourceClosed) ∨
    (s.phase = .idle ∧ ∃ bytes v rest u, s.inputs = .event (.frame bytes) v :: rest ∧
      bytes.length ≤ s.cfg.frameBufferBytes ∧
      exec (decode bytes) ((s.take rest v).loadFrame bytes) = .next u ∧ t = u.discardFrame) := by
  unfold step State.transition at h
  split at h
  · cases h
  · next rest hin =>
    cases h
    exact .inl ⟨rest, hin, rfl⟩
  · next e v rest hin =>
    split at h
    · cases h
    · next hp =>
      cases e with
      | readFailed =>
        cases h
        exact .inr (.inl ⟨hp, v, rest, hin, rfl⟩)
      | sourceClosed =>
        cases h
        exact .inr (.inr (.inl ⟨hp, v, rest, hin, rfl⟩))
      | frame bytes =>
        obtain ⟨hfit, u, hu, rfl⟩ := State.frameStep_eq_next.mp h
        exact .inr (.inr (.inr ⟨hp, bytes, v, rest, u, hin, hfit, hu, rfl⟩))

/-- A run that is over shows nothing more, whatever the outside does next. -/
theorem observations_over {s : State} (n : Nat) (h : s.runOver = true) : observations n s = [] := by
  cases n <;> simp [observations, h]

/-- A reset belongs to no run: the run before it shows nothing more. -/
theorem observations_reset {s : State} (n : Nat) {rest : List Stimulus} (h : s.inputs = .reset :: rest) : observations n s = [] := by
  cases n <;> simp [observations, h]

/-- A step of a run shows its event and what the block put on its ports, and the run goes on from the state it leaves. -/
theorem observations_event {s t : State} (n : Nat) {e : HostEvent} {v : Verdict} {rest : List Stimulus} (hp : s.phase = .idle)
    (hi : s.inputs = .event e v :: rest) (hs : step s = .next t) : observations (n + 1) s = observe e t :: observations n t := by
  simp [observations, State.runOver, hp, hi, hs]

end Sys2Proof.Machine
end

