-- ==== Sys2Proof/Laws/Formats.lean ====
section
/-! SUPPORT. Each header of the wire formats: its length, and reading and writing it undo each other. -/
namespace Sys2Proof

@[simp] theorem EthHeader.length_bytes (h : EthHeader) : h.bytes.length = 14 := by simp [EthHeader.bytes]
@[simp] theorem ArpHeader.length_bytes (h : ArpHeader) : h.bytes.length = 8 := by simp [ArpHeader.bytes]
@[simp] theorem ArpBody.length_bytes (b : ArpBody) : b.bytes.length = 20 := by simp [ArpBody.bytes]
@[simp] theorem IpHeader.length_bytes (h : IpHeader) : h.bytes.length = 20 := by simp [IpHeader.bytes]
@[simp] theorem IcmpHeader.length_bytes (h : IcmpHeader) : h.bytes.length = 4 := by simp [IcmpHeader.bytes]

theorem append_parts (m n : Nat) (x : BitVec (m + n)) : x.extractLsb' n m ++ x.extractLsb' 0 n = x := by
  apply BitVec.eq_of_getLsbD_eq
  intro i hi
  rw [BitVec.getLsbD_append]
  split
  · next h => simp [h]
  · next h => rw [BitVec.getLsbD_extractLsb', decide_eq_true (by omega), Bool.true_and, Nat.add_sub_cancel' (by omega)]

theorem high_part (m n : Nat) (a : BitVec m) (b : BitVec n) : (a ++ b).extractLsb' n m = a := by
  apply BitVec.eq_of_getLsbD_eq
  intro i hi
  rw [BitVec.getLsbD_extractLsb', BitVec.getLsbD_append, if_neg (by omega)]
  simp [hi]

theorem low_part (m n : Nat) (a : BitVec m) (b : BitVec n) : (a ++ b).extractLsb' 0 n = b := by
  apply BitVec.eq_of_getLsbD_eq
  intro i hi
  rw [BitVec.getLsbD_extractLsb', BitVec.getLsbD_append, if_pos (by omega)]
  simp [hi]

theorem nibbles_split (b : Byte) : b.extractLsb' 4 4 ++ b.extractLsb' 0 4 = b := append_parts 4 4 b

theorem high_nibble (a b : BitVec 4) : BitVec.extractLsb' 4 4 (a ++ b : Byte) = a := high_part 4 4 a b

theorem low_nibble (a b : BitVec 4) : BitVec.extractLsb' 0 4 (a ++ b : Byte) = b := low_part 4 4 a b

theorem flags_split (h : Half) : h.extractLsb' 13 3 ++ h.extractLsb' 0 13 = h := append_parts 3 13 h

theorem flags_part (a : BitVec 3) (b : BitVec 13) : BitVec.extractLsb' 13 3 (a ++ b : Half) = a := high_part 3 13 a b

theorem fragOff_part (a : BitVec 3) (b : BitVec 13) : BitVec.extractLsb' 0 13 (a ++ b : Half) = b := low_part 3 13 a b

theorem cons_byteAt {p : List Byte} {o : Nat} (h : o < p.length) (rest : List Byte) :
    byteAt p o :: rest = (p.drop o).take 1 ++ rest := by
  rw [byteAt_eq h, List.drop_eq_getElem_cons h, List.take_succ_cons, List.take_zero]
  rfl

@[simp] theorem EthHeader.parse_bytes (h : EthHeader) (p : List Byte) : EthHeader.parse (h.bytes ++ p) = h := by
  simp [EthHeader.parse, EthHeader.bytes, List.append_assoc, macAt_append, be16At_append]

@[simp] theorem ArpHeader.parse_bytes (h : ArpHeader) (p : List Byte) : ArpHeader.parse (h.bytes ++ p) = h := by
  simp [ArpHeader.parse, ArpHeader.bytes, List.append_assoc, byteAt_append, be16At_append, be16At_cons_two]
where
  be16At_cons_two (a b : Byte) (rest : List Byte) (k : Nat) : be16At (a :: b :: rest) (k + 2) = be16At rest k :=
    be16At_append (pre := [a, b]) (by simp) rest

@[simp] theorem ArpBody.parse_bytes (b : ArpBody) (p : List Byte) : ArpBody.parse (b.bytes ++ p) = b := by
  simp [ArpBody.parse, ArpBody.bytes, List.append_assoc, macAt_append, be32At_append]

@[simp] theorem IpHeader.parse_bytes (h : IpHeader) (p : List Byte) : IpHeader.parse (h.bytes ++ p) = h := by
  have e : h.bytes ++ p = [h.ver ++ h.ihl, h.tos] ++ (halfBytes h.tl ++ (halfBytes h.ident ++ (halfBytes (h.flags ++ h.fragOff) ++
      ([h.ttl, h.proto] ++ (halfBytes h.hcsum ++ (ipBytes h.src ++ (ipBytes h.dst ++ p))))))) := by
    simp [IpHeader.bytes, List.append_assoc]
  rw [e]
  have h0 : ∀ (a b : Byte) (r : List Byte), byteAt ([a, b] ++ r) 0 = a := fun _ _ _ => byteAt_cons_zero _ _
  have h1 : ∀ (a b : Byte) (r : List Byte), byteAt ([a, b] ++ r) 1 = b := fun _ _ _ => byteAt_cons_one _ _ _
  simp only [IpHeader.parse, h0, h1, be16At_append, be32At_append, byteAt_append, List.length_cons, List.length_nil, length_halfBytes,
    length_ipBytes, Nat.reduceAdd, Nat.reduceSub, Nat.reduceLeDiff, zero_add, be16At_halfBytes, be32At_ipBytes, high_nibble, low_nibble,
    flags_part, fragOff_part, le_refl, tsub_self]

@[simp] theorem IcmpHeader.parse_bytes (m : IcmpHeader) (p : List Byte) : IcmpHeader.parse (m.bytes ++ p) = m := by
  have h2 : be16At ([m.icmpType, m.code] ++ (halfBytes m.csum ++ p)) 2 = m.csum := by
    rw [be16At_append (by simp)]; simp
  simp only [List.cons_append, List.nil_append] at h2
  simp [IcmpHeader.parse, IcmpHeader.bytes, h2]

/-- Two adjoining pieces of a byte string. -/
theorem take_append_piece (p : List Byte) (m n : Nat) : p.take m ++ (p.drop m).take n = p.take (m + n) := (List.take_add).symm

theorem EthHeader.bytes_parse {p : List Byte} (h : 14 ≤ p.length) : (EthHeader.parse p).bytes = p.take 14 := by
  simp only [EthHeader.parse, EthHeader.bytes]
  rw [macBytes_macAt (by omega), macBytes_macAt (by omega), halfBytes_be16At (by omega), List.drop_zero]
  simp only [take_append_piece]

theorem ArpHeader.bytes_parse {p : List Byte} (h : 8 ≤ p.length) : (ArpHeader.parse p).bytes = p.take 8 := by
  simp only [ArpHeader.parse, ArpHeader.bytes]
  rw [halfBytes_be16At (by omega), halfBytes_be16At (by omega), halfBytes_be16At (by omega), cons_byteAt (by omega), cons_byteAt (by omega),
    List.drop_zero, List.append_nil]
  simp only [← List.append_assoc, take_append_piece]

theorem ArpBody.bytes_parse {p : List Byte} (h : 20 ≤ p.length) : (ArpBody.parse p).bytes = p.take 20 := by
  simp only [ArpBody.parse, ArpBody.bytes]
  rw [macBytes_macAt (by omega), macBytes_macAt (by omega), ipBytes_be32At (by omega), ipBytes_be32At (by omega), List.drop_zero]
  simp only [take_append_piece]

theorem IpHeader.bytes_parse {p : List Byte} (h : 20 ≤ p.length) : (IpHeader.parse p).bytes = p.take 20 := by
  simp only [IpHeader.parse, IpHeader.bytes, nibbles_split, flags_split]
  rw [halfBytes_be16At (by omega), halfBytes_be16At (by omega), halfBytes_be16At (by omega), halfBytes_be16At (by omega),
    ipBytes_be32At (by omega), ipBytes_be32At (by omega), cons_byteAt (by omega), cons_byteAt (by omega), cons_byteAt (by omega),
    cons_byteAt (by omega), List.drop_zero, List.append_nil, List.append_nil]
  simp only [← List.append_assoc, take_append_piece, Nat.reduceAdd]

theorem IcmpHeader.bytes_parse {p : List Byte} (h : 4 ≤ p.length) : (IcmpHeader.parse p).bytes = p.take 4 := by
  simp only [IcmpHeader.parse, IcmpHeader.bytes]
  rw [halfBytes_be16At (by omega), cons_byteAt (by omega), cons_byteAt (by omega), List.drop_zero, List.append_nil]
  simp only [take_append_piece]

end Sys2Proof
end

