-- ==== Sys2Proof/Laws/PerInstr.lean ====
section
/-! SUPPORT. Per instruction: how long the frame of a well-formed instruction is (R71 to R76). -/
namespace Sys2Proof

/-- The length of the frame that the instruction stands for, from its operands: 14 bytes of Ethernet header, 8 and 20 of ARP, 20 of IPv4, and, where a
whole datagram is there, `TL` bytes after the Ethernet header. -/
def Laws.encodeLength.frameLength : Instr → Nat
  | .ethRunt bytes => bytes.length
  | .ethOther _ payload => 14 + payload.length
  | .arpRunt _ payload => 14 + payload.length
  | .arpBadHtype _ _ rest => 22 + rest.length
  | .arpBadPtype _ _ rest => 22 + rest.length
  | .arpShortBody _ _ rest => 22 + rest.length
  | .arpRequest _ _ _ trailer => 42 + trailer.length
  | .arpReplyIn _ _ _ trailer => 42 + trailer.length
  | .arpOpcodeOther _ _ _ trailer => 42 + trailer.length
  | .ipRunt _ payload => 14 + payload.length
  | .ipBadVersion _ _ rest => 34 + rest.length
  | .ipBadIhl _ _ rest => 34 + rest.length
  | .ipTtlZero _ _ rest => 34 + rest.length
  | .ipHdrOverrun _ _ rest => 34 + rest.length
  | .ipBadChecksum _ _ rest => 34 + rest.length
  | .ipBadTotalLength _ _ rest => 34 + rest.length
  | .ipNotIcmp _ _ rest => 34 + rest.length
  | .icmpRunt _ _ rest => 34 + rest.length
  | .icmpEchoRequest _ ip _ _ _ trailer => 14 + ip.tl.toNat + trailer.length
  | .icmpOtherType _ ip _ _ _ trailer => 14 + ip.tl.toNat + trailer.length

/-- A well-formed instruction is encoded in as many bytes as its operands say. -/
def Laws.encodeLength.Statement (i : Instr) : Prop := i.wellFormed = true → (encode i).length = frameLength i

theorem Laws.encodeLength.ethRunt (bytes : List Byte) :
    Statement (.ethRunt bytes) := by
  intro _
  simp [encode, frameLength]

theorem Laws.encodeLength.ethOther (eth : EthHeader) (payload : List Byte) :
    Statement (.ethOther eth payload) := by
  intro _
  simp [encode, frameLength]

theorem Laws.encodeLength.arpRunt (eth : EthHeader) (payload : List Byte) :
    Statement (.arpRunt eth payload) := by
  intro _
  simp [encode, frameLength]

theorem Laws.encodeLength.arpBadHtype (eth : EthHeader) (arp : ArpHeader) (rest : List Byte) :
    Statement (.arpBadHtype eth arp rest) := by
  intro _
  simp [encode, frameLength]
  omega

theorem Laws.encodeLength.arpBadPtype (eth : EthHeader) (arp : ArpHeader) (rest : List Byte) :
    Statement (.arpBadPtype eth arp rest) := by
  intro _
  simp [encode, frameLength]
  omega

theorem Laws.encodeLength.arpShortBody (eth : EthHeader) (arp : ArpHeader) (rest : List Byte) :
    Statement (.arpShortBody eth arp rest) := by
  intro _
  simp [encode, frameLength]
  omega

theorem Laws.encodeLength.arpRequest (eth : EthHeader) (arp : ArpHeader) (body : ArpBody) (trailer : List Byte) :
    Statement (.arpRequest eth arp body trailer) := by
  intro _
  simp [encode, frameLength]
  omega

theorem Laws.encodeLength.arpReplyIn (eth : EthHeader) (arp : ArpHeader) (body : ArpBody) (trailer : List Byte) :
    Statement (.arpReplyIn eth arp body trailer) := by
  intro _
  simp [encode, frameLength]
  omega

theorem Laws.encodeLength.arpOpcodeOther (eth : EthHeader) (arp : ArpHeader) (body : ArpBody) (trailer : List Byte) :
    Statement (.arpOpcodeOther eth arp body trailer) := by
  intro _
  simp [encode, frameLength]
  omega

theorem Laws.encodeLength.ipRunt (eth : EthHeader) (payload : List Byte) :
    Statement (.ipRunt eth payload) := by
  intro _
  simp [encode, frameLength]

theorem Laws.encodeLength.ipBadVersion (eth : EthHeader) (ip : IpHeader) (rest : List Byte) :
    Statement (.ipBadVersion eth ip rest) := by
  intro _
  simp [encode, frameLength]
  omega

theorem Laws.encodeLength.ipBadIhl (eth : EthHeader) (ip : IpHeader) (rest : List Byte) :
    Statement (.ipBadIhl eth ip rest) := by
  intro _
  simp [encode, frameLength]
  omega

theorem Laws.encodeLength.ipTtlZero (eth : EthHeader) (ip : IpHeader) (rest : List Byte) :
    Statement (.ipTtlZero eth ip rest) := by
  intro _
  simp [encode, frameLength]
  omega

theorem Laws.encodeLength.ipHdrOverrun (eth : EthHeader) (ip : IpHeader) (rest : List Byte) :
    Statement (.ipHdrOverrun eth ip rest) := by
  intro _
  simp [encode, frameLength]
  omega

theorem Laws.encodeLength.ipBadChecksum (eth : EthHeader) (ip : IpHeader) (rest : List Byte) :
    Statement (.ipBadChecksum eth ip rest) := by
  intro _
  simp [encode, frameLength]
  omega

theorem Laws.encodeLength.ipBadTotalLength (eth : EthHeader) (ip : IpHeader) (rest : List Byte) :
    Statement (.ipBadTotalLength eth ip rest) := by
  intro _
  simp [encode, frameLength]
  omega

theorem Laws.encodeLength.ipNotIcmp (eth : EthHeader) (ip : IpHeader) (rest : List Byte) :
    Statement (.ipNotIcmp eth ip rest) := by
  intro _
  simp [encode, frameLength]
  omega

theorem Laws.encodeLength.icmpRunt (eth : EthHeader) (ip : IpHeader) (rest : List Byte) :
    Statement (.icmpRunt eth ip rest) := by
  intro _
  simp [encode, frameLength]
  omega

theorem Laws.encodeLength.icmpEchoRequest (eth : EthHeader) (ip : IpHeader) (options : List Byte) (icmp : IcmpHeader) (data : List Byte) (trailer : List Byte) :
    Statement (.icmpEchoRequest eth ip options icmp data trailer) := by
  intro h
  simp only [Instr.wellFormed, icmpValid, Bool.and_eq_true, decide_eq_true_eq] at h
  simp [encode, frameLength]
  omega

theorem Laws.encodeLength.icmpOtherType (eth : EthHeader) (ip : IpHeader) (options : List Byte) (icmp : IcmpHeader) (data : List Byte) (trailer : List Byte) :
    Statement (.icmpOtherType eth ip options icmp data trailer) := by
  intro h
  simp only [Instr.wellFormed, icmpValid, Bool.and_eq_true, decide_eq_true_eq] at h
  simp [encode, frameLength]
  omega

end Sys2Proof
end

