-- ==== Sys2Proof/Tests/Slice0.lean ====
section
/-! SUPPORT. Tests of the model on the vectors of 95_test_vectors.md: decoding of one frame per class, one or two steps per class, the refusals of
WellFormed, the refusals of the step, and, for each statement with hypotheses, a witness that meets them. -/
namespace Sys2Proof.Tests
open Sys2Proof Sys2Proof.Machine

/-! ### Frames of 95_test_vectors.md, one per class, and the instructions that they are by R71 to R74 -/

/-- V-ETH-1. -/
def ethRuntFrame : List Byte :=
  [0x02, 0x00, 0x00, 0x00, 0x00, 0x04, 0xaa, 0xbb, 0xcc, 0xdd, 0xee, 0xff, 0x08]

def ethRuntInstr : Instr :=
  .ethRunt [0x02, 0x00, 0x00, 0x00, 0x00, 0x04, 0xaa, 0xbb, 0xcc, 0xdd, 0xee, 0xff, 0x08]

/-- V-ETH-9. -/
def ethOtherFrame : List Byte :=
  [0xaa, 0xbb, 0xcc, 0xdd, 0xee, 0xff, 0x02, 0x00, 0x00, 0x00, 0x00, 0x04, 0x88, 0xcc]

def ethOtherInstr : Instr :=
  .ethOther ⟨0xaabbccddeeff, 0x020000000004, 0x88cc⟩
    []

/-- V-ARP-8. -/
def arpRuntFrame : List Byte :=
  [0xff, 0xff, 0xff, 0xff, 0xff, 0xff, 0xaa, 0xbb, 0xcc, 0xdd, 0xee, 0xff, 0x08, 0x06, 0x00, 0x01, 0x08, 0x00, 0x06, 0x04, 0x00]

def arpRuntInstr : Instr :=
  .arpRunt ⟨0xffffffffffff, 0xaabbccddeeff, 0x0806⟩
    [0x00, 0x01, 0x08, 0x00, 0x06, 0x04, 0x00]

/-- V-ARP-6. -/
def arpBadHtypeFrame : List Byte :=
  [0xff, 0xff, 0xff, 0xff, 0xff, 0xff, 0xaa, 0xbb, 0xcc, 0xdd, 0xee, 0xff, 0x08, 0x06, 0x00, 0x06, 0x08, 0x00, 0x06, 0x04, 0x00, 0x01,
    0xaa, 0xbb, 0xcc, 0xdd, 0xee, 0xff, 0x0a, 0x00, 0x00, 0x05, 0x00, 0x00, 0x00, 0x00, 0x00, 0x00, 0x0a, 0x00, 0x00, 0x04]

def arpBadHtypeInstr : Instr :=
  .arpBadHtype ⟨0xffffffffffff, 0xaabbccddeeff, 0x0806⟩ ⟨0x0006, 0x0800, 6, 4, 0x0001⟩
    [0xaa, 0xbb, 0xcc, 0xdd, 0xee, 0xff, 0x0a, 0x00, 0x00, 0x05, 0x00, 0x00, 0x00, 0x00, 0x00, 0x00, 0x0a, 0x00, 0x00, 0x04]

/-- V-ARP-7. -/
def arpBadPtypeFrame : List Byte :=
  [0xff, 0xff, 0xff, 0xff, 0xff, 0xff, 0xaa, 0xbb, 0xcc, 0xdd, 0xee, 0xff, 0x08, 0x06, 0x00, 0x01, 0x86, 0xdd, 0x06, 0x04, 0x00, 0x01,
    0xaa, 0xbb, 0xcc, 0xdd, 0xee, 0xff, 0x0a, 0x00, 0x00, 0x05, 0x00, 0x00, 0x00, 0x00, 0x00, 0x00, 0x0a, 0x00, 0x00, 0x04]

def arpBadPtypeInstr : Instr :=
  .arpBadPtype ⟨0xffffffffffff, 0xaabbccddeeff, 0x0806⟩ ⟨0x0001, 0x86dd, 6, 4, 0x0001⟩
    [0xaa, 0xbb, 0xcc, 0xdd, 0xee, 0xff, 0x0a, 0x00, 0x00, 0x05, 0x00, 0x00, 0x00, 0x00, 0x00, 0x00, 0x0a, 0x00, 0x00, 0x04]

/-- V-ARP-9. -/
def arpShortBodyFrame : List Byte :=
  [0xff, 0xff, 0xff, 0xff, 0xff, 0xff, 0xaa, 0xbb, 0xcc, 0xdd, 0xee, 0xff, 0x08, 0x06, 0x00, 0x01, 0x08, 0x00, 0x06, 0x04, 0x00, 0x01,
    0xaa, 0xbb, 0xcc, 0xdd, 0xee, 0xff, 0x0a, 0x00, 0x00, 0x05, 0x00, 0x00, 0x00, 0x00, 0x00, 0x00, 0x0a, 0x00, 0x00]

def arpShortBodyInstr : Instr :=
  .arpShortBody ⟨0xffffffffffff, 0xaabbccddeeff, 0x0806⟩ ⟨0x0001, 0x0800, 6, 4, 0x0001⟩
    [0xaa, 0xbb, 0xcc, 0xdd, 0xee, 0xff, 0x0a, 0x00, 0x00, 0x05, 0x00, 0x00, 0x00, 0x00, 0x00, 0x00, 0x0a, 0x00, 0x00]

/-- V-ARP-1. -/
def arpRequestFrame : List Byte :=
  [0xff, 0xff, 0xff, 0xff, 0xff, 0xff, 0xaa, 0xbb, 0xcc, 0xdd, 0xee, 0xff, 0x08, 0x06, 0x00, 0x01, 0x08, 0x00, 0x06, 0x04, 0x00, 0x01,
    0xaa, 0xbb, 0xcc, 0xdd, 0xee, 0xff, 0x0a, 0x00, 0x00, 0x05, 0x00, 0x00, 0x00, 0x00, 0x00, 0x00, 0x0a, 0x00, 0x00, 0x04]

def arpRequestInstr : Instr :=
  .arpRequest ⟨0xffffffffffff, 0xaabbccddeeff, 0x0806⟩ ⟨0x0001, 0x0800, 6, 4, 0x0001⟩
    ⟨0xaabbccddeeff, 0x0a000005, 0x000000000000, 0x0a000004⟩ []

/-- V-ARP-5. -/
def arpReplyInFrame : List Byte :=
  [0x02, 0x00, 0x00, 0x00, 0x00, 0x04, 0x11, 0x22, 0x33, 0x44, 0x55, 0x66, 0x08, 0x06, 0x00, 0x01, 0x08, 0x00, 0x06, 0x04, 0x00, 0x02,
    0x11, 0x22, 0x33, 0x44, 0x55, 0x66, 0x0a, 0x00, 0x00, 0x07, 0x02, 0x00, 0x00, 0x00, 0x00, 0x04, 0x0a, 0x00, 0x00, 0x04]

def arpReplyInInstr : Instr :=
  .arpReplyIn ⟨0x020000000004, 0x112233445566, 0x0806⟩ ⟨0x0001, 0x0800, 6, 4, 0x0002⟩
    ⟨0x112233445566, 0x0a000007, 0x020000000004, 0x0a000004⟩ []

/-- V-ARP-10. -/
def arpOpcodeOtherFrame : List Byte :=
  [0xff, 0xff, 0xff, 0xff, 0xff, 0xff, 0xaa, 0xbb, 0xcc, 0xdd, 0xee, 0xff, 0x08, 0x06, 0x00, 0x01, 0x08, 0x00, 0x06, 0x04, 0x00, 0x03,
    0xaa, 0xbb, 0xcc, 0xdd, 0xee, 0xff, 0x0a, 0x00, 0x00, 0x05, 0x00, 0x00, 0x00, 0x00, 0x00, 0x00, 0x0a, 0x00, 0x00, 0x04]

def arpOpcodeOtherInstr : Instr :=
  .arpOpcodeOther ⟨0xffffffffffff, 0xaabbccddeeff, 0x0806⟩ ⟨0x0001, 0x0800, 6, 4, 0x0003⟩
    ⟨0xaabbccddeeff, 0x0a000005, 0x000000000000, 0x0a000004⟩ []

/-- V-IP-1. -/
def ipRuntFrame : List Byte :=
  [0x02, 0x00, 0x00, 0x00, 0x00, 0x04, 0xaa, 0xbb, 0xcc, 0xdd, 0xee, 0xff, 0x08, 0x00, 0x45, 0x00, 0x00, 0x20, 0x1c, 0x46, 0x40, 0x00,
    0x40, 0x01, 0x0a, 0x8f, 0x0a, 0x00, 0x00, 0x05, 0x0a, 0x00, 0x00]

def ipRuntInstr : Instr :=
  .ipRunt ⟨0x020000000004, 0xaabbccddeeff, 0x0800⟩
    [0x45, 0x00, 0x00, 0x20, 0x1c, 0x46, 0x40, 0x00, 0x40, 0x01, 0x0a, 0x8f, 0x0a, 0x00, 0x00, 0x05, 0x0a, 0x00, 0x00]

/-- V-IP-2. -/
def ipBadVersionFrame : List Byte :=
  [0x02, 0x00, 0x00, 0x00, 0x00, 0x04, 0xaa, 0xbb, 0xcc, 0xdd, 0xee, 0xff, 0x08, 0x00, 0x65, 0x00, 0x00, 0x20, 0x1c, 0x46, 0x40, 0x00,
    0x40, 0x01, 0xea, 0x8e, 0x0a, 0x00, 0x00, 0x05, 0x0a, 0x00, 0x00, 0x04, 0x08, 0x00, 0x21, 0x04, 0x12, 0x34, 0x00, 0x01, 0x61, 0x62,
    0x63, 0x64]

def ipBadVersionInstr : Instr :=
  .ipBadVersion ⟨0x020000000004, 0xaabbccddeeff, 0x0800⟩
    ⟨6, 5, 0, 0x0020, 0x1c46, 2, 0, 64, 1, 0xea8e, 0x0a000005, 0x0a000004⟩
    [0x08, 0x00, 0x21, 0x04, 0x12, 0x34, 0x00, 0x01, 0x61, 0x62, 0x63, 0x64]

/-- V-IP-3. -/
def ipBadIhlFrame : List Byte :=
  [0x02, 0x00, 0x00, 0x00, 0x00, 0x04, 0xaa, 0xbb, 0xcc, 0xdd, 0xee, 0xff, 0x08, 0x00, 0x44, 0x00, 0x00, 0x20, 0x1c, 0x46, 0x40, 0x00,
    0x40, 0x01, 0x0b, 0x8f, 0x0a, 0x00, 0x00, 0x05, 0x0a, 0x00, 0x00, 0x04, 0x08, 0x00, 0x21, 0x04, 0x12, 0x34, 0x00, 0x01, 0x61, 0x62,
    0x63, 0x64]

def ipBadIhlInstr : Instr :=
  .ipBadIhl ⟨0x020000000004, 0xaabbccddeeff, 0x0800⟩
    ⟨4, 4, 0, 0x0020, 0x1c46, 2, 0, 64, 1, 0x0b8f, 0x0a000005, 0x0a000004⟩
    [0x08, 0x00, 0x21, 0x04, 0x12, 0x34, 0x00, 0x01, 0x61, 0x62, 0x63, 0x64]

/-- V-IP-4. -/
def ipTtlZeroFrame : List Byte :=
  [0x02, 0x00, 0x00, 0x00, 0x00, 0x04, 0xaa, 0xbb, 0xcc, 0xdd, 0xee, 0xff, 0x08, 0x00, 0x45, 0x00, 0x00, 0x1c, 0x1c, 0x46, 0x40, 0x00,
    0x00, 0x01, 0x4a, 0x93, 0x0a, 0x00, 0x00, 0x05, 0x0a, 0x00, 0x00, 0x04, 0x08, 0x00, 0x21, 0x04, 0x12, 0x34, 0x00, 0x01, 0x61, 0x62,
    0x63, 0x64]

def ipTtlZeroInstr : Instr :=
  .ipTtlZero ⟨0x020000000004, 0xaabbccddeeff, 0x0800⟩
    ⟨4, 5, 0, 0x001c, 0x1c46, 2, 0, 0, 1, 0x4a93, 0x0a000005, 0x0a000004⟩
    [0x08, 0x00, 0x21, 0x04, 0x12, 0x34, 0x00, 0x01, 0x61, 0x62, 0x63, 0x64]

/-- V-IP-12. -/
def ipHdrOverrunFrame : List Byte :=
  [0x02, 0x00, 0x00, 0x00, 0x00, 0x04, 0xaa, 0xbb, 0xcc, 0xdd, 0xee, 0xff, 0x08, 0x00, 0x4f, 0x00, 0x00, 0x20, 0x1c, 0x46, 0x40, 0x00,
    0x40, 0x01, 0x00, 0x8f, 0x0a, 0x00, 0x00, 0x05, 0x0a, 0x00, 0x00, 0x04, 0x08, 0x00, 0x21, 0x04, 0x12, 0x34, 0x00, 0x01, 0x61, 0x62,
    0x63, 0x64, 0x00, 0x00, 0x00, 0x00, 0x00, 0x00, 0x00, 0x00]

def ipHdrOverrunInstr : Instr :=
  .ipHdrOverrun ⟨0x020000000004, 0xaabbccddeeff, 0x0800⟩
    ⟨4, 15, 0, 0x0020, 0x1c46, 2, 0, 64, 1, 0x008f, 0x0a000005, 0x0a000004⟩
    [0x08, 0x00, 0x21, 0x04, 0x12, 0x34, 0x00, 0x01, 0x61, 0x62, 0x63, 0x64, 0x00, 0x00, 0x00, 0x00, 0x00, 0x00, 0x00, 0x00]

/-- V-IP-5. -/
def ipBadChecksumFrame : List Byte :=
  [0x02, 0x00, 0x00, 0x00, 0x00, 0x04, 0xaa, 0xbb, 0xcc, 0xdd, 0xee, 0xff, 0x08, 0x00, 0x45, 0x00, 0x00, 0x20, 0x1c, 0x46, 0x40, 0x00,
    0x40, 0x01, 0x0b, 0x8f, 0x0a, 0x00, 0x00, 0x05, 0x0a, 0x00, 0x00, 0x04, 0x08, 0x00, 0x21, 0x04, 0x12, 0x34, 0x00, 0x01, 0x61, 0x62,
    0x63, 0x64]

def ipBadChecksumInstr : Instr :=
  .ipBadChecksum ⟨0x020000000004, 0xaabbccddeeff, 0x0800⟩
    ⟨4, 5, 0, 0x0020, 0x1c46, 2, 0, 64, 1, 0x0b8f, 0x0a000005, 0x0a000004⟩
    [0x08, 0x00, 0x21, 0x04, 0x12, 0x34, 0x00, 0x01, 0x61, 0x62, 0x63, 0x64]

/-- V-IP-7. -/
def ipBadTotalLengthFrame : List Byte :=
  [0x02, 0x00, 0x00, 0x00, 0x00, 0x04, 0xaa, 0xbb, 0xcc, 0xdd, 0xee, 0xff, 0x08, 0x00, 0x45, 0x00, 0x00, 0xc8, 0x1c, 0x46, 0x40, 0x00,
    0x40, 0x01, 0x09, 0xe7, 0x0a, 0x00, 0x00, 0x05, 0x0a, 0x00, 0x00, 0x04, 0x08, 0x00, 0x21, 0x04, 0x12, 0x34, 0x00, 0x01, 0x61, 0x62,
    0x63, 0x64]

def ipBadTotalLengthInstr : Instr :=
  .ipBadTotalLength ⟨0x020000000004, 0xaabbccddeeff, 0x0800⟩
    ⟨4, 5, 0, 0x00c8, 0x1c46, 2, 0, 64, 1, 0x09e7, 0x0a000005, 0x0a000004⟩
    [0x08, 0x00, 0x21, 0x04, 0x12, 0x34, 0x00, 0x01, 0x61, 0x62, 0x63, 0x64]

/-- V-IP-6. -/
def ipNotIcmpFrame : List Byte :=
  [0x02, 0x00, 0x00, 0x00, 0x00, 0x04, 0xaa, 0xbb, 0xcc, 0xdd, 0xee, 0xff, 0x08, 0x00, 0x45, 0x00, 0x00, 0x1c, 0x1c, 0x46, 0x40, 0x00,
    0x40, 0x11, 0x0a, 0x83, 0x0a, 0x00, 0x00, 0x05, 0x0a, 0x00, 0x00, 0x04, 0x00, 0x00, 0x00, 0x00, 0x00, 0x00, 0x00, 0x00]

def ipNotIcmpInstr : Instr :=
  .ipNotIcmp ⟨0x020000000004, 0xaabbccddeeff, 0x0800⟩
    ⟨4, 5, 0, 0x001c, 0x1c46, 2, 0, 64, 17, 0x0a83, 0x0a000005, 0x0a000004⟩
    [0x00, 0x00, 0x00, 0x00, 0x00, 0x00, 0x00, 0x00]

/-- V-IP-8. -/
def icmpRuntFrame : List Byte :=
  [0x02, 0x00, 0x00, 0x00, 0x00, 0x04, 0xaa, 0xbb, 0xcc, 0xdd, 0xee, 0xff, 0x08, 0x00, 0x45, 0x00, 0x00, 0x16, 0x1c, 0x46, 0x40, 0x00,
    0x40, 0x01, 0x0a, 0x99, 0x0a, 0x00, 0x00, 0x05, 0x0a, 0x00, 0x00, 0x04, 0x08, 0x00, 0x21, 0x04, 0x12, 0x34, 0x00, 0x01, 0x61, 0x62,
    0x63, 0x64]

def icmpRuntInstr : Instr :=
  .icmpRunt ⟨0x020000000004, 0xaabbccddeeff, 0x0800⟩
    ⟨4, 5, 0, 0x0016, 0x1c46, 2, 0, 64, 1, 0x0a99, 0x0a000005, 0x0a000004⟩
    [0x08, 0x00, 0x21, 0x04, 0x12, 0x34, 0x00, 0x01, 0x61, 0x62, 0x63, 0x64]

/-- V-IP-13. -/
def icmpEchoRequestFrame : List Byte :=
  [0x02, 0x00, 0x00, 0x00, 0x00, 0x04, 0xaa, 0xbb, 0xcc, 0xdd, 0xee, 0xff, 0x08, 0x00, 0x46, 0x00, 0x00, 0x20, 0x1c, 0x46, 0x40, 0x00,
    0x40, 0x01, 0x07, 0x8e, 0x0a, 0x00, 0x00, 0x05, 0x0a, 0x00, 0x00, 0x04, 0x01, 0x01, 0x01, 0x00, 0x08, 0x00, 0x21, 0x04, 0x12, 0x34,
    0x00, 0x01, 0x61, 0x62, 0x63, 0x64]

def icmpEchoRequestInstr : Instr :=
  .icmpEchoRequest ⟨0x020000000004, 0xaabbccddeeff, 0x0800⟩
    ⟨4, 6, 0, 0x0020, 0x1c46, 2, 0, 64, 1, 0x078e, 0x0a000005, 0x0a000004⟩ [0x01, 0x01, 0x01, 0x00] ⟨8, 0, 0x2104⟩
    [0x12, 0x34, 0x00, 0x01] [0x61, 0x62, 0x63, 0x64]

/-- V-ICMP-7. -/
def icmpOtherTypeFrame : List Byte :=
  [0x02, 0x00, 0x00, 0x00, 0x00, 0x04, 0xaa, 0xbb, 0xcc, 0xdd, 0xee, 0xff, 0x08, 0x00, 0x45, 0x00, 0x00, 0x20, 0x1c, 0x46, 0x40, 0x00,
    0x40, 0x01, 0x0a, 0x8f, 0x0a, 0x00, 0x00, 0x05, 0x0a, 0x00, 0x00, 0x04, 0x0d, 0x00, 0xf2, 0xff, 0x00, 0x00, 0x00, 0x00, 0x00, 0x00,
    0x00, 0x00]

def icmpOtherTypeInstr : Instr :=
  .icmpOtherType ⟨0x020000000004, 0xaabbccddeeff, 0x0800⟩
    ⟨4, 5, 0, 0x0020, 0x1c46, 2, 0, 64, 1, 0x0a8f, 0x0a000005, 0x0a000004⟩ [] ⟨13, 0, 0xf2ff⟩
    [0x00, 0x00, 0x00, 0x00, 0x00, 0x00, 0x00, 0x00] []

/-! ### Decoding -/

theorem test_decode_ethRunt : decode ethRuntFrame = ethRuntInstr := by decide
theorem test_decode_ethOther : decode ethOtherFrame = ethOtherInstr := by decide
theorem test_decode_arpRunt : decode arpRuntFrame = arpRuntInstr := by decide
theorem test_decode_arpBadHtype : decode arpBadHtypeFrame = arpBadHtypeInstr := by decide
theorem test_decode_arpBadPtype : decode arpBadPtypeFrame = arpBadPtypeInstr := by decide
theorem test_decode_arpShortBody : decode arpShortBodyFrame = arpShortBodyInstr := by decide
theorem test_decode_arpRequest : decode arpRequestFrame = arpRequestInstr := by decide
theorem test_decode_arpReplyIn : decode arpReplyInFrame = arpReplyInInstr := by decide
theorem test_decode_arpOpcodeOther : decode arpOpcodeOtherFrame = arpOpcodeOtherInstr := by decide
theorem test_decode_ipRunt : decode ipRuntFrame = ipRuntInstr := by decide
theorem test_decode_ipBadVersion : decode ipBadVersionFrame = ipBadVersionInstr := by decide
theorem test_decode_ipBadIhl : decode ipBadIhlFrame = ipBadIhlInstr := by decide
theorem test_decode_ipTtlZero : decode ipTtlZeroFrame = ipTtlZeroInstr := by decide
theorem test_decode_ipHdrOverrun : decode ipHdrOverrunFrame = ipHdrOverrunInstr := by decide
theorem test_decode_ipBadChecksum : decode ipBadChecksumFrame = ipBadChecksumInstr := by decide
theorem test_decode_ipBadTotalLength : decode ipBadTotalLengthFrame = ipBadTotalLengthInstr := by decide
theorem test_decode_ipNotIcmp : decode ipNotIcmpFrame = ipNotIcmpInstr := by decide
theorem test_decode_icmpRunt : decode icmpRuntFrame = icmpRuntInstr := by decide
theorem test_decode_icmpEchoRequest : decode icmpEchoRequestFrame = icmpEchoRequestInstr := by decide
theorem test_decode_icmpOtherType : decode icmpOtherTypeFrame = icmpOtherTypeInstr := by decide

/-- The frame of each class. -/
def sampleFrames : List (List Byte) :=
  [ethRuntFrame, ethOtherFrame, arpRuntFrame, arpBadHtypeFrame, arpBadPtypeFrame,
    arpShortBodyFrame, arpRequestFrame, arpReplyInFrame, arpOpcodeOtherFrame, ipRuntFrame,
    ipBadVersionFrame, ipBadIhlFrame, ipTtlZeroFrame, ipHdrOverrunFrame, ipBadChecksumFrame,
    ipBadTotalLengthFrame, ipNotIcmpFrame, icmpRuntFrame, icmpEchoRequestFrame, icmpOtherTypeFrame]

/-- The instruction of each class. -/
def sampleInstrs : List Instr :=
  [ethRuntInstr, ethOtherInstr, arpRuntInstr, arpBadHtypeInstr, arpBadPtypeInstr,
    arpShortBodyInstr, arpRequestInstr, arpReplyInInstr, arpOpcodeOtherInstr, ipRuntInstr,
    ipBadVersionInstr, ipBadIhlInstr, ipTtlZeroInstr, ipHdrOverrunInstr, ipBadChecksumInstr,
    ipBadTotalLengthInstr, ipNotIcmpInstr, icmpRuntInstr, icmpEchoRequestInstr, icmpOtherTypeInstr]

theorem test_sample_instrs_well_formed : sampleInstrs.all Instr.wellFormed = true := by decide
theorem test_sample_instrs_encode : sampleInstrs.map encode = sampleFrames := by decide
theorem test_table_class_of_samples : sampleFrames.map classByTable = sampleInstrs.map (fun i => some i.mnemonic) := by decide
theorem test_table_priorities_increase : (classTable.map ClassRow.priority).IsChain (· < ·) := by decide
theorem test_table_mnemonics : classTable.map ClassRow.mnemonic = sampleInstrs.map Instr.mnemonic := by decide

/-! ### Ill-formed instructions are refused -/

theorem test_ill_formed_ethRunt_long :
    (.ethRunt (List.replicate 14 0) : Instr).wellFormed = false := by decide
theorem test_ill_formed_ethOther_arp :
    (.ethOther ⟨0, 0, 0x0806⟩ [] : Instr).wellFormed = false := by decide
theorem test_ill_formed_ethOther_ipv4 :
    (.ethOther ⟨0, 0, 0x0800⟩ [] : Instr).wellFormed = false := by decide
theorem test_ill_formed_arpRunt_type :
    (.arpRunt ⟨0, 0, 0x0800⟩ [] : Instr).wellFormed = false := by decide
theorem test_ill_formed_arpRunt_long :
    (.arpRunt ⟨0, 0, 0x0806⟩ (List.replicate 8 0) : Instr).wellFormed = false := by decide
theorem test_ill_formed_arpBadHtype_ethernet :
    (.arpBadHtype ⟨0, 0, 0x0806⟩ ⟨1, 0x0800, 6, 4, 1⟩ [] : Instr).wellFormed = false := by decide
theorem test_ill_formed_arpBadPtype_htype :
    (.arpBadPtype ⟨0, 0, 0x0806⟩ ⟨6, 0x86dd, 6, 4, 1⟩ [] : Instr).wellFormed = false := by decide
theorem test_ill_formed_arpBadPtype_ipv4 :
    (.arpBadPtype ⟨0, 0, 0x0806⟩ ⟨1, 0x0800, 6, 4, 1⟩ [] : Instr).wellFormed = false := by decide
theorem test_ill_formed_arpShortBody_long :
    (.arpShortBody ⟨0, 0, 0x0806⟩ ⟨1, 0x0800, 6, 4, 1⟩ (List.replicate 20 0) : Instr).wellFormed = false := by decide
theorem test_ill_formed_arpRequest_opcode :
    (.arpRequest ⟨0, 0, 0x0806⟩ ⟨1, 0x0800, 6, 4, 2⟩ ⟨0, 0, 0, 0⟩ [] : Instr).wellFormed = false := by decide
theorem test_ill_formed_arpReplyIn_opcode :
    (.arpReplyIn ⟨0, 0, 0x0806⟩ ⟨1, 0x0800, 6, 4, 1⟩ ⟨0, 0, 0, 0⟩ [] : Instr).wellFormed = false := by decide
theorem test_ill_formed_arpOpcodeOther_request :
    (.arpOpcodeOther ⟨0, 0, 0x0806⟩ ⟨1, 0x0800, 6, 4, 1⟩ ⟨0, 0, 0, 0⟩ [] : Instr).wellFormed = false := by decide
theorem test_ill_formed_arpOpcodeOther_reply :
    (.arpOpcodeOther ⟨0, 0, 0x0806⟩ ⟨1, 0x0800, 6, 4, 2⟩ ⟨0, 0, 0, 0⟩ [] : Instr).wellFormed = false := by decide
theorem test_ill_formed_ipRunt_long :
    (.ipRunt ⟨0, 0, 0x0800⟩ (List.replicate 20 0) : Instr).wellFormed = false := by decide
theorem test_ill_formed_ipBadVersion_four :
    (.ipBadVersion ⟨0, 0, 0x0800⟩ ⟨4, 5, 0, 20, 0, 0, 0, 64, 1, 0, 0, 0⟩ [] : Instr).wellFormed = false := by decide
theorem test_ill_formed_ipBadIhl_five :
    (.ipBadIhl ⟨0, 0, 0x0800⟩ ⟨4, 5, 0, 20, 0, 0, 0, 64, 1, 0, 0, 0⟩ [] : Instr).wellFormed = false := by decide
theorem test_ill_formed_ipTtlZero_ttl :
    (.ipTtlZero ⟨0, 0, 0x0800⟩ ⟨4, 5, 0, 20, 0, 0, 0, 64, 1, 0, 0, 0⟩ [] : Instr).wellFormed = false := by decide
theorem test_ill_formed_ipHdrOverrun_present :
    (.ipHdrOverrun ⟨0, 0, 0x0800⟩ ⟨4, 6, 0, 20, 0, 0, 0, 64, 1, 0, 0, 0⟩ [0, 0, 0, 0] : Instr).wellFormed = false := by decide
theorem test_ill_formed_ipBadChecksum_good :
    (.ipBadChecksum ⟨0, 0, 0x0800⟩ ⟨4, 5, 0, 0x1c, 0x1c46, 2, 0, 64, 1, 0x0a93, 0x0a000005, 0x0a000004⟩ [] : Instr).wellFormed = false := by decide
theorem test_ill_formed_ipBadTotalLength_fits :
    (.ipBadTotalLength ⟨0, 0, 0x0800⟩ ⟨4, 5, 0, 0x1c, 0x1c46, 2, 0, 64, 1, 0x0a93, 0x0a000005, 0x0a000004⟩ (List.replicate 8 0) : Instr).wellFormed = false := by decide
theorem test_ill_formed_ipNotIcmp_icmp :
    (.ipNotIcmp ⟨0, 0, 0x0800⟩ ⟨4, 5, 0, 0x1c, 0x1c46, 2, 0, 64, 1, 0x0a93, 0x0a000005, 0x0a000004⟩ (List.replicate 8 0) : Instr).wellFormed = false := by decide
theorem test_ill_formed_icmpRunt_long :
    (.icmpRunt ⟨0, 0, 0x0800⟩ ⟨4, 5, 0, 0x1c, 0x1c46, 2, 0, 64, 1, 0x0a93, 0x0a000005, 0x0a000004⟩ (List.replicate 8 0) : Instr).wellFormed = false := by decide
theorem test_ill_formed_icmpEchoRequest_type :
    (.icmpEchoRequest ⟨0, 0, 0x0800⟩ ⟨4, 5, 0, 0x1c, 0x1c46, 2, 0, 64, 1, 0x0a93, 0x0a000005, 0x0a000004⟩ [] ⟨0, 0, 0⟩ [0, 0, 0, 0] [] : Instr).wellFormed = false := by decide
theorem test_ill_formed_icmpOtherType_type :
    (.icmpOtherType ⟨0, 0, 0x0800⟩ ⟨4, 5, 0, 0x1c, 0x1c46, 2, 0, 64, 1, 0x0a93, 0x0a000005, 0x0a000004⟩ [] ⟨8, 0, 0⟩ [0, 0, 0, 0] [] : Instr).wellFormed = false := by decide
theorem test_ill_formed_icmpEchoRequest_options :
    (.icmpEchoRequest ⟨0, 0, 0x0800⟩ ⟨4, 5, 0, 0x1c, 0x1c46, 2, 0, 64, 1, 0x0a93, 0x0a000005, 0x0a000004⟩ [1] ⟨8, 0, 0⟩ [0, 0, 0, 0] [] : Instr).wellFormed = false := by decide
theorem test_ill_formed_icmpEchoRequest_length :
    (.icmpEchoRequest ⟨0, 0, 0x0800⟩ ⟨4, 5, 0, 0x1c, 0x1c46, 2, 0, 64, 1, 0x0a93, 0x0a000005, 0x0a000004⟩ [] ⟨8, 0, 0⟩ [0, 0, 0] [] : Instr).wellFormed = false := by decide

/-! ### One step per class -/

/-- An idle machine with an empty cache, offered one event. -/
def offered (c : Config) (e : HostEvent) (v : Verdict) : State := { State.initial c with inputs := [.event e v] }

/-- The sample configuration under the DROP policy. -/
def dropConfig : Config := { Config.sample with policy := .drop }

/-- The sample configuration of another device. -/
def otherConfig : Config := { Config.sample with devIp := 0x0a000009#32 }

/-- The sample configuration of another device, under the DROP policy. -/
def otherDropConfig : Config := { otherConfig with policy := .drop }

/-- What a step shows: the report words and the outbound frame. -/
def shown : Result → Option (List (BitVec 16) × Option (List Byte))
  | .next t => some (t.reports.map Report.word, t.out)
  | .fault _ => none
  | .refused _ => none

/-- The next state of a step. -/
def after : Result → Option State
  | .next t => some t
  | .fault _ => none
  | .refused _ => none

/-- Why there is no step. -/
def refusal : Result → Option Refusal
  | .next _ => none
  | .fault _ => none
  | .refused r => some r

theorem exists_next {r : Result} (h : (shown r).isSome = true) : ∃ t, r = .next t := by
  cases r with
  | next t => exact ⟨t, rfl⟩
  | fault _ => cases h
  | refused _ => cases h

/-- The reply of V-ARP-1. -/
def arpRequestReply : List Byte :=
  [0xaa, 0xbb, 0xcc, 0xdd, 0xee, 0xff, 0x02, 0x00, 0x00, 0x00, 0x00, 0x04, 0x08, 0x06, 0x00, 0x01, 0x08, 0x00, 0x06, 0x04, 0x00, 0x02,
    0x02, 0x00, 0x00, 0x00, 0x00, 0x04, 0x0a, 0x00, 0x00, 0x04, 0xaa, 0xbb, 0xcc, 0xdd, 0xee, 0xff, 0x0a, 0x00, 0x00, 0x05]

/-- The reply of V-IP-13. -/
def icmpEchoRequestReply : List Byte :=
  [0xaa, 0xbb, 0xcc, 0xdd, 0xee, 0xff, 0x02, 0x00, 0x00, 0x00, 0x00, 0x04, 0x08, 0x00, 0x46, 0x00, 0x00, 0x20, 0x1c, 0x46, 0x40, 0x00,
    0x40, 0x01, 0x07, 0x8e, 0x0a, 0x00, 0x00, 0x04, 0x0a, 0x00, 0x00, 0x05, 0x01, 0x01, 0x01, 0x00, 0x00, 0x00, 0xed, 0xca, 0x12, 0x34,
    0x00, 0x01]

/-- The reply of V-ICMP-7. -/
def icmpOtherTypeReply : List Byte :=
  [0xaa, 0xbb, 0xcc, 0xdd, 0xee, 0xff, 0x02, 0x00, 0x00, 0x00, 0x00, 0x04, 0x08, 0x00, 0x45, 0x00, 0x00, 0x20, 0x1c, 0x46, 0x40, 0x00,
    0x40, 0x01, 0x0a, 0x8f, 0x0a, 0x00, 0x00, 0x04, 0x0a, 0x00, 0x00, 0x05, 0x0d, 0x00, 0xf2, 0xff, 0x00, 0x00, 0x00, 0x00, 0x00, 0x00,
    0x00, 0x00]

theorem test_step_ethRunt : shown (step (offered Config.sample (.frame ethRuntFrame) .ok)) =
    some ([0x001], none) := by decide
theorem test_step_ethOther : shown (step (offered Config.sample (.frame ethOtherFrame) .ok)) =
    some ([], none) := by decide
theorem test_step_arpRunt : shown (step (offered Config.sample (.frame arpRuntFrame) .ok)) =
    some ([0x101], none) := by decide
theorem test_step_arpBadHtype : shown (step (offered Config.sample (.frame arpBadHtypeFrame) .ok)) =
    some ([0x102], none) := by decide
theorem test_step_arpBadPtype : shown (step (offered Config.sample (.frame arpBadPtypeFrame) .ok)) =
    some ([0x103], none) := by decide
theorem test_step_arpShortBody : shown (step (offered Config.sample (.frame arpShortBodyFrame) .ok)) =
    some ([0x101], none) := by decide
theorem test_step_arpRequest : shown (step (offered Config.sample (.frame arpRequestFrame) .ok)) =
    some ([0x10e], some arpRequestReply) := by decide
theorem test_step_arpReplyIn : shown (step (offered Config.sample (.frame arpReplyInFrame) .ok)) =
    some ([0x10e, 0x109], none) := by decide
theorem test_step_arpOpcodeOther : shown (step (offered Config.sample (.frame arpOpcodeOtherFrame) .ok)) =
    some ([0x10e, 0x109], none) := by decide
theorem test_step_ipRunt : shown (step (offered Config.sample (.frame ipRuntFrame) .ok)) =
    some ([0x201], none) := by decide
theorem test_step_ipBadVersion : shown (step (offered Config.sample (.frame ipBadVersionFrame) .ok)) =
    some ([0x204], none) := by decide
theorem test_step_ipBadIhl : shown (step (offered Config.sample (.frame ipBadIhlFrame) .ok)) =
    some ([0x205], none) := by decide
theorem test_step_ipTtlZero : shown (step (offered Config.sample (.frame ipTtlZeroFrame) .ok)) =
    some ([0x206], none) := by decide
theorem test_step_ipHdrOverrun : shown (step (offered Config.sample (.frame ipHdrOverrunFrame) .ok)) =
    some ([0x201], none) := by decide
theorem test_step_ipBadChecksum : shown (step (offered Config.sample (.frame ipBadChecksumFrame) .ok)) =
    some ([0x207], none) := by decide
theorem test_step_ipBadTotalLength : shown (step (offered Config.sample (.frame ipBadTotalLengthFrame) .ok)) =
    some ([0x201], none) := by decide
theorem test_step_ipNotIcmp : shown (step (offered Config.sample (.frame ipNotIcmpFrame) .ok)) =
    some ([0x208], none) := by decide
theorem test_step_icmpRunt : shown (step (offered Config.sample (.frame icmpRuntFrame) .ok)) =
    some ([0x301], none) := by decide
theorem test_step_icmpEchoRequest : shown (step (offered Config.sample (.frame icmpEchoRequestFrame) .ok)) =
    some ([], some icmpEchoRequestReply) := by decide
theorem test_step_icmpOtherType : shown (step (offered Config.sample (.frame icmpOtherTypeFrame) .ok)) =
    some ([0x30a], some icmpOtherTypeReply) := by decide

theorem test_failed_send_arpRequest : shown (step (offered Config.sample (.frame arpRequestFrame) .failed)) =
    some ([0x10e, 0x00f], some arpRequestReply) := by decide
theorem test_failed_send_icmpEchoRequest : shown (step (offered Config.sample (.frame icmpEchoRequestFrame) .failed)) =
    some ([0x00f], some icmpEchoRequestReply) := by decide
theorem test_other_target_icmpOtherType : shown (step (offered otherDropConfig (.frame icmpOtherTypeFrame) .ok)) =
    some ([0x20c], none) := by decide
theorem test_other_target_arpReplyIn : shown (step (offered otherConfig (.frame arpReplyInFrame) .ok)) =
    some ([0x10e, 0x10c, 0x109], none) := by decide
theorem test_other_target_arpOpcodeOther : shown (step (offered otherDropConfig (.frame arpOpcodeOtherFrame) .ok)) =
    some ([0x10e, 0x10c], none) := by decide
theorem test_other_target_ipNotIcmp : shown (step (offered otherConfig (.frame ipNotIcmpFrame) .ok)) =
    some ([0x20c, 0x208], none) := by decide
theorem test_other_target_icmpRunt : shown (step (offered otherDropConfig (.frame icmpRuntFrame) .ok)) =
    some ([0x20c], none) := by decide

/-! ### Checksum vectors (95_test_vectors.md section 3.1) -/

theorem test_csum_empty : internetChecksum [] = 0xffff := by decide
theorem test_csum_odd : internetChecksum [0x12, 0x34, 0x56] = 0x97cb := by decide
theorem test_csum_rfc : internetChecksum [0x00, 0x01, 0xf2, 0x03, 0xf4, 0xf5, 0xf6, 0xf7] = 0x220d := by decide
theorem test_csum_two_carries : internetChecksum [0xff, 0xff, 0xff, 0xff, 0x00, 0x01] = 0xfffe := by decide

/-! ### The cache (V-ARP-2, W5) -/

/-- A cache of `n` Resolved entries with senders 10.0.1.1 to 10.0.1.n. -/
def cacheOf (n : Nat) : List CacheEntry :=
  (List.range n).map (fun k => .resolved 1 (BitVec.ofNat 32 (0x0a000101 + k)) (BitVec.ofNat 48 (0x020000000101 + k))) ++
    List.replicate (32 - n) .free

theorem test_cache_of_wf : cacheWf (cacheOf 31) = true ∧ cacheWf (cacheOf 32) = true := by decide
theorem test_cache_full : shown (step { offered Config.sample (.frame arpRequestFrame) .ok with cache := cacheOf 32 }) =
    some ([0x10b], some arpRequestReply) := by decide
theorem test_cache_last_entry : learnedCache (cacheOf 31) 1 0x0a000005 0xaabbccddeeff =
    (cacheOf 31).set 31 (.resolved 1 0x0a000005 0xaabbccddeeff) := by decide
theorem test_cache_update : learnedCache (cacheOf 32) 1 0x0a000120 7 = (cacheOf 32).set 31 (.resolved 1 0x0a000120 7) := by decide

/-! ### The frame cycle (95_test_vectors.md section 3.7) -/

theorem test_read_failed : after (step (offered Config.sample .readFailed .ok)) =
    some { State.reset with phase := .halted .readFailed, reports := [⟨.readFailed, .eth⟩] } := by decide
theorem test_source_closed : after (step (offered Config.sample .sourceClosed .ok)) =
    some { State.reset with phase := .halted .sourceClosed, reports := [⟨.sourceClosed, .eth⟩] } := by decide
theorem test_halted_takes_no_frame :
    refusal (step { offered Config.sample (.frame arpRequestFrame) .ok with phase := .halted .readFailed }) = some .haltedPhase := by
  decide
theorem test_reset_leaves_halt :
    after (step { State.reset with phase := .halted .readFailed, cache := cacheOf 5, inputs := [.reset] }) = some State.reset := by
  decide
theorem test_no_event : refusal (step State.reset) = some .noEventOffered := by decide
theorem test_oversize_frame :
    refusal (step (offered { Config.sample with frameBufferBytes := 41 } (.frame arpRequestFrame) .ok)) = some .frameTooLong := by
  decide
theorem test_largest_frame : shown (step (offered { Config.sample with frameBufferBytes := 42 } (.frame arpRequestFrame) .ok)) =
    some ([0x10e], some arpRequestReply) := by decide
/-- The run ends at the halt, and the reset after it begins another run (R188). -/
theorem test_run_ends_at_halt : runFromReset 3 Config.sample [.event .readFailed .ok, .reset, .event .sourceClosed .ok] =
    [⟨.readFailed, none, [0x010], none⟩] := by decide
theorem test_run_ends_before_reset : runFromReset 3 Config.sample [.event (.frame []) .failed, .reset, .event (.frame []) .ok] =
    [⟨.frame [], none, [0x001], none⟩] := by decide
theorem test_event_line : parseLine "FRAME 0a FF ; two bytes".toList = some (.frame [0x0a, 0xff]) := by decide
theorem test_event_line_halt : parseLine "READ_FAILED".toList = some .readFailed := by decide

/-! ### Table words -/

theorem test_table_word_empty : decodeTableWord 0 0 = some (.ethRunt []) := by decide
theorem test_table_word_arp_request : (decodeTableWord 176 0x01000000000801000608000000000000000000000000).map Instr.mnemonic = some "ARP_REQUEST" := by
  decide
theorem test_fetch_word_runs_it : (match step (State.reset.withFetchWord 176 0x01000000000801000608000000000000000000000000) with
    | .next t => t.reports | .fault _ => [] | .refused _ => []) =
      [⟨.cacheInserted, .arp⟩, ⟨.notForUs, .arp⟩] := by decide

/-! ### Witnesses: what each statement assumes can be met, clause by clause -/

theorem offered_offers {c : Config} {bytes : List Byte} (v : Verdict) (h : bytes.length ≤ c.frameBufferBytes) :
    (offered c (.frame bytes) v).Offers bytes v [] := ⟨rfl, rfl, h⟩

theorem witness_DecodeOfEncodedInstruction : sampleInstrs.all Instr.wellFormed = true ∧ sampleInstrs.length = 20 := by decide

theorem witness_EveryFrameIsOneEncodedClass :
    icmpEchoRequestInstr.wellFormed = true ∧ encode icmpEchoRequestInstr = icmpEchoRequestFrame := by decide

theorem witness_StepRunsDecodedClass :
    (offered Config.sample (.frame arpRequestFrame) .ok).Offers arpRequestFrame .ok [] ∧ decode arpRequestFrame = arpRequestInstr ∧
      arpRequestInstr.wellFormed = true :=
  ⟨offered_offers _ (by decide), by decide, by decide⟩

theorem witness_MemReadIsBigEndianOrFaults :
    2 ∈ [1, 2, 4, 6] ∧ 40 + 2 ≤ arpRequestFrame.length ∧ arpRequestFrame.length < 41 + 2 := by decide

theorem witness_MemWriteSetsBigEndianBytes : 2 ∈ [1, 2, 4, 6] ∧ 0xffff < 256 ^ 2 ∧ 40 + 2 ≤ arpRequestFrame.length := by decide

theorem witness_ExecKeepsBufferForm :
    (State.reset.loadFrame arpRequestFrame).buf.wf = true ∧
      (State.reset.loadFrame arpRequestFrame).buf.holdsExactly (State.reset.loadFrame arpRequestFrame).len = true ∧
      ∃ t, exec arpRequestInstr (State.reset.loadFrame arpRequestFrame) = .next t :=
  ⟨by decide, by decide, exists_next (by decide)⟩

theorem witness_EthFinalizeWritesHeaderOnly : 14 ≤ ethOtherFrame.length := by decide

theorem witness_SendEmitsHeaderAndPayload : 28 + 14 ≤ arpRequestFrame.length := by decide

theorem witness_ChecksumIsComplementOfOnesFold : (List.replicate 131074 (0xff#8)).length ≤ 131074 := by
  rw [List.length_replicate]

theorem witness_ChecksumVerifiesExactlyOnMultiples :
    [0xff#8, 0xfe, 0x00, 0x01].length ≤ 131074 ∧ internetChecksum [0xff#8, 0xfe, 0x00, 0x01] = 0#16 := by decide

theorem witness_ChecksumExtremes :
    [0x00#8, 0x00].length ≤ 131074 ∧ internetChecksum [0x00#8, 0x00] = 0xffff#16 ∧ internetChecksum [0xff#8, 0xff] = 0#16 := by
  decide

theorem witness_ChecksumIgnoresWordOrder : [((0x12 : Byte), (0x34 : Byte)), (0x56, 0x78)].Perm [(0x56, 0x78), (0x12, 0x34)] := by decide

theorem witness_ChecksumFillVerifies :
    14 ≤ 24 ∧ 24 + 2 ≤ 34 ∧ 34 ≤ ipNotIcmpFrame.length ∧ (24 - 14) % 2 = 0 ∧ 34 - 14 ≤ 131074 := by decide

theorem witness_CacheUpdateOverwritesFirstMatch :
    (∃ es, cacheUpdate (cacheOf 2) 1 0x0a000102 7 = some es) ∧ cacheUpdate (cacheOf 2) 1 0x0a000103 7 = none :=
  ⟨⟨_, rfl⟩, by decide⟩

theorem witness_CacheInsertTakesFirstFree :
    (∃ es, cacheInsert (cacheOf 31) 1 5 7 = some es) ∧ cacheInsert (cacheOf 32) 1 5 7 = none :=
  ⟨⟨_, rfl⟩, by decide⟩

theorem witness_LearningKeepsCacheInvariant : cacheWf (cacheOf 31) = true ∧ cacheWf (cacheOf 32) = true := by decide

theorem witness_LearningTwiceIsAnUpdate :
    cacheWf (cacheOf 31) = true ∧ learnReport (cacheOf 31) 1 0x0a000005 7 ≠ .cacheFull ∧
      cacheWf (cacheOf 32) = true ∧ learnReport (cacheOf 32) 1 0x0a000101 7 ≠ .cacheFull := by decide

theorem witness_FullCacheIsNotAltered :
    (∀ e ∈ cacheOf 32, e.key ≠ some (1#16, 0x0a000005#32)) ∧ CacheEntry.free ∉ cacheOf 32 ∧
      (∀ e ∈ cacheOf 31, e.key ≠ some (1#16, 0x0a000005#32)) ∧ CacheEntry.free ∈ cacheOf 31 := by decide

theorem witness_ResolvedEntriesKeepTheirKeys :
    let s := { offered Config.sample (.frame arpRequestFrame) .ok with cache := cacheOf 32 }
    s.inputs = .event (.frame arpRequestFrame) .ok :: [] ∧ (∃ t, step s = .next t) ∧
      s.cache[31]? = some (.resolved 1 0x0a000120 0x020000000120) :=
  ⟨rfl, exists_next (by decide), by decide⟩

theorem witness_ArpOtherOpcodesLearnAndDrop : passesCheck State.reset.cfg 0x0a000004 ∧ passesCheck State.reset.cfg 0x0a000009 :=
  ⟨.inl rfl, .inr rfl⟩

theorem witness_IpNotIcmpAndIcmpRuntDrop : passesCheck State.reset.cfg 0x0a000004 ∧ passesCheck State.reset.cfg 0x0a000009 :=
  ⟨.inl rfl, .inr rfl⟩

theorem witness_ArpRequestIsAnswered : arpRequestInstr.wellFormed = true ∧ passesCheck State.reset.cfg 0x0a000004 :=
  ⟨by decide, .inl rfl⟩

theorem witness_EchoRequestIsAnswered : icmpEchoRequestInstr.wellFormed = true ∧ passesCheck State.reset.cfg 0x0a000004 :=
  ⟨by decide, .inl rfl⟩

theorem witness_OtherIcmpTypeIsReflected : icmpOtherTypeInstr.wellFormed = true ∧ passesCheck State.reset.cfg 0x0a000004 :=
  ⟨by decide, .inl rfl⟩

theorem witness_DropPolicyEndsAtNotForUs :
    (State.initial dropConfig).cfg.policy = .drop ∧ (0x0a000009#32) ≠ (State.initial dropConfig).cfg.devIp := by decide

theorem witness_ArpRequestFrame : ∃ t, exec arpRequestInstr (State.reset.loadFrame arpRequestFrame) = .next t :=
  exists_next (by decide)

theorem witness_IcmpReplyFrames :
    (∃ t, exec icmpEchoRequestInstr (State.reset.loadFrame icmpEchoRequestFrame) = .next t) ∧
      ∃ t, exec icmpOtherTypeInstr (State.reset.loadFrame icmpOtherTypeFrame) = .next t :=
  ⟨exists_next (by decide), exists_next (by decide)⟩

theorem witness_EthernetClassSteps :
    (offered Config.sample (.frame ethRuntFrame) .ok).Offers ethRuntFrame .ok [] ∧ ethRuntFrame.length = 13 ∧
      (offered Config.sample (.frame ethOtherFrame) .ok).Offers ethOtherFrame .ok [] ∧ ethOtherFrame.length = 14 ∧
      be16At ethOtherFrame 12 ≠ 0x0806#16 ∧ be16At ethOtherFrame 12 ≠ 0x0800#16 ∧
      shown (step (offered Config.sample (.frame ethOtherFrame) .ok)) = some ([], none) :=
  ⟨offered_offers _ (by decide), by decide, offered_offers _ (by decide), by decide, by decide, by decide, test_step_ethOther⟩

theorem witness_ArpTypeFaultSteps :
    (∀ b ∈ [arpBadHtypeFrame.take 22, arpBadPtypeFrame.take 22],
      (offered Config.sample (.frame b) .ok).Offers b .ok [] ∧ 22 ≤ b.length ∧ be16At b 12 = 0x0806#16) ∧
      be16At (arpBadHtypeFrame.take 22) 14 ≠ 1#16 ∧
      be16At (arpBadPtypeFrame.take 22) 14 = 1#16 ∧ be16At (arpBadPtypeFrame.take 22) 16 ≠ 0x0800#16 := by
  refine ⟨fun b hb => ⟨offered_offers _ ?_, ?_⟩, ?_⟩
  · revert b; decide
  · revert b; decide
  · decide

/-- One frame of 34 bytes per clause, in order. -/
theorem witness_IpHeaderFaultSteps :
    let version := ipBadVersionFrame.take 34
    let ihl := ipBadIhlFrame.take 34
    let ttl := ipTtlZeroFrame.take 34
    let sum := ipBadChecksumFrame.take 34
    (∀ b ∈ [version, ihl, ttl, sum],
      (offered Config.sample (.frame b) .ok).Offers b .ok [] ∧ 34 ≤ b.length ∧ be16At b 12 = 0x0800#16) ∧
      verOf version ≠ 4 ∧ (verOf ihl = 4 ∧ ihlOf ihl = 4) ∧
      (verOf ttl = 4 ∧ ihlOf ttl = 5 ∧ byteAt ttl 22 = 0#8) ∧
      (verOf sum = 4 ∧ 5 ≤ ihlOf sum ∧ byteAt sum 22 ≠ 0#8 ∧ ihlOf sum * 4 = payloadLen sum ∧ headerCsumOf sum ≠ 0#16) := by
  refine ⟨fun b hb => ⟨offered_offers _ ?_, ?_⟩, ?_⟩
  · revert b; decide
  · revert b; decide
  · decide

/-- The ARP clauses: 21, 22 and 41 bytes. -/
theorem witness_BoundsFaultSteps_arp :
    (∀ b ∈ [arpRuntFrame, arpRequestFrame.take 22, arpShortBodyFrame],
      (offered Config.sample (.frame b) .ok).Offers b .ok [] ∧ 14 ≤ b.length ∧ be16At b 12 = 0x0806#16) ∧
      payloadLen arpRuntFrame = 7 ∧
      (∀ b ∈ [arpRequestFrame.take 22, arpShortBodyFrame],
        8 ≤ payloadLen b ∧ payloadLen b < 28 ∧ be16At b 14 = 1#16 ∧ be16At b 16 = 0x0800#16) ∧
      payloadLen (arpRequestFrame.take 22) = 8 ∧ payloadLen arpShortBodyFrame = 27 := by
  refine ⟨fun b hb => ⟨offered_offers _ ?_, ?_⟩, ?_⟩
  · revert b; decide
  · revert b; decide
  · decide

/-- The IPv4 and ICMP clauses, one frame each, and a second one for the total length: V-IP-1, a header of 24 bytes cut to 20, V-IP-7 and V-IP-11, V-IP-15. -/
theorem witness_BoundsFaultSteps_ip :
    let cut := icmpEchoRequestFrame.take 34
    let long := ipBadTotalLengthFrame
    let small : List Byte := ipRuntFrame.take 16 ++ [0x00, 0x10, 0x1c, 0x46, 0x40, 0x00, 0x40, 0x01, 0x0a, 0x9f] ++ long.drop 26
    let none : List Byte := ipRuntFrame.take 16 ++ [0x00, 0x14, 0x1c, 0x46, 0x40, 0x00, 0x40, 0x01, 0x0a, 0x9b] ++ cut.drop 26
    (∀ b ∈ [ipRuntFrame, cut, long, small, none],
      (offered Config.sample (.frame b) .ok).Offers b .ok [] ∧ 14 ≤ b.length ∧ be16At b 12 = 0x0800#16) ∧
      payloadLen ipRuntFrame = 19 ∧
      (∀ b ∈ [cut, long, small, none], 20 ≤ payloadLen b ∧ verOf b = 4 ∧ 5 ≤ ihlOf b ∧ byteAt b 22 ≠ 0#8) ∧
      payloadLen cut < ihlOf cut * 4 ∧
      (∀ b ∈ [long, small, none], ihlOf b * 4 ≤ payloadLen b ∧ headerCsumOf b = 0#16) ∧
      payloadLen long < tlOf long ∧ tlOf small < ihlOf small * 4 ∧
      (tlOf none = ihlOf none * 4 ∧ tlOf none = payloadLen none ∧ byteAt none 23 = 1#8 ∧ be32At none 30 = Config.sample.devIp) := by
  refine ⟨fun b hb => ⟨offered_offers _ ?_, ?_⟩, ?_⟩
  · revert b; decide
  · revert b; decide
  · decide

/-- A frame passes the destination check under the sample configuration, and fails it under `otherDropConfig`. -/
theorem checks_meet : passesCheck Config.sample 0x0a000004 ∧ passesCheck otherConfig 0x0a000004 ∧ ¬ passesCheck otherDropConfig 0x0a000004 := by
  refine ⟨.inl rfl, .inr rfl, ?_⟩
  unfold passesCheck
  decide

theorem witness_ArpRequestStep :
    (offered Config.sample (.frame arpRequestFrame) .ok).Offers arpRequestFrame .ok [] ∧
      (offered otherDropConfig (.frame arpRequestFrame) .ok).Offers arpRequestFrame .ok [] ∧ decode arpRequestFrame = arpRequestInstr ∧
      passesCheck Config.sample 0x0a000004 ∧ ¬ passesCheck otherDropConfig 0x0a000004 :=
  ⟨offered_offers _ (by decide), offered_offers _ (by decide), test_decode_arpRequest, checks_meet.1, checks_meet.2.2⟩

theorem witness_ArpOtherOpcodeSteps :
    (offered Config.sample (.frame arpReplyInFrame) .ok).Offers arpReplyInFrame .ok [] ∧ decode arpReplyInFrame = arpReplyInInstr ∧
      (offered otherDropConfig (.frame arpOpcodeOtherFrame) .ok).Offers arpOpcodeOtherFrame .ok [] ∧
      decode arpOpcodeOtherFrame = arpOpcodeOtherInstr ∧ passesCheck Config.sample 0x0a000004 ∧ ¬ passesCheck otherDropConfig 0x0a000004 :=
  ⟨offered_offers _ (by decide), test_decode_arpReplyIn, offered_offers _ (by decide), test_decode_arpOpcodeOther, checks_meet.1,
    checks_meet.2.2⟩

theorem witness_IpNotIcmpStep :
    (offered Config.sample (.frame ipNotIcmpFrame) .ok).Offers ipNotIcmpFrame .ok [] ∧
      (offered otherDropConfig (.frame ipNotIcmpFrame) .ok).Offers ipNotIcmpFrame .ok [] ∧ decode ipNotIcmpFrame = ipNotIcmpInstr ∧
      passesCheck Config.sample 0x0a000004 ∧ ¬ passesCheck otherDropConfig 0x0a000004 :=
  ⟨offered_offers _ (by decide), offered_offers _ (by decide), test_decode_ipNotIcmp, checks_meet.1, checks_meet.2.2⟩

theorem witness_EchoRequestStep :
    (offered Config.sample (.frame icmpEchoRequestFrame) .ok).Offers icmpEchoRequestFrame .ok [] ∧
      (offered otherDropConfig (.frame icmpEchoRequestFrame) .ok).Offers icmpEchoRequestFrame .ok [] ∧
      decode icmpEchoRequestFrame = icmpEchoRequestInstr ∧ passesCheck Config.sample 0x0a000004 ∧ ¬ passesCheck otherDropConfig 0x0a000004 :=
  ⟨offered_offers _ (by decide), offered_offers _ (by decide), test_decode_icmpEchoRequest, checks_meet.1, checks_meet.2.2⟩

theorem witness_OtherIcmpTypeStep :
    (offered Config.sample (.frame icmpOtherTypeFrame) .ok).Offers icmpOtherTypeFrame .ok [] ∧
      (offered otherDropConfig (.frame icmpOtherTypeFrame) .ok).Offers icmpOtherTypeFrame .ok [] ∧
      decode icmpOtherTypeFrame = icmpOtherTypeInstr ∧ passesCheck Config.sample 0x0a000004 ∧ ¬ passesCheck otherDropConfig 0x0a000004 :=
  ⟨offered_offers _ (by decide), offered_offers _ (by decide), test_decode_icmpOtherType, checks_meet.1, checks_meet.2.2⟩

theorem witness_HostFailureEventsHalt :
    (offered Config.sample .readFailed .ok).phase = .idle ∧ (offered Config.sample .readFailed .ok).inputs = .event .readFailed .ok :: [] ∧
      (offered Config.sample .sourceClosed .ok).phase = .idle ∧
      (offered Config.sample .sourceClosed .ok).inputs = .event .sourceClosed .ok :: [] := by decide

theorem witness_NoStepWhenHaltedOrWaiting :
    let s := { offered Config.sample (.frame arpRequestFrame) .ok with phase := .halted .readFailed }
    let r := { State.reset with phase := .halted .readFailed, inputs := [.reset] }
    (s.phase = .halted .readFailed ∧ s.inputs = .event (.frame arpRequestFrame) .ok :: []) ∧
      (r.phase = .halted .readFailed ∧ ∃ t, step r = .next t) ∧ State.reset.phase = .idle ∧ State.reset.inputs = [] :=
  ⟨⟨rfl, rfl⟩, ⟨rfl, _, rfl⟩, rfl, rfl⟩

theorem witness_OversizeFrameIsRefused :
    let s := offered { Config.sample with frameBufferBytes := 41 } (.frame arpRequestFrame) .ok
    s.phase = .idle ∧ s.inputs = .event (.frame arpRequestFrame) .ok :: [] ∧ s.cfg.frameBufferBytes < arpRequestFrame.length :=
  ⟨rfl, rfl, by decide⟩

theorem witness_ResetStep : ({ State.reset with phase := .halted .readFailed, inputs := [.reset] } : State).inputs = .reset :: [] := rfl

theorem witness_ResetsWithSameConfigurationAgree :
    let s := { State.reset with phase := .halted .readFailed, sinkVerdict := .failed }
    s.cfg = State.reset.cfg ∧ s.inputs = State.reset.inputs := ⟨rfl, rfl⟩

theorem witness_ResetSatisfiesInvariant : ({ Config.sample with frameBufferBytes := 14 } : Config).wellFormed = true := by decide

/-- For StepKeepsInvariant, ConfigurationNeverChanges, ReportListsAreTheListedOnes, AtMostOneDropPerStep and CacheIsObservableOnlyInReports. -/
theorem witness_StepKeepsInvariant :
    (offered Config.sample (.frame arpOpcodeOtherFrame) .ok).inv = true ∧
      ∃ t, step (offered Config.sample (.frame arpOpcodeOtherFrame) .ok) = .next t :=
  ⟨by decide, exists_next (by decide)⟩

theorem witness_ConfigurationNeverChanges : ∃ t, step (offered dropConfig (.frame icmpEchoRequestFrame) .failed) = .next t :=
  exists_next (by decide)

theorem witness_ReportListsAreTheListedOnes : ∃ t, step (offered otherConfig (.frame icmpOtherTypeFrame) .failed) = .next t :=
  exists_next (by decide)

theorem witness_AtMostOneDropPerStep :
    ∃ t, step (offered otherConfig (.frame arpReplyInFrame) .ok) = .next t ∧
      ∃ r ∈ t.reports, r.kind.policy otherConfig.policy = .drop :=
  ⟨_, rfl, ⟨.unhandledOpcode, .arp⟩, by decide, rfl⟩

theorem witness_CacheIsObservableOnlyInReports :
    ∃ t, step { offered Config.sample (.frame arpRequestFrame) .ok with cache := cacheOf 32 } = .next t :=
  exists_next (by decide)

theorem witness_EveryFrameEndsIdle :
    (offered Config.sample (.frame []) .ok).Offers [] .ok [] ∧
      (offered Config.sample (.frame (List.replicate 1514 0)) .ok).Offers (List.replicate 1514 0) .ok [] :=
  ⟨offered_offers _ (by decide), offered_offers _ (by rw [List.length_replicate]; decide)⟩

theorem witness_OutboundFramesAreWellFormed :
    ((offered Config.sample (.frame arpRequestFrame) .ok).Offers arpRequestFrame .ok [] ∧ be16At arpRequestFrame 12 = 0x0806#16 ∧
        shown (step (offered Config.sample (.frame arpRequestFrame) .ok)) = some ([0x10e], some arpRequestReply)) ∧
      (offered Config.sample (.frame icmpOtherTypeFrame) .ok).Offers icmpOtherTypeFrame .ok [] ∧
      be16At icmpOtherTypeFrame 12 = 0x0800#16 ∧
      shown (step (offered Config.sample (.frame icmpOtherTypeFrame) .ok)) = some ([0x30a], some icmpOtherTypeReply) :=
  ⟨⟨offered_offers _ (by decide), by decide, test_step_arpRequest⟩, offered_offers _ (by decide), by decide,
    test_step_icmpOtherType⟩

theorem witness_DestinationMacIsIgnored :
    (offered Config.sample (.frame ethOtherFrame) .ok).Offers ethOtherFrame .ok [] ∧ 14 ≤ ethOtherFrame.length ∧
      (List.replicate 6 (0xff#8)).length = 6 :=
  ⟨offered_offers _ (by decide), by decide, by decide⟩

/-- Trailing bytes after the shortest frame of each of the two disjuncts. -/
theorem witness_TrailingBytesAreIgnored :
    ((offered Config.sample (.frame (arpRequestFrame ++ [0x5a])) .ok).Offers (arpRequestFrame ++ [0x5a]) .ok [] ∧
        be16At arpRequestFrame 12 = 0x0806#16 ∧ arpRequestFrame.length = 42) ∧
      let b := icmpEchoRequestFrame.take 46
      (offered Config.sample (.frame (b ++ [0x5a])) .ok).Offers (b ++ [0x5a]) .ok [] ∧ be16At b 12 = 0x0800#16 ∧ 34 ≤ b.length ∧
        14 + ihlOf b * 4 ≤ b.length ∧ 14 + tlOf b = b.length :=
  ⟨⟨offered_offers _ (by decide), by decide, by decide⟩, offered_offers _ (by decide), by decide⟩

end Sys2Proof.Tests
end

section
/-! SUPPORT. The Ethernet family (40_ethernet.md): ETH_FINALIZE on a loaded frame (R102), the two Ethernet classes as steps (R104, R105), and why
every other class answers visibly. -/

namespace Sys2Proof

/-! ### The first two rows of the decoder (R79) -/

theorem decode_of_runt {bs : List Byte} (h : bs.length < 14) : decode bs = .ethRunt bs := if_pos h

theorem decode_of_otherEtype {bs : List Byte} (h : 14 ≤ bs.length) (ha : be16At bs 12 ≠ etherTypeArp)
    (hi : be16At bs 12 ≠ etherTypeIpv4) : decode bs = .ethOther (EthHeader.parse bs) (bs.drop 14) :=
  (if_neg (Nat.not_lt.2 h)).trans (if_pos ⟨ha, hi⟩)

theorem decodeArp_ne_ethOther (eth e : EthHeader) (p q : List Byte) : decodeArp eth p ≠ .ethOther e q := by
  dsimp only [decodeArp]
  repeat' split
  all_goals nofun

theorem decodeIcmp_ne_ethOther (eth e : EthHeader) (ip : IpHeader) (p q : List Byte) : decodeIcmp eth ip p ≠ .ethOther e q := by
  dsimp only [decodeIcmp]
  repeat' split
  all_goals nofun

theorem decodeIp_ne_ethOther (eth e : EthHeader) (p q : List Byte) : decodeIp eth p ≠ .ethOther e q := by
  dsimp only [decodeIp]
  iterate 8
    split
    · nofun
  exact decodeIcmp_ne_ethOther _ _ _ _ _

/-- Only an unknown EtherType decodes to ETH_OTHER. -/
theorem decode_eq_ethOther {bs payload : List Byte} {eth : EthHeader} (h : decode bs = .ethOther eth payload) :
    14 ≤ bs.length ∧ be16At bs 12 ≠ etherTypeArp ∧ be16At bs 12 ≠ etherTypeIpv4 := by
  dsimp only [decode] at h
  split at h
  · cases h
  · next hlen =>
    split at h
    · next hetype => exact ⟨Nat.not_lt.1 hlen, hetype⟩
    · split at h
      · exact absurd h (decodeArp_ne_ethOther _ _ _ _)
      · exact absurd h (decodeIp_ne_ethOther _ _ _ _)

namespace Machine

/-! ### An offered frame as a step (R181) -/

/-- The step on an offered frame is its class, run on the loaded frame, and the end of the frame. -/
theorem step_of_offers {s : State} {bytes : List Byte} {v : Verdict} {rest : List Stimulus} (h : s.Offers bytes v rest) :
    step s = endFrame (exec (decode bytes) ((s.take rest v).loadFrame bytes)) := by
  obtain ⟨hidle, hhead, hfits⟩ := h
  have hframe : step s = (s.take rest v).frameStep bytes := by simp only [step, State.transition, hhead, hidle, State.eventStep]
  rw [hframe]
  exact if_pos hfits

/-- A drop on the loaded frame, as the end of the step (R192): the one report, and neither an outbound frame nor a change of the cache. -/
theorem endFrame_drop (s : State) (bytes : List Byte) (v : Verdict) (rest : List Stimulus) (k : ReportKind) (l : Layer) :
    endFrame (finish (drop k l ((s.take rest v).loadFrame bytes))) = .next (s.afterFrame rest v s.cache [⟨k, l⟩] none) := rfl

/-- An ignored frame, as the end of the step (R101). -/
theorem endFrame_ignore (s : State) (bytes : List Byte) (v : Verdict) (rest : List Stimulus) :
    endFrame (finish (ignore ((s.take rest v).loadFrame bytes))) = .next (s.afterFrame rest v s.cache [] none) := rfl

/-! ### Every class but ETH_OTHER reports or sends -/

/-- The ports show something: a report or an outbound frame. -/
def State.Visible (s : State) : Prop := s.reports ≠ [] ∨ s.out ≠ none

/-- Whenever the operation answers, the ports show something. -/
def AnswersVisibly (x : Op State) : Prop := ∀ t, x = .ok t → t.Visible

theorem AnswersVisibly.bind {α : Type} {x : Op α} {f : α → Op State} (hf : ∀ a, AnswersVisibly (f a)) : AnswersVisibly (x >>= f) := by
  intro t h
  obtain ⟨a, -, ha⟩ := bind_eq_ok.1 h
  exact hf a t ha

theorem drop_answersVisibly (k : ReportKind) (l : Layer) (s : State) : AnswersVisibly (drop k l s) := by
  rintro t ⟨⟩
  exact .inl (by simp)

theorem State.send_answersVisibly (s : State) (et : Half) (n : Nat) (d : MacAddr) : AnswersVisibly (s.send et n d) := by
  intro t h
  obtain ⟨bs, -, rfl, -⟩ := State.send_eq_ok h
  exact .inr (by simp)

/-- The destination check only adds a report or ends the frame with one. -/
theorem State.notForUs_answersVisibly (s : State) (l : Layer) (ip : IpAddr) {go : State → Op State} (hgo : ∀ u, AnswersVisibly (go u)) :
    AnswersVisibly (s.notForUs l ip go) := by
  rw [State.notForUs_eq]
  split
  · exact hgo s
  · split
    · exact hgo _
    · exact drop_answersVisibly _ _ _

/-- ARP_REPLY ends in a send (R113). -/
theorem State.arpReply_answersVisibly (s : State) : AnswersVisibly s.arpReply :=
  .bind fun _ => .bind fun _ => .bind fun _ => .bind fun _ => .bind fun _ => .bind fun _ => .bind fun _ =>
    State.send_answersVisibly _ _ _ _

/-- IP_REPLY ends in a send (R133). -/
theorem State.ipReply_answersVisibly (s : State) (hl tl : Nat) : AnswersVisibly (s.ipReply hl tl) :=
  .bind fun _ => .bind fun _ => .bind fun _ => .bind fun _ => .bind fun _ => State.send_answersVisibly _ _ _ _

/-- R101, R79: a class that completes with nothing on the ports is ETH_OTHER. Each other class is a drop, or goes past the destination check to a
drop or a send. -/
theorem exec_visible {i : Instr} {s t : State} (hi : ∀ eth payload, i ≠ .ethOther eth payload) (h : exec i s = .next t) : t.Visible := by
  cases i with
  | ethOther eth payload => exact absurd rfl (hi eth payload)
  | arpRequest =>
    exact State.notForUs_answersVisibly _ _ _ State.arpReply_answersVisibly t (finish_eq_next.1 h)
  | arpReplyIn | arpOpcodeOther | ipNotIcmp | icmpRunt =>
    exact State.notForUs_answersVisibly _ _ _ (drop_answersVisibly _ _) t (finish_eq_next.1 h)
  | icmpEchoRequest =>
    exact State.notForUs_answersVisibly _ _ _ (fun _ => .bind fun _ => State.ipReply_answersVisibly _ _ _) t (finish_eq_next.1 h)
  | icmpOtherType =>
    exact State.notForUs_answersVisibly _ _ _ (fun _ => State.ipReply_answersVisibly _ _ _) t (finish_eq_next.1 h)
  | ethRunt | arpRunt | arpBadHtype | arpBadPtype | arpShortBody | ipRunt | ipBadVersion | ipBadIhl | ipTtlZero | ipHdrOverrun
  | ipBadChecksum | ipBadTotalLength =>
    exact drop_answersVisibly _ _ _ t (finish_eq_next.1 h)

/-- A step on an offered frame that leaves both ports empty has run ETH_OTHER. -/
theorem decode_of_silent_step {s t : State} {bytes : List Byte} {v : Verdict} {rest : List Stimulus} (ho : s.Offers bytes v rest)
    (h : step s = .next t) (hreports : t.reports = []) (hout : t.out = none) : ∃ eth payload, decode bytes = .ethOther eth payload := by
  rw [step_of_offers ho] at h
  obtain ⟨u, hu, rfl⟩ := endFrame_eq_next.1 h
  by_contra hother
  push Not at hother
  exact (exec_visible hother hu).elim (· hreports) (· hout)

/-! ### The statements -/

/-- Settles O34: the first two clauses are the decoded class run to the end of the frame, the third is the inversion of a silent step. -/
theorem ethernetClassSteps : Obligations.EthernetClassSteps := by
  intro s bytes v rest ho
  refine ⟨fun hlen => ?runt, fun hlen ha hi => ?other, fun t ht hreports hout => ?silent⟩
  case runt =>
    rw [step_of_offers ho, decode_of_runt hlen]
    exact endFrame_drop s bytes v rest .truncated .eth
  case other =>
    rw [step_of_offers ho, decode_of_otherEtype hlen ha hi]
    exact endFrame_ignore s bytes v rest
  case silent =>
    obtain ⟨eth, payload, hd⟩ := decode_of_silent_step ho ht hreports hout
    exact decode_eq_ethOther hd

/-- Settles O10: the three writes of ETH_FINALIZE on a byte string; the new bytes are as many as the old ones, so `len` stays. -/
theorem ethFinalizeWritesHeaderOnly : Obligations.EthFinalizeWritesHeaderOnly := by
  intro s bs et d m h
  have hlen : (macBytes d ++ macBytes m ++ halfBytes et ++ bs.drop 14).length = bs.length := by simp; omega
  rw [State.loadFrame_eq, State.ethFinalize_withBytes _ et d m h, State.withBytes, hlen]
  rfl

end Machine

end Sys2Proof
end

section
/-! SUPPORT. The ARP family (41_arp.md): encoding a decoded frame gives its bytes back (R79), the cache searches as library
searches (R111, R112), step A5 and the destination check in one form (R110), ARP_REPLY on a frame of bytes (R113), and the ARP classes as steps (R115, R116, R118 to R120). -/

namespace Sys2Proof

/-! ### The bytes of a decoded frame (R79) -/

theorem encode_decodeArp (eth : EthHeader) (p : List Byte) : encode (decodeArp eth p) = eth.bytes ++ p := by
  dsimp only [decodeArp]
  split
  · rfl
  next hlen =>
  have harp : (ArpHeader.parse p).bytes ++ p.drop 8 = p := by rw [ArpHeader.bytes_parse (by omega), List.take_append_drop]
  split
  · simp [encode, harp]
  split
  · simp [encode, harp]
  split
  · simp [encode, harp]
  next hbody =>
  have hrest : (ArpBody.parse (p.drop 8)).bytes ++ p.drop 28 = p.drop 8 := by
    have hsplit := List.take_append_drop 20 (p.drop 8)
    rwa [List.drop_drop, ← ArpBody.bytes_parse (by simp; omega)] at hsplit
  split
  · simp [encode, hrest, harp]
  split
  · simp [encode, hrest, harp]
  · simp [encode, hrest, harp]

/-- The message of a valid datagram lies between its header and its padding, with nothing lost. -/
theorem encode_decodeIcmp (eth : EthHeader) {p : List Byte} (hlen : 20 ≤ p.length) (hhl : 20 ≤ (IpHeader.parse p).headerLen)
    (htl : (IpHeader.parse p).tl.toNat ≤ p.length) : encode (decodeIcmp eth (IpHeader.parse p) p) = eth.bytes ++ p := by
  dsimp only [decodeIcmp]
  have hip := IpHeader.bytes_parse hlen
  generalize IpHeader.parse p = ip at *
  split
  · simp [encode, hip]
  next hmsg =>
  have hpieces : p.take 20 ++ ((p.take ip.headerLen).drop 20 ++ ((p.drop ip.headerLen).take 4 ++
      ((p.take ip.tl.toNat).drop (ip.headerLen + 4) ++ p.drop ip.tl.toNat))) = p := by
    simp only [List.drop_take, ← List.append_assoc, take_append_piece]
    rw [Nat.add_sub_cancel' hhl, take_append_piece, take_append_piece, Nat.add_sub_cancel' (by omega), List.take_append_drop]
  have hicmp : (IcmpHeader.parse (p.drop ip.headerLen)).bytes = (p.drop ip.headerLen).take 4 :=
    IcmpHeader.bytes_parse (by simp; omega)
  split <;> simp only [encode, hip, hicmp, List.append_assoc, hpieces]

theorem encode_decodeIp (eth : EthHeader) (p : List Byte) : encode (decodeIp eth p) = eth.bytes ++ p := by
  dsimp only [decodeIp]
  split
  · rfl
  next hlen =>
  have hip : (IpHeader.parse p).bytes ++ p.drop 20 = p := by rw [IpHeader.bytes_parse (by omega), List.take_append_drop]
  split
  · simp [encode, hip]
  split
  · simp [encode, hip]
  next hihl =>
  split
  · simp [encode, hip]
  split
  · simp [encode, hip]
  split
  · simp [encode, hip]
  split
  · simp [encode, hip]
  next htl =>
  split
  · simp [encode, hip]
  · exact encode_decodeIcmp eth (by omega) (by simp only [IpHeader.headerLen]; omega) (by omega)

/-- The decoder loses no bit: the frame of the decoded class is the frame that was decoded. -/
theorem encode_decode (bs : List Byte) : encode (decode bs) = bs := by
  dsimp only [decode]
  split
  · rfl
  next hlen =>
  have heth : (EthHeader.parse bs).bytes ++ bs.drop 14 = bs := by rw [EthHeader.bytes_parse (by omega), List.take_append_drop]
  split
  · exact heth
  split
  · rw [encode_decodeArp, heth]
  · rw [encode_decodeIp, heth]

/-! ### The ARP rows of the decoder that the two type checks take (R79) -/

theorem decode_of_arpEtype {bs : List Byte} (h : 14 ≤ bs.length) (ha : be16At bs 12 = etherTypeArp) :
    decode bs = decodeArp (EthHeader.parse bs) (bs.drop 14) :=
  (if_neg (Nat.not_lt.2 h)).trans ((if_neg fun hne => hne.1 ha).trans (if_pos ha))

theorem decodeArp_of_badHtype (eth : EthHeader) {p : List Byte} (h : 8 ≤ p.length) (hh : be16At p 0 ≠ arpHardwareEthernet) :
    decodeArp eth p = .arpBadHtype eth (ArpHeader.parse p) (p.drop 8) :=
  (if_neg (Nat.not_lt.2 h)).trans (if_pos hh)

theorem decodeArp_of_badPtype (eth : EthHeader) {p : List Byte} (h : 8 ≤ p.length) (hh : be16At p 0 = arpHardwareEthernet)
    (hp : be16At p 2 ≠ arpProtocolIpv4) : decodeArp eth p = .arpBadPtype eth (ArpHeader.parse p) (p.drop 8) :=
  (if_neg (Nat.not_lt.2 h)).trans ((if_neg (not_not_intro hh)).trans (if_pos hp))

namespace Machine

/-! ### The cache searches (R111, R112) -/

theorem CacheEntry.hasKey_iff {e : CacheEntry} {ht : Half} {ip : IpAddr} : e.hasKey ht ip = true ↔ ∃ m, e = .resolved ht ip m := by
  cases e <;> simp [CacheEntry.hasKey]

theorem CacheEntry.key_eq_some_iff {e : CacheEntry} {ht : Half} {ip : IpAddr} : e.key = some (ht, ip) ↔ e.hasKey ht ip = true := by
  cases e <;> simp [CacheEntry.key, CacheEntry.hasKey]

/-- R111: the update sets the entry that a search for the key finds first. -/
theorem cacheUpdate_eq_findIdx? (es : List CacheEntry) (ht : Half) (ip : IpAddr) (hw : MacAddr) :
    cacheUpdate es ht ip hw = (es.findIdx? (·.hasKey ht ip)).map fun i => es.set i (.resolved ht ip hw) := by
  induction es with
  | nil => rfl
  | cons e es ih =>
    rw [cacheUpdate, List.findIdx?_cons, ih]
    split
    · rfl
    · simp [Function.comp_def]

/-- R112: the insert sets the entry that a search for a Free entry finds first. -/
theorem cacheInsert_eq_findIdx? (es : List CacheEntry) (ht : Half) (ip : IpAddr) (hw : MacAddr) :
    cacheInsert es ht ip hw = (es.findIdx? (· == .free)).map fun i => es.set i (.resolved ht ip hw) := by
  induction es with
  | nil => rfl
  | cons e es ih =>
    cases e with
    | free => rfl
    | resolved h i m => simp [cacheInsert, ih, List.findIdx?_cons, Function.comp_def]

theorem cacheUpdate_eq_none_iff {es : List CacheEntry} {ht : Half} {ip : IpAddr} {hw : MacAddr} :
    cacheUpdate es ht ip hw = none ↔ ∀ e ∈ es, e.key ≠ some (ht, ip) := by
  simp only [cacheUpdate_eq_findIdx?, Option.map_eq_none_iff, List.findIdx?_eq_none_iff, ne_eq, CacheEntry.key_eq_some_iff,
    Bool.not_eq_true]

theorem cacheInsert_eq_none_iff {es : List CacheEntry} {ht : Half} {ip : IpAddr} {hw : MacAddr} :
    cacheInsert es ht ip hw = none ↔ CacheEntry.free ∉ es := by
  simp only [cacheInsert_eq_findIdx?, Option.map_eq_none_iff, List.findIdx?_eq_none_iff, beq_eq_false_iff_ne]
  exact ⟨fun h hmem => h _ hmem rfl, fun h e he heq => h (heq ▸ he)⟩

/-! ### Steps A5 and A6 (R110) -/

theorem State.learn_eq (s : State) (ht : Half) (ip : IpAddr) (hw : MacAddr) :
    s.learn ht ip hw = { s with cache := learnedCache s.cache ht ip hw }.report (learnReport s.cache ht ip hw) .arp := by
  obtain ⟨c, hu, he⟩ | ⟨c, hu, hi, he⟩ | ⟨hu, hi, he⟩ := s.learn_cases ht ip hw
  · simp [he, learnedCache, learnReport, hu]
  · simp [he, learnedCache, learnReport, hu, hi]
  · simp [he, learnedCache, learnReport, hu, hi]

theorem State.notForUs_of_passesCheck {s : State} {ip : IpAddr} (h : passesCheck s.cfg ip) (l : Layer) (go : State → Op State) :
    s.notForUs l ip go = go { s with reports := s.reports ++ mismatchReports s.cfg l ip } := by
  rw [State.notForUs_eq, mismatchReports]
  split
  · rw [List.append_nil]
  · next hip => rw [if_pos (h.resolve_left hip)]; rfl

theorem State.notForUs_of_not_passesCheck {s : State} {ip : IpAddr} (h : ¬ passesCheck s.cfg ip) (l : Layer) (go : State → Op State) :
    s.notForUs l ip go = .ok { s with reports := s.reports ++ mismatchReports s.cfg l ip, out := none } := by
  obtain ⟨hip, hpolicy⟩ := not_or.1 h
  rw [State.notForUs_eq, mismatchReports, if_neg hip, if_neg hpolicy, if_neg hip]
  rfl

/-- The state after steps A5 and A6 of ARP_HANDLE (R110): the sender is learned and reported, a mismatch of the target is reported. -/
def State.arpAdmitted (s : State) (arp : ArpHeader) (body : ArpBody) : State :=
  { s with
    cache := learnedCache s.cache arp.htype body.spa body.sha
    reports := s.reports ++ [⟨learnReport s.cache arp.htype body.spa body.sha, .arp⟩] ++ mismatchReports s.cfg .arp body.tpa }

@[simp] theorem State.arpAdmitted_cfg (s : State) (arp : ArpHeader) (body : ArpBody) : (s.arpAdmitted arp body).cfg = s.cfg := rfl

theorem State.arpAdmitted_withBytes (s : State) (bs : List Byte) (arp : ArpHeader) (body : ArpBody) :
    (s.withBytes bs).arpAdmitted arp body = (s.arpAdmitted arp body).withBytes bs := rfl

theorem State.learn_notForUs_of_passesCheck {s : State} {body : ArpBody} (h : passesCheck s.cfg body.tpa) (arp : ArpHeader)
    (go : State → Op State) :
    (s.learn arp.htype body.spa body.sha).notForUs .arp body.tpa go = go (s.arpAdmitted arp body) := by
  rw [State.notForUs_of_passesCheck (by simpa using h), State.learn_eq]
  rfl

theorem State.learn_notForUs_of_not_passesCheck {s : State} {body : ArpBody} (h : ¬ passesCheck s.cfg body.tpa) (arp : ArpHeader)
    (go : State → Op State) :
    (s.learn arp.htype body.spa body.sha).notForUs .arp body.tpa go = .ok { s.arpAdmitted arp body with out := none } := by
  rw [State.notForUs_of_not_passesCheck (by simpa using h), State.learn_eq]
  rfl

/-! ### ARP_REPLY on a frame of bytes (R113) -/

/-- A write that begins where another ended makes one write of both. -/
theorem splice_splice_adjacent {bs a b : List Byte} {o o' : Nat} (ho : o ≤ bs.length) (ho' : o' = o + a.length) :
    splice (splice bs o a) o' b = splice bs o (a ++ b) := by
  subst ho'
  have hlen : (bs.take o ++ a).length = o + a.length := by simp [ho]
  have htake : (splice bs o a).take (o + a.length) = bs.take o ++ a := List.take_left' hlen
  have hdrop : (splice bs o a).drop (o + a.length + b.length) = bs.drop (o + a.length + b.length) := by
    rw [← List.drop_drop, splice, List.drop_left' hlen, List.drop_drop]
  rw [splice, htake, hdrop, splice, List.length_append, ← Nat.add_assoc, List.append_assoc, List.append_assoc]
  simp

/-- A store beside the last one, on a buffer of bytes, makes one store of both. -/
theorem State.writeBytes_adjacent (s : State) {bs a b : List Byte} {o o' : Nat} (ho' : o' = o + a.length)
    (h : o' + b.length ≤ bs.length) :
    (s.withBytes (splice bs o a)).writeBytes o' b = .ok (s.withBytes (splice bs o (a ++ b))) := by
  rw [State.writeBytes_withBytes s (by rw [length_splice] <;> omega), splice_splice_adjacent (by omega) ho']

theorem State.writeMac_adjacent (s : State) {bs a : List Byte} {o o' : Nat} (v : MacAddr) (ho' : o' = o + a.length)
    (h : o' + 6 ≤ bs.length) : (s.withBytes (splice bs o a)).writeMac o' v = .ok (s.withBytes (splice bs o (a ++ macBytes v))) :=
  State.writeBytes_adjacent s ho' (by simpa using h)

theorem State.writeIp_adjacent (s : State) {bs a : List Byte} {o o' : Nat} (v : IpAddr) (ho' : o' = o + a.length)
    (h : o' + 4 ≤ bs.length) : (s.withBytes (splice bs o a)).writeIp o' v = .ok (s.withBytes (splice bs o (a ++ ipBytes v))) :=
  State.writeBytes_adjacent s ho' (by simpa using h)

/-- R171: the report of a send is the verdict's. -/
theorem State.emit_eq (s : State) (bs : List Byte) :
    s.emit bs = { s with reports := s.reports ++ verdictReports s.sinkVerdict, out := some bs } := by
  unfold State.emit verdictReports
  cases s.sinkVerdict with
  | ok => simp
  | failed => rfl

theorem length_arpReplyFrame (c : Config) (arp : ArpHeader) (body : ArpBody) : (arpReplyFrame c arp body).length = 42 := by
  simp [arpReplyFrame]

/-- R170 on a frame whose payload stands between its Ethernet header and trailing bytes: the header is new, the payload goes out under it. -/
theorem State.send_payload (s : State) (et : Half) (d : MacAddr) (eth : EthHeader) (payload trailer : List Byte) :
    (s.withBytes (eth.bytes ++ (payload ++ trailer))).send et payload.length d =
      .ok ((s.emit (EthHeader.bytes ⟨d, s.cfg.devMac, et⟩ ++ payload)).withBytes
        (EthHeader.bytes ⟨d, s.cfg.devMac, et⟩ ++ payload ++ trailer)) := by
  rw [State.send_withBytes s et d (by simp; omega), List.drop_left' eth.length_bytes, List.take_left' rfl, ← List.append_assoc _ payload]
  rfl

/-- R113: the five stores of ARP_REPLY adjoin, so together they replace the opcode and the body of the packet. -/
theorem splice_arpReply (eth : EthHeader) (arp : ArpHeader) (body new : ArpBody) (oper : Half) (trailer : List Byte) :
    splice (eth.bytes ++ arp.bytes ++ body.bytes ++ trailer) 20 (halfBytes oper ++ new.bytes) =
      eth.bytes ++ ArpHeader.bytes { arp with oper := oper } ++ new.bytes ++ trailer := by
  have hsplit := splice_append (a := eth.bytes ++ (halfBytes arp.htype ++ halfBytes arp.ptype ++ [arp.hlen, arp.plen]))
    (b := halfBytes arp.oper ++ body.bytes) (c := trailer) (w := halfBytes oper ++ new.bytes) (o := 20) (by simp) (by simp)
  simpa only [ArpHeader.bytes, List.append_assoc] using hsplit

/-- R113: on the bytes of an ARP packet, the reply stands in the buffer before the unchanged trailing bytes, and is sent. -/
theorem State.arpReply_withBytes (s : State) (eth : EthHeader) (arp : ArpHeader) (body : ArpBody) (trailer : List Byte) :
    (s.withBytes (eth.bytes ++ arp.bytes ++ body.bytes ++ trailer)).arpReply =
      .ok ((s.emit (arpReplyFrame s.cfg arp body)).withBytes (arpReplyFrame s.cfg arp body ++ trailer)) := by
  have hstored := splice_arpReply eth arp body ⟨s.cfg.devMac, s.cfg.devIp, body.sha, body.spa⟩ arpReplyOpcode trailer
  have hsha : macAt (eth.bytes ++ arp.bytes ++ body.bytes ++ trailer) 22 = body.sha := by
    simp [ArpBody.bytes, List.append_assoc, macAt_append]
  have hspa : be32At (eth.bytes ++ arp.bytes ++ body.bytes ++ trailer) 28 = body.spa := by
    simp [ArpBody.bytes, List.append_assoc, be32At_append]
  have hlen : 42 ≤ (eth.bytes ++ arp.bytes ++ body.bytes ++ trailer).length := by simp; omega
  generalize eth.bytes ++ arp.bytes ++ body.bytes ++ trailer = bs at *
  rw [State.arpReply, State.readMac_withBytes s (by omega), ok_bind, State.readIp_withBytes s (by omega), ok_bind, hsha, hspa,
    State.writeHalf_withBytes s _ (by omega), ok_bind, State.withBytes_cfg, State.writeMac_adjacent s _ (by simp) (by omega), ok_bind,
    State.withBytes_cfg, State.writeIp_adjacent s _ (by simp) (by omega), ok_bind, State.writeMac_adjacent s _ (by simp) (by omega),
    ok_bind, State.writeIp_adjacent s _ (by simp) (by omega), ok_bind]
  have hpacket : halfBytes arpReplyOpcode ++ macBytes s.cfg.devMac ++ ipBytes s.cfg.devIp ++ macBytes body.sha ++ ipBytes body.spa =
      halfBytes arpReplyOpcode ++ ArpBody.bytes ⟨s.cfg.devMac, s.cfg.devIp, body.sha, body.spa⟩ := by
    simp only [ArpBody.bytes, List.append_assoc]
  have hsend := s.send_payload etherTypeArp body.sha eth (ArpHeader.bytes { arp with oper := arpReplyOpcode } ++
    ArpBody.bytes ⟨s.cfg.devMac, s.cfg.devIp, body.sha, body.spa⟩) trailer
  simp only [List.length_append, ArpHeader.length_bytes, ArpBody.length_bytes, ← List.append_assoc] at hsend
  rw [hpacket, hstored]
  exact hsend

/-! ### The ARP classes past their type checks (R118 to R120) -/

theorem exec_arpRequest (eth : EthHeader) (arp : ArpHeader) (body : ArpBody) (trailer : List Byte) (s : State) :
    exec (.arpRequest eth arp body trailer) s = finish ((s.learn arp.htype body.spa body.sha).notForUs .arp body.tpa State.arpReply) := rfl

theorem exec_arpReplyIn (eth : EthHeader) (arp : ArpHeader) (body : ArpBody) (trailer : List Byte) (s : State) :
    exec (.arpReplyIn eth arp body trailer) s =
      finish ((s.learn arp.htype body.spa body.sha).notForUs .arp body.tpa (drop .unhandledOpcode .arp)) := rfl

theorem exec_arpOpcodeOther (eth : EthHeader) (arp : ArpHeader) (body : ArpBody) (trailer : List Byte) (s : State) :
    exec (.arpOpcodeOther eth arp body trailer) s =
      finish ((s.learn arp.htype body.spa body.sha).notForUs .arp body.tpa (drop .unhandledOpcode .arp)) := rfl

/-- R118, past the destination check: ARP_REQUEST on its own frame is answered. -/
theorem exec_arpRequest_of_passesCheck {s : State} {body : ArpBody} (h : passesCheck s.cfg body.tpa) (eth : EthHeader) (arp : ArpHeader)
    (trailer : List Byte) :
    exec (.arpRequest eth arp body trailer) (s.loadFrame (encode (.arpRequest eth arp body trailer))) =
      .next ((({ s with reports := [], out := none } : State).arpAdmitted arp body |>.emit (arpReplyFrame s.cfg arp body)).withBytes
        (arpReplyFrame s.cfg arp body ++ trailer)) := by
  rw [exec_arpRequest, State.learn_notForUs_of_passesCheck (by simpa using h), State.loadFrame_eq, State.arpAdmitted_withBytes, encode,
    State.arpReply_withBytes, finish_ok, State.arpAdmitted_cfg]

/-- R24, R110 step A6: under DROP, a step whose class learns the sender and checks the target ends at the mismatch. -/
theorem endFrame_of_not_passesCheck {s : State} {body : ArpBody} (h : ¬ passesCheck s.cfg body.tpa) (arp : ArpHeader)
    (go : State → Op State) (bytes : List Byte) (v : Verdict) (rest : List Stimulus) :
    endFrame (finish ((((s.take rest v).loadFrame bytes).learn arp.htype body.spa body.sha).notForUs .arp body.tpa go)) =
      .next (s.afterFrame rest v (learnedCache s.cache arp.htype body.spa body.sha)
        ([⟨learnReport s.cache arp.htype body.spa body.sha, .arp⟩] ++ mismatchReports s.cfg .arp body.tpa) none) := by
  rw [State.learn_notForUs_of_not_passesCheck (by simpa using h)]
  rfl

/-! ### The statements -/

/-- Settles O38: the decoded frame is the frame that the class encodes, so past the check it is answered; the other end is shared with the other
opcodes. -/
theorem arpRequestStep : Obligations.ArpRequestStep := by
  intro s bytes v rest eth arp body trailer ho hd
  have hstep := step_of_offers ho
  rw [hd] at hstep
  refine ⟨fun hpass => ⟨?answered, length_arpReplyFrame s.cfg arp body⟩, fun hfail => ?ended⟩
  case answered =>
    rw [hstep, ← encode_decode bytes, hd, exec_arpRequest_of_passesCheck (by simpa using hpass), State.emit_eq]
    rfl
  case ended =>
    rw [hstep, exec_arpRequest]
    exact endFrame_of_not_passesCheck hfail arp _ bytes v rest

/-- Settles O39: both classes have the same meaning, a learned sender and then the drop, which the check may come before. -/
theorem arpOtherOpcodeSteps : Obligations.ArpOtherOpcodeSteps := by
  intro s bytes v rest eth arp body trailer ho hd
  have hstep : step s = endFrame (finish ((((s.take rest v).loadFrame bytes).learn arp.htype body.spa body.sha).notForUs .arp body.tpa
      (drop .unhandledOpcode .arp))) := by
    rw [step_of_offers ho]
    obtain hd | hd := hd
    · rw [hd, exec_arpReplyIn]
    · rw [hd, exec_arpOpcodeOther]
  refine ⟨fun hpass => ?dropped, fun hfail => ?ended⟩
  case dropped =>
    rw [hstep, State.learn_notForUs_of_passesCheck (by simpa using hpass)]
    rfl
  case ended =>
    rw [hstep]
    exact endFrame_of_not_passesCheck hfail arp _ bytes v rest

/-- Settles O17: the first entry that the search finds holds the key, and no entry before it does. -/
theorem cacheUpdateOverwritesFirstMatch : Obligations.CacheUpdateOverwritesFirstMatch := by
  intro es ht ip hw
  refine ⟨cacheUpdate_eq_none_iff, fun es' h => ?_⟩
  rw [cacheUpdate_eq_findIdx?, Option.map_eq_some_iff] at h
  obtain ⟨i, hfound, rfl⟩ := h
  obtain ⟨hi, hkey, hbefore⟩ := List.findIdx?_eq_some_iff_getElem.1 hfound
  refine ⟨i, ?first, fun j hj m hjm => ?before, rfl⟩
  case first =>
    obtain ⟨m, hm⟩ := CacheEntry.hasKey_iff.1 hkey
    exact ⟨m, List.getElem?_eq_some_iff.2 ⟨hi, hm⟩⟩
  case before =>
    obtain ⟨hjl, hjm⟩ := List.getElem?_eq_some_iff.1 hjm
    exact hbefore j hj (CacheEntry.hasKey_iff.2 ⟨m, hjm⟩)

/-- Settles O18: the first entry that the search finds is Free, and no entry before it is. -/
theorem cacheInsertTakesFirstFree : Obligations.CacheInsertTakesFirstFree := by
  intro es ht ip hw
  refine ⟨cacheInsert_eq_none_iff, fun es' h => ?_⟩
  rw [cacheInsert_eq_findIdx?, Option.map_eq_some_iff] at h
  obtain ⟨i, hfound, rfl⟩ := h
  obtain ⟨hi, hfree, hbefore⟩ := List.findIdx?_eq_some_iff_getElem.1 hfound
  refine ⟨i, List.getElem?_eq_some_iff.2 ⟨hi, beq_iff_eq.1 hfree⟩, fun j hj hjf => ?before, rfl⟩
  case before =>
    obtain ⟨hjl, hjf⟩ := List.getElem?_eq_some_iff.1 hjf
    exact hbefore j hj (beq_iff_eq.2 hjf)

/-- Settles O35: a frame of at least 22 bytes holds the fixed ARP header, whose first two fields the decoder checks in this order. -/
theorem arpTypeFaultSteps : Obligations.ArpTypeFaultSteps := by
  intro s bytes v rest ho hlen hetype
  have hpayload : 8 ≤ (bytes.drop 14).length := by rw [List.length_drop]; omega
  refine ⟨fun hh => ?htype, fun hh hp => ?ptype⟩
  case htype =>
    rw [step_of_offers ho, decode_of_arpEtype (by omega) hetype, decodeArp_of_badHtype _ hpayload (by rwa [be16At_drop])]
    exact endFrame_drop s bytes v rest .unsupportedHardware .arp
  case ptype =>
    rw [step_of_offers ho, decode_of_arpEtype (by omega) hetype,
      decodeArp_of_badPtype _ hpayload (by rwa [be16At_drop]) (by rwa [be16At_drop])]
    exact endFrame_drop s bytes v rest .arpUnsupportedProtocol .arp

end Machine

end Sys2Proof
end

section
/-! SUPPORT. The IPv4 family (42_ipv4.md): the header's fields as the frame's bytes give them and as the decoder parses them (R73, R75), the decoder's
rows for the header checks (R79), and the four header faults and the class of another protocol as steps (R135 to R137, R139, R141). -/

namespace Sys2Proof

/-! ### The header's fields, read from the frame and parsed (R73, R75, R76) -/

theorem toNat_high_nibble (b : Byte) : ((b >>> 4) &&& 0xF#8).toNat = (b.extractLsb' 4 4).toNat := by
  rw [BitVec.toNat_and, BitVec.toNat_ushiftRight, BitVec.extractLsb'_toNat]
  exact Nat.and_two_pow_sub_one_eq_mod _ 4

theorem toNat_low_nibble (b : Byte) : (b &&& 0xF#8).toNat = (b.extractLsb' 0 4).toNat := by
  rw [BitVec.toNat_and, BitVec.extractLsb'_toNat]
  exact Nat.and_two_pow_sub_one_eq_mod _ 4

theorem verOf_eq_four_iff (bs : List Byte) : verOf bs = 4 ↔ (IpHeader.parse (bs.drop 14)).ver = 4#4 := by
  simp only [verOf, IpHeader.parse, byteAt_drop, toNat_high_nibble, BitVec.toNat_eq]
  rfl

theorem ihlOf_eq_parse (bs : List Byte) : ihlOf bs = (IpHeader.parse (bs.drop 14)).ihl.toNat := by
  simp only [ihlOf, IpHeader.parse, byteAt_drop, toNat_low_nibble]

theorem ttl_parse (bs : List Byte) : (IpHeader.parse (bs.drop 14)).ttl = byteAt bs 22 := byteAt_drop bs 14 8

theorem ihlOf_mul_four (bs : List Byte) : ihlOf bs * 4 = (IpHeader.parse (bs.drop 14)).headerLen := by
  rw [ihlOf_eq_parse, IpHeader.headerLen]

theorem headerCsumOf_eq_parse (bs : List Byte) :
    headerCsumOf bs = internetChecksum ((bs.drop 14).take (IpHeader.parse (bs.drop 14)).headerLen) := by
  rw [headerCsumOf, ihlOf_mul_four]

theorem payloadLen_eq_length (bs : List Byte) : payloadLen bs = (bs.drop 14).length := (List.length_drop ..).symm

/-! ### The IPv4 rows of the decoder that the header checks take (R79) -/

theorem decode_of_ipv4Etype {bs : List Byte} (h : 14 ≤ bs.length) (hi : be16At bs 12 = etherTypeIpv4) :
    decode bs = decodeIp (EthHeader.parse bs) (bs.drop 14) := by
  have hne : be16At bs 12 ≠ etherTypeArp := by rw [hi]; decide
  exact (if_neg (Nat.not_lt.2 h)).trans ((if_neg fun hother => hother.2 hi).trans (if_neg hne))

section Rows

variable (eth : EthHeader) {p : List Byte}

theorem decodeIp_of_badVersion (h : 20 ≤ p.length) (hver : (IpHeader.parse p).ver ≠ 4#4) :
    decodeIp eth p = .ipBadVersion eth (IpHeader.parse p) (p.drop 20) := by
  dsimp only [decodeIp]
  rw [if_neg (Nat.not_lt.2 h), if_pos hver]

theorem decodeIp_of_badIhl (h : 20 ≤ p.length) (hver : (IpHeader.parse p).ver = 4#4) (hihl : (IpHeader.parse p).ihl.toNat < 5) :
    decodeIp eth p = .ipBadIhl eth (IpHeader.parse p) (p.drop 20) := by
  dsimp only [decodeIp]
  rw [if_neg (Nat.not_lt.2 h), if_neg (not_not_intro hver), if_pos hihl]

theorem decodeIp_of_ttlZero (h : 20 ≤ p.length) (hver : (IpHeader.parse p).ver = 4#4) (hihl : 5 ≤ (IpHeader.parse p).ihl.toNat)
    (httl : (IpHeader.parse p).ttl = 0#8) : decodeIp eth p = .ipTtlZero eth (IpHeader.parse p) (p.drop 20) := by
  dsimp only [decodeIp]
  rw [if_neg (Nat.not_lt.2 h), if_neg (not_not_intro hver), if_neg (Nat.not_lt.2 hihl), if_pos httl]

theorem decodeIp_of_badChecksum (h : 20 ≤ p.length) (hver : (IpHeader.parse p).ver = 4#4) (hihl : 5 ≤ (IpHeader.parse p).ihl.toNat)
    (httl : (IpHeader.parse p).ttl ≠ 0#8) (hhl : (IpHeader.parse p).headerLen ≤ p.length)
    (hsum : internetChecksum (p.take (IpHeader.parse p).headerLen) ≠ 0#16) :
    decodeIp eth p = .ipBadChecksum eth (IpHeader.parse p) (p.drop 20) := by
  dsimp only [decodeIp]
  rw [if_neg (Nat.not_lt.2 h), if_neg (not_not_intro hver), if_neg (Nat.not_lt.2 hihl), if_neg httl, if_neg (Nat.not_lt.2 hhl),
    if_pos hsum]

end Rows

namespace Machine

/-! ### A dropped frame and the destination check as steps (R131, R192) -/

/-- The step on an offered frame of a class whose whole meaning is one drop. -/
theorem step_of_dropped {s : State} {bytes : List Byte} {v : Verdict} {rest : List Stimulus} {i : Instr} {k : ReportKind} {l : Layer}
    (ho : s.Offers bytes v rest) (hd : decode bytes = i) (hi : ∀ u, exec i u = finish (drop k l u)) :
    step s = .next (s.afterFrame rest v s.cache [⟨k, l⟩] none) := by
  rw [step_of_offers ho, hd, hi]
  exact endFrame_drop s bytes v rest k l

/-- R131, then a drop: the mismatch, if any, is reported before the drop. -/
theorem endFrame_notForUs_drop {s : State} {ip : IpAddr} (h : passesCheck s.cfg ip) (l l' : Layer) (k : ReportKind) (bytes : List Byte)
    (v : Verdict) (rest : List Stimulus) :
    endFrame (finish (((s.take rest v).loadFrame bytes).notForUs l ip (drop k l'))) =
      .next (s.afterFrame rest v s.cache (mismatchReports s.cfg l ip ++ [⟨k, l'⟩]) none) := by
  rw [State.notForUs_of_passesCheck (by simpa using h)]
  rfl

/-- R24, R131: under DROP, a step whose class checks the destination first ends at the mismatch. -/
theorem endFrame_notForUs_of_not_passesCheck {s : State} {ip : IpAddr} (h : ¬ passesCheck s.cfg ip) (l : Layer) (go : State → Op State)
    (bytes : List Byte) (v : Verdict) (rest : List Stimulus) :
    endFrame (finish (((s.take rest v).loadFrame bytes).notForUs l ip go)) =
      .next (s.afterFrame rest v s.cache (mismatchReports s.cfg l ip) none) := by
  rw [State.notForUs_of_not_passesCheck (by simpa using h)]
  rfl

theorem exec_ipNotIcmp (eth : EthHeader) (ip : IpHeader) (more : List Byte) (s : State) :
    exec (.ipNotIcmp eth ip more) s = finish (s.notForUs .ip ip.dst (drop .ipUnsupportedProtocol .ip)) := rfl

/-! ### The statements -/

/-- Settles O36: a frame of at least 34 bytes holds the fixed IPv4 header, whose checks the decoder makes in this order; each class is one drop. -/
theorem ipHeaderFaultSteps : Obligations.IpHeaderFaultSteps := by
  intro s bytes v rest ho hlen hetype
  have hp : 20 ≤ (bytes.drop 14).length := by rw [List.length_drop]; omega
  have hd := decode_of_ipv4Etype (by omega) hetype
  simp only [ne_eq, verOf_eq_four_iff, ihlOf_eq_parse, ← ttl_parse, payloadLen_eq_length, headerCsumOf_eq_parse]
  refine ⟨fun hver => ?version, fun hver hihl => ?ihl, fun hver hihl httl => ?ttl, fun hver hihl httl hhl hsum => ?checksum⟩
  case version => exact step_of_dropped ho (hd.trans (decodeIp_of_badVersion _ hp hver)) fun _ => rfl
  case ihl => exact step_of_dropped ho (hd.trans (decodeIp_of_badIhl _ hp hver hihl)) fun _ => rfl
  case ttl => exact step_of_dropped ho (hd.trans (decodeIp_of_ttlZero _ hp hver hihl httl)) fun _ => rfl
  case checksum => exact step_of_dropped ho (hd.trans (decodeIp_of_badChecksum _ hp hver hihl httl hhl hsum)) fun _ => rfl

/-- Settles O40: the class is the destination check and then one drop. -/
theorem ipNotIcmpStep : Obligations.IpNotIcmpStep := by
  intro s bytes v rest eth ip more ho hd
  rw [step_of_offers ho, hd, exec_ipNotIcmp]
  exact ⟨fun hpass => endFrame_notForUs_drop hpass .ip .ip _ bytes v rest,
    fun hfail => endFrame_notForUs_of_not_passesCheck hfail .ip _ bytes v rest⟩

end Machine

end Sys2Proof
end

section
/-! SUPPORT. The ICMP family (44_icmp.md): the checksum as a sum of natural numbers and why a filled range verifies (R150, R151, R153), the headers of
a reply and the outbound frame (R81, R133, R161), ICMP_TO_REPLY and IP_REPLY on a frame of bytes, and the two replying classes as steps
(R163, R164). -/

namespace Sys2Proof

/-! ### The checksum in natural numbers (R150, R151) -/

/-- A 16-bit word of the range, as the accumulator takes it. -/
theorem toNat_checksumWord (x y : Byte) : ((x.setWidth 32 <<< 8) ||| y.setWidth 32).toNat = x.toNat * 256 + y.toNat := by
  have hx := x.isLt
  have hy := y.isLt
  have hshift : x.toNat <<< 8 = x.toNat * 256 := Nat.shiftLeft_eq ..
  rw [BitVec.toNat_or, BitVec.toNat_shiftLeft, BitVec.toNat_setWidth_of_le (by decide), BitVec.toNat_setWidth_of_le (by decide),
    Nat.mod_eq_of_lt (by omega), ← Nat.shiftLeft_add_eq_or_of_lt hy, hshift]

theorem toNat_checksumLastByte (x : Byte) : (x.setWidth 32 <<< 8).toNat = x.toNat * 256 := by
  simpa using toNat_checksumWord x 0#8

/-- The accumulator is the exact sum, but for its wrapping. -/
theorem toNat_sumWords (s : BitVec 32) (bs : List Byte) : (sumWords s bs).toNat = (s.toNat + wordSum bs) % 2 ^ 32 := by
  induction s, bs using sumWords.induct with
  | case1 s => simp [sumWords, wordSum, Nat.mod_eq_of_lt s.isLt]
  | case2 s x => rw [sumWords, BitVec.toNat_add, toNat_checksumLastByte, wordSum]
  | case3 s x y rest ih => rw [sumWords, ih, BitVec.toNat_add, toNat_checksumWord, wordSum, Nat.mod_add_mod, Nat.add_assoc]

theorem wordSum_le (bs : List Byte) : wordSum bs ≤ 0xFFFF * ((bs.length + 1) / 2) := by
  induction bs using wordSum.induct with
  | case1 => simp [wordSum]
  | case2 x =>
    have := x.isLt
    simp only [wordSum, List.length_singleton]
    omega
  | case3 x y rest ih =>
    have := x.isLt
    have := y.isLt
    simp only [wordSum, List.length_cons]
    omega

/-- A word sum of an even number of bytes and the rest. -/
theorem wordSum_append {a : List Byte} (h : a.length % 2 = 0) (b : List Byte) : wordSum (a ++ b) = wordSum a + wordSum b := by
  induction a using wordSum.induct with
  | case1 => simp [wordSum]
  | case2 x => simp at h
  | case3 x y rest ih =>
    simp only [List.length_cons] at h
    rw [List.cons_append, List.cons_append, wordSum, ih (by omega), wordSum, Nat.add_assoc (_ + _)]

@[simp] theorem wordSum_halfBytes (v : Half) : wordSum (halfBytes v) = v.toNat := by
  have := v.isLt
  simp [halfBytes, beBytes, wordSum]
  omega

/-- The fold loop stops when the sum fits 16 bits (R150). -/
theorem carries_eq_zero_iff (s : BitVec 32) : s >>> 16 = 0#32 ↔ s.toNat < 0x10000 := by
  rw [BitVec.toNat_eq, BitVec.toNat_ushiftRight, Nat.shiftRight_eq_div_pow, BitVec.toNat_ofNat]
  omega

/-- One round of the fold loop (R150). -/
theorem toNat_foldRound (s : BitVec 32) : ((s &&& 0xFFFF#32) + (s >>> 16)).toNat = s.toNat % 0x10000 + s.toNat / 0x10000 := by
  have hs := s.isLt
  have hlow : (s &&& 0xFFFF#32).toNat = s.toNat % 0x10000 := by
    rw [BitVec.toNat_and]
    exact Nat.and_two_pow_sub_one_eq_mod _ 16
  rw [BitVec.toNat_add, hlow, BitVec.toNat_ushiftRight, Nat.shiftRight_eq_div_pow]
  omega

/-- R151 items 2 and 3: two rounds are enough. -/
theorem toNat_foldCarries (s : BitVec 32) : (foldCarries 2 s).toNat = onesFold s.toNat := by
  have hs := s.isLt
  simp only [foldCarries, carries_eq_zero_iff, toNat_foldRound, onesFold]
  split
  · split <;> omega
  · split
    · rw [toNat_foldRound]
      split <;> omega
    · rw [toNat_foldRound, toNat_foldRound]
      split <;> omega

theorem onesFold_le (w : Nat) : onesFold w ≤ 0xFFFF := by
  unfold onesFold
  split <;> omega

/-- R151: the checksum of a range within the accumulator's bound is the complement of the folded exact sum. -/
theorem toNat_internetChecksum {bs : List Byte} (h : bs.length ≤ 131074) :
    (internetChecksum bs).toNat = 0xFFFF - onesFold (wordSum bs) := by
  have hsum := wordSum_le bs
  have hfold := onesFold_le (wordSum bs)
  have hexact : (sumWords 0#32 bs).toNat = wordSum bs := by
    rw [toNat_sumWords, BitVec.toNat_ofNat]
    omega
  rw [internetChecksum, BitVec.toNat_not, BitVec.toNat_setWidth, toNat_foldCarries, hexact]
  omega

/-- Adding the complement of a sum's fold makes a sum that folds to all ones. -/
theorem onesFold_add_complement (w : Nat) : onesFold (w + (0xFFFF - onesFold w)) = 0xFFFF := by
  simp only [onesFold]
  split <;> split <;> omega

/-- R153: a range whose checksum field, at an even offset, holds the checksum computed with the field zero, verifies. -/
theorem internetChecksum_filled {pre post : List Byte} (heven : pre.length % 2 = 0) (hlen : pre.length + 2 + post.length ≤ 131074) :
    internetChecksum (pre ++ (halfBytes (internetChecksum (pre ++ (halfBytes 0#16 ++ post))) ++ post)) = 0#16 := by
  have hsum : ∀ v, wordSum (pre ++ (halfBytes v ++ post)) = wordSum pre + (v.toNat + wordSum post) := fun v => by
    rw [wordSum_append heven, wordSum_append (by simp), wordSum_halfBytes]
  have hbound : ∀ v, (pre ++ (halfBytes v ++ post)).length ≤ 131074 := fun v => by simp; omega
  have hzero : wordSum (pre ++ (halfBytes 0#16 ++ post)) = wordSum pre + wordSum post := by rw [hsum]; simp
  have hc := toNat_internetChecksum (hbound 0#16)
  have hfold := onesFold_add_complement (wordSum pre + wordSum post)
  apply BitVec.eq_of_toNat_eq
  rw [toNat_internetChecksum (hbound _), hsum, hc, hzero, Nat.add_left_comm, Nat.add_comm, hfold]
  rfl

/-! ### The headers of a reply (R133, R161) -/

/-- The bytes of an IPv4 header before its checksum field (R73). -/
def IpHeader.bytesBeforeChecksum (h : IpHeader) : List Byte :=
  [h.ver ++ h.ihl, h.tos] ++ halfBytes h.tl ++ halfBytes h.ident ++ halfBytes (h.flags ++ h.fragOff) ++ [h.ttl, h.proto]

@[simp] theorem IpHeader.length_bytesBeforeChecksum (h : IpHeader) : h.bytesBeforeChecksum.length = 10 := by
  simp [IpHeader.bytesBeforeChecksum]

theorem IpHeader.bytes_append (h : IpHeader) (p : List Byte) :
    h.bytes ++ p = h.bytesBeforeChecksum ++ (halfBytes h.hcsum ++ (ipBytes h.src ++ (ipBytes h.dst ++ p))) := by
  simp only [IpHeader.bytes, IpHeader.bytesBeforeChecksum, List.append_assoc]

theorem IpHeader.reply_bytes_append (h : IpHeader) (c : Config) (options p : List Byte) :
    (h.reply c options).bytes ++ p = h.bytesBeforeChecksum ++
      (halfBytes (internetChecksum (h.bytesBeforeChecksum ++ (halfBytes 0#16 ++ (ipBytes c.devIp ++ (ipBytes h.src ++ options))))) ++
        (ipBytes c.devIp ++ (ipBytes h.src ++ p))) := by
  simp only [IpHeader.reply, IpHeader.bytes_append]
  rfl

theorem IcmpHeader.bytes_append (m : IcmpHeader) (p : List Byte) :
    m.bytes ++ p = [m.icmpType] ++ ([m.code] ++ (halfBytes m.csum ++ p)) := by
  simp only [IcmpHeader.bytes, List.cons_append, List.nil_append]

theorem IcmpHeader.reply_bytes_append (m : IcmpHeader) (data p : List Byte) :
    (m.reply data).bytes ++ p = [icmpEchoReplyType, m.code] ++
      (halfBytes (internetChecksum ([icmpEchoReplyType, m.code] ++ (halfBytes 0#16 ++ data))) ++ p) := by
  simp only [IcmpHeader.reply, IcmpHeader.bytes, List.append_assoc]

/-- R133, R153: the header of a reply verifies. -/
theorem internetChecksum_ipReply {h : IpHeader} (c : Config) {options : List Byte} (hlen : 20 + options.length = h.headerLen) :
    internetChecksum ((h.reply c options).bytes ++ options) = 0#16 := by
  have hihl := h.ihl.isLt
  rw [IpHeader.headerLen] at hlen
  rw [IpHeader.reply_bytes_append]
  exact internetChecksum_filled (by simp) (by simp; omega)

/-- R161, R153: the message of an echo reply verifies. -/
theorem internetChecksum_icmpReply (m : IcmpHeader) {data : List Byte} (hlen : data.length ≤ 131070) :
    internetChecksum ((m.reply data).bytes ++ data) = 0#16 := by
  rw [IcmpHeader.reply_bytes_append]
  exact internetChecksum_filled (by simp) (by simp; omega)

/-! ### The pieces of an ICMP frame, cut as the decoder cuts them (R73, R74, R76) -/

/-- The options fill the header span and the message fills the rest of the datagram. -/
structure IcmpLengths (ip : IpHeader) (options data : List Byte) : Prop where
  header : 20 + options.length = ip.headerLen
  datagram : ip.tl.toNat = ip.headerLen + 4 + data.length

/-- The operands of a class with an ICMP message have the lengths that IHL and TL give. -/
def Instr.icmpLengths : Instr → Prop
  | .icmpEchoRequest _ ip options _ data _ => IcmpLengths ip options data
  | .icmpOtherType _ ip options _ data _ => IcmpLengths ip options data
  | _ => True

theorem decodeArp_icmpLengths (eth : EthHeader) (p : List Byte) : (decodeArp eth p).icmpLengths := by
  dsimp only [decodeArp]
  repeat' split
  all_goals trivial

theorem decodeIcmp_icmpLengths (eth : EthHeader) {ip : IpHeader} {p : List Byte} (hhl : 20 ≤ ip.headerLen)
    (htl : ip.tl.toNat ≤ p.length) : (decodeIcmp eth ip p).icmpLengths := by
  dsimp only [decodeIcmp]
  split
  · trivial
  next hmsg =>
  have hlengths : IcmpLengths ip ((p.take ip.headerLen).drop 20) ((p.take ip.tl.toNat).drop (ip.headerLen + 4)) :=
    ⟨by simp; omega, by simp; omega⟩
  split
  · exact hlengths
  · exact hlengths

theorem decodeIp_icmpLengths (eth : EthHeader) (p : List Byte) : (decodeIp eth p).icmpLengths := by
  dsimp only [decodeIp]
  split
  · trivial
  split
  · trivial
  split
  · trivial
  next hihl =>
  iterate 3
    split
    · trivial
  split
  · trivial
  next htl =>
  split
  · trivial
  · exact decodeIcmp_icmpLengths eth (by simp only [IpHeader.headerLen]; omega) (by omega)

theorem decode_icmpLengths (bs : List Byte) : (decode bs).icmpLengths := by
  dsimp only [decode]
  split
  · trivial
  split
  · trivial
  split
  · exact decodeArp_icmpLengths _ _
  · exact decodeIp_icmpLengths _ _

/-! ### The outbound frame (R81, R133) -/

section ReplyFrame

variable (c : Config) (eth : EthHeader) (ip : IpHeader) (options message : List Byte)

theorem length_ipReplyFrame : (ipReplyFrame c eth ip options message).length = 34 + options.length + message.length := by
  simp [ipReplyFrame]
  omega

theorem ipReplyFrame_drop_eth :
    (ipReplyFrame c eth ip options message).drop 14 = (ip.reply c options).bytes ++ options ++ message := by
  simp only [ipReplyFrame, List.append_assoc]
  exact List.drop_left' (EthHeader.length_bytes _)

theorem ipReplyFrame_dst : be32At (ipReplyFrame c eth ip options message) 30 = ip.src := by
  simp [ipReplyFrame, IpHeader.reply_bytes_append, List.append_assoc, be32At_append]

theorem ipReplyFrame_src : be32At (ipReplyFrame c eth ip options message) 26 = c.devIp := by
  simp [ipReplyFrame, IpHeader.reply_bytes_append, List.append_assoc, be32At_append]

variable {ip options}

/-- R133: the header of the outbound frame verifies. -/
theorem internetChecksum_ipReplyFrame_header (hlen : 20 + options.length = ip.headerLen) :
    internetChecksum (((ipReplyFrame c eth ip options message).drop 14).take ip.headerLen) = 0#16 := by
  rw [ipReplyFrame_drop_eth, List.take_left' (by simpa using hlen), internetChecksum_ipReply c hlen]

/-- R132: the message follows the header span. -/
theorem ipReplyFrame_drop_header (hlen : 20 + options.length = ip.headerLen) :
    (ipReplyFrame c eth ip options message).drop (14 + ip.headerLen) = message := by
  rw [← List.drop_drop, ipReplyFrame_drop_eth, List.drop_left' (by simpa using hlen)]

end ReplyFrame

namespace Machine

/-! ### The two fills on a frame of bytes (R153, R161) -/

/-- CSUM_FILL on a range that stands between other bytes: the field's two bytes are replaced by the checksum computed with the field zero. -/
theorem State.csumFill_pieces (s : State) (before pre old post after : List Byte) (hold : old.length = 2) {a b f : Nat}
    (ha : a = before.length) (hf : f = a + pre.length) (hb : b = f + 2 + post.length) :
    (s.withBytes (before ++ (pre ++ (old ++ (post ++ after))))).csumFill a b f =
      .ok (s.withBytes (before ++ (pre ++ (halfBytes (internetChecksum (pre ++ (halfBytes 0#16 ++ post))) ++ (post ++ after))))) := by
  have hfield : ∀ (w v : List Byte), w.length = 2 → v.length = 2 →
      splice (before ++ (pre ++ (w ++ (post ++ after)))) f v = before ++ (pre ++ (v ++ (post ++ after))) := fun w v hw hv => by
    simpa only [List.append_assoc] using
      splice_append (a := before ++ pre) (b := w) (c := post ++ after) (w := v) (o := f) (by simp; omega) (by omega)
  have hrange : ((before ++ (pre ++ (halfBytes 0#16 ++ (post ++ after)))).drop a).take (b - a) = pre ++ (halfBytes 0#16 ++ post) := by
    rw [List.drop_left' ha.symm, ← List.append_assoc _ post, ← List.append_assoc pre]
    exact List.take_left' (by simp; omega)
  rw [State.csumFill_withBytes s (by simp; omega) (by simp; omega), hfield old _ hold (by simp), hrange, hfield _ _ (by simp) (by simp)]

/-- R161 on a frame of bytes: the message at its offset becomes the reply's. -/
theorem State.icmpToReply_withBytes (s : State) (before : List Byte) (icmp : IcmpHeader) (data after : List Byte) {i l : Nat}
    (hi : i = before.length) (hl : l = 4 + data.length) :
    (s.withBytes (before ++ (icmp.bytes ++ (data ++ after)))).icmpToReply i l =
      .ok (s.withBytes (before ++ ((icmp.reply data).bytes ++ (data ++ after)))) := by
  have htype := splice_append (a := before) (b := [icmp.icmpType]) (c := [icmp.code] ++ (halfBytes icmp.csum ++ (data ++ after)))
    (w := [icmpEchoReplyType]) hi.symm rfl
  rw [IcmpHeader.bytes_append, IcmpHeader.reply_bytes_append, State.icmpToReply, State.writeByte_withBytes s _ (by simp; omega),
    ok_bind, htype]
  exact State.csumFill_pieces s before [icmpEchoReplyType, icmp.code] (halfBytes icmp.csum) data after (by simp) hi rfl
    (by omega)

/-! ### IP_REPLY on a frame of bytes (R133) -/

/-- R133: the two stores of IP_REPLY replace the addresses of the header. -/
theorem splice_ipReply_addresses (before after : List Byte) (src dst src' dst' : IpAddr) (h : before.length = 26) :
    splice (splice (before ++ (ipBytes src ++ (ipBytes dst ++ after))) 30 (ipBytes dst')) 26 (ipBytes src') =
      before ++ (ipBytes src' ++ (ipBytes dst' ++ after)) := by
  have hdst := splice_append (a := before ++ ipBytes src) (b := ipBytes dst) (c := after) (w := ipBytes dst') (o := 30) (by simp [h])
    (by simp)
  rw [← List.append_assoc before, hdst, List.append_assoc]
  exact splice_append h (by simp)

/-- R133, R153: with the new addresses in place, the fill over the header span completes the header of the reply. -/
theorem State.csumFill_ipReply_header (s : State) (eth : EthHeader) (ip : IpHeader) (options after : List Byte) {hl : Nat}
    (hhl : 20 + options.length = hl) :
    (s.withBytes (eth.bytes ++ (ip.bytesBeforeChecksum ++ (halfBytes ip.hcsum ++
      (ipBytes s.cfg.devIp ++ (ipBytes ip.src ++ (options ++ after))))))).csumFill 14 (14 + hl) 24 =
      .ok (s.withBytes (eth.bytes ++ ((ip.reply s.cfg options).bytes ++ (options ++ after)))) := by
  have hfill := s.csumFill_pieces eth.bytes ip.bytesBeforeChecksum (halfBytes ip.hcsum)
    (ipBytes s.cfg.devIp ++ (ipBytes ip.src ++ options)) after (by simp) (a := 14) (b := 14 + hl) (f := 24) (by simp) (by simp)
    (by simp; omega)
  rw [IpHeader.reply_bytes_append]
  simpa only [List.append_assoc] using hfill

/-- R133: on the bytes of an IPv4 frame, the reply that carries the message stands in the buffer before the unchanged trailing bytes, and is sent. -/
theorem State.ipReply_withBytes (s : State) (eth : EthHeader) (ip : IpHeader) (options message trailer : List Byte) {hl tl : Nat}
    (hhl : 20 + options.length = hl) (htl : tl = hl + message.length) :
    (s.withBytes (eth.bytes ++ (ip.bytes ++ (options ++ (message ++ trailer))))).ipReply hl tl =
      .ok ((s.emit (ipReplyFrame s.cfg eth ip options message)).withBytes (ipReplyFrame s.cfg eth ip options message ++ trailer)) := by
  have hsrc : be32At (eth.bytes ++ (ip.bytes ++ (options ++ (message ++ trailer)))) 26 = ip.src := by
    simp [IpHeader.bytes_append, be32At_append]
  have hethsrc : macAt (eth.bytes ++ (ip.bytes ++ (options ++ (message ++ trailer)))) 6 = eth.src := by
    simp [EthHeader.bytes, List.append_assoc, macAt_append]
  have haddresses := splice_ipReply_addresses (eth.bytes ++ (ip.bytesBeforeChecksum ++ halfBytes ip.hcsum))
    (options ++ (message ++ trailer)) ip.src ip.dst s.cfg.devIp ip.src (by simp)
  have hlength : ((ip.reply s.cfg options).bytes ++ (options ++ message)).length = tl := by simp; omega
  have hsend := s.send_payload etherTypeIpv4 eth.src eth ((ip.reply s.cfg options).bytes ++ (options ++ message)) trailer
  have hbound : 34 ≤ (eth.bytes ++ (ip.bytes ++ (options ++ (message ++ trailer)))).length := by simp; omega
  simp only [List.append_assoc, ← IpHeader.bytes_append] at haddresses
  simp only [hlength, List.append_assoc] at hsend
  rw [State.ipReply, State.readIp_withBytes s (by omega), ok_bind, State.readMac_withBytes s (by omega), ok_bind, hsrc, hethsrc,
    State.writeIp_withBytes s _ (by omega), ok_bind, State.withBytes_cfg,
    State.writeIp_withBytes s _ (by rw [length_splice] <;> (simp; omega)), ok_bind, haddresses,
    s.csumFill_ipReply_header eth ip options _ hhl, ok_bind, hsend]
  simp only [ipReplyFrame, List.append_assoc]

/-! ### The replying ICMP classes (R163, R164) -/

theorem exec_icmpEchoRequest (eth : EthHeader) (ip : IpHeader) (options : List Byte) (icmp : IcmpHeader) (data trailer : List Byte)
    (s : State) :
    exec (.icmpEchoRequest eth ip options icmp data trailer) s = finish (s.notForUs .ip ip.dst fun u =>
      u.icmpToReply (14 + ip.headerLen) (ip.tl.toNat - ip.headerLen) >>= fun u => u.ipReply ip.headerLen ip.tl.toNat) := rfl

theorem exec_icmpOtherType (eth : EthHeader) (ip : IpHeader) (options : List Byte) (icmp : IcmpHeader) (data trailer : List Byte)
    (s : State) :
    exec (.icmpOtherType eth ip options icmp data trailer) s = finish (s.notForUs .ip ip.dst fun u =>
      (u.report .unhandledIcmpType .icmp).ipReply ip.headerLen ip.tl.toNat) := rfl

/-- The state of a frame step with the reports made so far and nothing sent. -/
def State.reporting (s : State) (reports : List Report) : State := { s with reports := reports, out := none }

@[simp] theorem State.reporting_cfg (s : State) (reports : List Report) : (s.reporting reports).cfg = s.cfg := rfl

theorem State.report_reporting (s : State) (reports : List Report) (k : ReportKind) (l : Layer) :
    (s.reporting reports).report k l = s.reporting (reports ++ [⟨k, l⟩]) := rfl

/-- R131 on a loaded frame that passes the check: the frame goes on with the mismatch, if any, as its only report. -/
theorem State.loadFrame_notForUs_of_passesCheck {s : State} {ip : IpAddr} (h : passesCheck s.cfg ip) (l : Layer) (bs : List Byte)
    (go : State → Op State) :
    (s.loadFrame bs).notForUs l ip go =
      go ((s.reporting (mismatchReports s.cfg l ip)).withBytes bs) :=
  State.notForUs_of_passesCheck (s := s.loadFrame bs) h l go

/-- R163, past the destination check: ICMP_ECHO_REQUEST on its own frame is answered. -/
theorem exec_icmpEchoRequest_of_passesCheck {s : State} {ip : IpHeader} {options data : List Byte} (h : passesCheck s.cfg ip.dst)
    (hlen : IcmpLengths ip options data) (eth : EthHeader) (icmp : IcmpHeader) (trailer : List Byte) :
    exec (.icmpEchoRequest eth ip options icmp data trailer) (s.loadFrame (encode (.icmpEchoRequest eth ip options icmp data trailer))) =
      .next (((s.reporting (mismatchReports s.cfg .ip ip.dst)).emit
        (ipReplyFrame s.cfg eth ip options ((icmp.reply data).bytes ++ data))).withBytes
          (ipReplyFrame s.cfg eth ip options ((icmp.reply data).bytes ++ data) ++ trailer)) := by
  obtain ⟨hheader, hdatagram⟩ := hlen
  have hmessage := State.icmpToReply_withBytes (s.reporting (mismatchReports s.cfg .ip ip.dst))
    (eth.bytes ++ (ip.bytes ++ options)) icmp data trailer (i := 14 + ip.headerLen) (l := ip.tl.toNat - ip.headerLen)
    (by simp; omega) (by omega)
  have hreply := State.ipReply_withBytes (s.reporting (mismatchReports s.cfg .ip ip.dst)) eth ip options
    ((icmp.reply data).bytes ++ data) trailer hheader (tl := ip.tl.toNat) (by simp; omega)
  simp only [List.append_assoc, State.reporting_cfg] at hmessage hreply
  simp only [exec_icmpEchoRequest, encode, List.append_assoc]
  rw [State.loadFrame_notForUs_of_passesCheck h, hmessage, ok_bind, hreply, finish_ok]

/-- R164, past the destination check: ICMP_OTHER_TYPE on its own frame is reported and its message reflected. -/
theorem exec_icmpOtherType_of_passesCheck {s : State} {ip : IpHeader} {options data : List Byte} (h : passesCheck s.cfg ip.dst)
    (hlen : IcmpLengths ip options data) (eth : EthHeader) (icmp : IcmpHeader) (trailer : List Byte) :
    exec (.icmpOtherType eth ip options icmp data trailer) (s.loadFrame (encode (.icmpOtherType eth ip options icmp data trailer))) =
      .next (((s.reporting (mismatchReports s.cfg .ip ip.dst ++ [⟨.unhandledIcmpType, .icmp⟩])).emit
        (ipReplyFrame s.cfg eth ip options (icmp.bytes ++ data))).withBytes
          (ipReplyFrame s.cfg eth ip options (icmp.bytes ++ data) ++ trailer)) := by
  obtain ⟨hheader, hdatagram⟩ := hlen
  have hreply := State.ipReply_withBytes
    (s.reporting (mismatchReports s.cfg .ip ip.dst ++ [⟨.unhandledIcmpType, .icmp⟩])) eth ip options
    (icmp.bytes ++ data) trailer hheader (tl := ip.tl.toNat) (by simp; omega)
  simp only [List.append_assoc, State.reporting_cfg] at hreply
  simp only [exec_icmpOtherType, encode, List.append_assoc]
  rw [State.loadFrame_notForUs_of_passesCheck h, State.report_withBytes, State.report_reporting, hreply, finish_ok]

/-- R170, R181: a frame that ends in a send. -/
theorem endFrame_emit (s : State) (rest : List Stimulus) (v : Verdict) (reports : List Report) (f bs : List Byte) :
    endFrame (.next ((((s.take rest v).reporting reports).emit f).withBytes bs)) =
      .next (s.afterFrame rest v s.cache (reports ++ verdictReports v) (some f)) := by
  rw [State.emit_eq]
  rfl

/-! ### The statements -/

/-- Settles O41: the decoded frame is the frame that the class encodes, so past the check it is answered; both sums of the answer were filled. -/
theorem echoRequestStep : Obligations.EchoRequestStep := by
  intro s bytes v rest eth ip options icmp data trailer ho hd
  have hlen : IcmpLengths ip options data := by simpa only [hd, Instr.icmpLengths] using decode_icmpLengths bytes
  have hheader := hlen.header
  have hdatagram := hlen.datagram
  have hstep := step_of_offers ho
  rw [hd] at hstep
  refine ⟨fun hpass => ⟨_, ?answered, rfl, ?length, ?headerVerifies, ?messageVerifies, ?type, ipReplyFrame_dst .., ipReplyFrame_src ..⟩,
    fun hfail => ?ended⟩
  case answered =>
    rw [hstep, ← encode_decode bytes, hd, exec_icmpEchoRequest_of_passesCheck (s := s.take rest v) hpass hlen]
    exact endFrame_emit s rest v _ _ _
  case length =>
    rw [length_ipReplyFrame, List.length_append, IcmpHeader.length_bytes]
    omega
  case headerVerifies => exact internetChecksum_ipReplyFrame_header _ _ _ hheader
  case messageVerifies =>
    have htl := ip.tl.isLt
    rw [ipReplyFrame_drop_header _ _ _ hheader, internetChecksum_icmpReply icmp (by omega)]
  case type =>
    rw [← Nat.add_zero (14 + ip.headerLen), ← byteAt_drop, ipReplyFrame_drop_header _ _ _ hheader, IcmpHeader.bytes_append]
    exact byteAt_cons_zero _ _
  case ended =>
    rw [hstep, exec_icmpEchoRequest]
    exact endFrame_notForUs_of_not_passesCheck hfail .ip _ bytes v rest

/-- Settles O42: as O41, but the message stays the one in the decoded frame, which is the frame that the class encodes. -/
theorem otherIcmpTypeStep : Obligations.OtherIcmpTypeStep := by
  intro s bytes v rest eth ip options icmp data trailer ho hd
  have hlen : IcmpLengths ip options data := by simpa only [hd, Instr.icmpLengths] using decode_icmpLengths bytes
  have hheader := hlen.header
  have hdatagram := hlen.datagram
  have hstep := step_of_offers ho
  rw [hd] at hstep
  refine ⟨fun hpass => ⟨_, ?reflected, rfl, ?length, internetChecksum_ipReplyFrame_header _ _ _ hheader, ?message⟩, fun hfail => ?ended⟩
  case reflected =>
    rw [hstep, ← encode_decode bytes, hd, exec_icmpOtherType_of_passesCheck (s := s.take rest v) hpass hlen]
    exact endFrame_emit s rest v _ _ _
  case length =>
    rw [length_ipReplyFrame, List.length_append, IcmpHeader.length_bytes]
    omega
  case message =>
    have hbytes : bytes = eth.bytes ++ ip.bytes ++ options ++ ((icmp.bytes ++ data) ++ trailer) := by
      rw [← encode_decode bytes, hd]
      simp only [encode, List.append_assoc]
    rw [ipReplyFrame_drop_header _ _ _ hheader, hbytes, List.drop_left' (by simp; omega), List.take_left' (by simp; omega)]
  case ended =>
    rw [hstep, exec_icmpOtherType]
    exact endFrame_notForUs_of_not_passesCheck hfail .ip _ bytes v rest

end Machine

end Sys2Proof
end

section
/-! SUPPORT. Encoding (30_encoding.md R71 to R79): every decoded frame is well formed, and the decoder reads an encoded instruction back. -/

namespace Sys2Proof

/-! ### The conditions of R79 that rows share -/

theorem arpTypesOk_iff {eth : EthHeader} {arp : ArpHeader} :
    arpTypesOk eth arp = true ↔ eth.etype = etherTypeArp ∧ arp.htype = arpHardwareEthernet ∧ arp.ptype = arpProtocolIpv4 := by
  simp [arpTypesOk, and_assoc]

theorem ipFieldsOk_iff {eth : EthHeader} {ip : IpHeader} :
    ipFieldsOk eth ip = true ↔ eth.etype = etherTypeIpv4 ∧ ip.ver = 4#4 ∧ 5 ≤ ip.ihl.toNat ∧ ip.ttl ≠ 0#8 := by
  simp [ipFieldsOk, and_assoc]

theorem ipHeaderOk_iff {eth : EthHeader} {ip : IpHeader} {rest : List Byte} :
    ipHeaderOk eth ip rest = true ↔ ipFieldsOk eth ip = true ∧ ip.headerLen ≤ 20 + rest.length ∧
      internetChecksum ((ip.bytes ++ rest).take ip.headerLen) = 0#16 := by
  simp [ipHeaderOk, and_assoc]

theorem ipValid_iff {eth : EthHeader} {ip : IpHeader} {rest : List Byte} :
    ipValid eth ip rest = true ↔
      ipHeaderOk eth ip rest = true ∧ ip.headerLen ≤ ip.tl.toNat ∧ ip.tl.toNat ≤ 20 + rest.length := by
  simp [ipValid, and_assoc]

theorem icmpValid_iff {eth : EthHeader} {ip : IpHeader} {options : List Byte} {icmp : IcmpHeader} {data trailer : List Byte} :
    icmpValid eth ip options icmp data trailer = true ↔
      ipValid eth ip (options ++ icmp.bytes ++ data ++ trailer) = true ∧ ip.proto = ipProtocolIcmp ∧ IcmpLengths ip options data := by
  simp only [icmpValid, Bool.and_eq_true, beq_iff_eq, decide_eq_true_eq, and_assoc]
  exact and_congr_right' (and_congr_right' ⟨fun ⟨hheader, hdatagram⟩ => ⟨hheader, hdatagram⟩, fun h => ⟨h.header, h.datagram⟩⟩)

theorem etype_of_ipFieldsOk {eth : EthHeader} {ip : IpHeader} (h : ipFieldsOk eth ip = true) : eth.etype = etherTypeIpv4 :=
  (ipFieldsOk_iff.1 h).1

theorem etype_of_ipHeaderOk {eth : EthHeader} {ip : IpHeader} {rest : List Byte} (h : ipHeaderOk eth ip rest = true) :
    eth.etype = etherTypeIpv4 := etype_of_ipFieldsOk (ipHeaderOk_iff.1 h).1

theorem etype_of_ipValid {eth : EthHeader} {ip : IpHeader} {rest : List Byte} (h : ipValid eth ip rest = true) :
    eth.etype = etherTypeIpv4 := etype_of_ipHeaderOk (ipValid_iff.1 h).1

/-! ### A decoded frame is well formed (R79) -/

theorem decodeArp_wellFormed {eth : EthHeader} (he : eth.etype = etherTypeArp) (p : List Byte) :
    (decodeArp eth p).wellFormed = true := by
  dsimp only [decodeArp]
  split
  · next hlen => simp [Instr.wellFormed, he, hlen]
  split
  · next hh => simp [Instr.wellFormed, he, hh]
  next hh =>
  split
  · next hp => simp [Instr.wellFormed, he, not_not.1 hh, hp]
  next hp =>
  have htypes : arpTypesOk eth (ArpHeader.parse p) = true := arpTypesOk_iff.2 ⟨he, not_not.1 hh, not_not.1 hp⟩
  split
  · simp [Instr.wellFormed, htypes]
    omega
  split
  · next ho => simp [Instr.wellFormed, htypes, ho]
  next ho =>
  split
  · next ho' => simp [Instr.wellFormed, htypes, ho']
  · next ho' => simp [Instr.wellFormed, htypes, ho, ho']

/-- The options, the message and the padding, as the decoder cuts them, are what follows the first 20 bytes. -/
theorem icmp_pieces {p : List Byte} {hl tl : Nat} (hhl : 20 ≤ hl) (hmsg : hl + 4 ≤ tl) (htl : tl ≤ p.length) :
    (p.take hl).drop 20 ++ (IcmpHeader.parse (p.drop hl)).bytes ++ (p.take tl).drop (hl + 4) ++ p.drop tl = p.drop 20 := by
  have hpieces : (p.take hl).drop 20 ++ (p.drop hl).take 4 = (p.take (hl + 4)).drop 20 := by
    rw [← take_append_piece p hl 4, List.drop_append_of_le_length (by simp; omega)]
  have hdatagram : (p.take (hl + 4)).drop 20 ++ (p.take tl).drop (hl + 4) = (p.take tl).drop 20 := by
    conv_rhs => rw [← List.take_append_drop (hl + 4) (p.take tl), List.take_take, Nat.min_eq_left hmsg]
    rw [List.drop_append_of_le_length (by simp; omega)]
  rw [IcmpHeader.bytes_parse (by simp; omega), hpieces, hdatagram]
  conv_rhs => rw [← List.take_append_drop tl p]
  rw [List.drop_append_of_le_length (by simp; omega)]

theorem decodeIcmp_wellFormed {eth : EthHeader} {p : List Byte} (hvalid : ipValid eth (IpHeader.parse p) (p.drop 20) = true)
    (hproto : (IpHeader.parse p).proto = ipProtocolIcmp) (hhl : 20 ≤ (IpHeader.parse p).headerLen)
    (htl : (IpHeader.parse p).tl.toNat ≤ p.length) (hle : (IpHeader.parse p).headerLen ≤ (IpHeader.parse p).tl.toNat) :
    (decodeIcmp eth (IpHeader.parse p) p).wellFormed = true := by
  dsimp only [decodeIcmp]
  generalize IpHeader.parse p = ip at *
  split
  · next hmsg => simp [Instr.wellFormed, hvalid, hproto, hmsg]
  next hmsg =>
  have hmessage : icmpValid eth ip ((p.take ip.headerLen).drop 20) (IcmpHeader.parse (p.drop ip.headerLen))
      ((p.take ip.tl.toNat).drop (ip.headerLen + 4)) (p.drop ip.tl.toNat) = true := by
    refine icmpValid_iff.2 ⟨?_, hproto, ⟨by simp; omega, by simp; omega⟩⟩
    rwa [icmp_pieces hhl (by omega) htl]
  split
  · next ht => simp [Instr.wellFormed, hmessage, ht]
  · next ht => simp [Instr.wellFormed, hmessage, ht]

theorem decodeIp_wellFormed {eth : EthHeader} (he : eth.etype = etherTypeIpv4) (p : List Byte) :
    (decodeIp eth p).wellFormed = true := by
  dsimp only [decodeIp]
  split
  · next hlen => simp [Instr.wellFormed, he, hlen]
  next hlen =>
  have hbytes : (IpHeader.parse p).bytes ++ p.drop 20 = p := by rw [IpHeader.bytes_parse (by omega), List.take_append_drop]
  have hrest : 20 + (p.drop 20).length = p.length := by simp; omega
  split
  · next hver => simp [Instr.wellFormed, he, hver]
  next hver =>
  split
  · next hihl => simp [Instr.wellFormed, he, not_not.1 hver, hihl]
  next hihl =>
  split
  · next httl => simp [Instr.wellFormed, he, not_not.1 hver, httl]; omega
  next httl =>
  have hfields : ipFieldsOk eth (IpHeader.parse p) = true := ipFieldsOk_iff.2 ⟨he, not_not.1 hver, Nat.not_lt.1 hihl, httl⟩
  split
  · next hhl => simp only [Instr.wellFormed, hfields, hrest, hhl, decide_true, Bool.and_true]
  next hhl =>
  split
  · next hsum =>
    simp only [Instr.wellFormed, hfields, hrest, Nat.not_lt.1 hhl, hbytes, decide_true, Bool.true_and, bne_iff_ne]
    exact hsum
  next hsum =>
  have hheader : ipHeaderOk eth (IpHeader.parse p) (p.drop 20) = true :=
    ipHeaderOk_iff.2 ⟨hfields, hrest.symm ▸ Nat.not_lt.1 hhl, hbytes.symm ▸ not_not.1 hsum⟩
  split
  · next htl => simpa only [Instr.wellFormed, hheader, hrest, Bool.true_and, Bool.or_eq_true, decide_eq_true_eq] using htl
  next htl =>
  have hvalid : ipValid eth (IpHeader.parse p) (p.drop 20) = true := ipValid_iff.2 ⟨hheader, by omega, by omega⟩
  split
  · next hproto => simp [Instr.wellFormed, hvalid, hproto]
  · next hproto =>
    exact decodeIcmp_wellFormed hvalid (not_not.1 hproto) (by simp only [IpHeader.headerLen]; omega) (by omega) (by omega)

theorem decode_wellFormed (bs : List Byte) : (decode bs).wellFormed = true := by
  dsimp only [decode]
  split
  · next hlen => simp [Instr.wellFormed, hlen]
  split
  · next hother => simp [Instr.wellFormed, hother]
  next hknown =>
  split
  · next ha => exact decodeArp_wellFormed ha _
  · next ha => exact decodeIp_wellFormed (not_not.1 fun hi => hknown ⟨ha, hi⟩) _

/-! ### The decoder on the bytes of an instruction (R71 to R74) -/

theorem decode_ethBytes (eth : EthHeader) (p : List Byte) :
    decode (eth.bytes ++ p) =
      if eth.etype ≠ etherTypeArp ∧ eth.etype ≠ etherTypeIpv4 then .ethOther eth p
      else if eth.etype = etherTypeArp then decodeArp eth p
      else decodeIp eth p := by
  have hlen : ¬ (eth.bytes ++ p).length < 14 := by simp
  dsimp only [decode]
  rw [if_neg hlen, EthHeader.parse_bytes, List.drop_left' eth.length_bytes]

theorem decode_arpBytes {eth : EthHeader} (he : eth.etype = etherTypeArp) (p : List Byte) :
    decode (eth.bytes ++ p) = decodeArp eth p := by
  rw [decode_ethBytes, if_neg (fun hother => hother.1 he), if_pos he]

theorem decode_ipBytes {eth : EthHeader} (he : eth.etype = etherTypeIpv4) (p : List Byte) :
    decode (eth.bytes ++ p) = decodeIp eth p := by
  rw [decode_ethBytes, if_neg (fun hother => hother.2 he), if_neg (by rw [he]; decide)]

/-- Rows 4 to 9 of R79 on a frame that holds the fixed ARP header. -/
theorem decodeArp_headerBytes (eth : EthHeader) (arp : ArpHeader) (rest : List Byte) :
    decodeArp eth (arp.bytes ++ rest) =
      if arp.htype ≠ arpHardwareEthernet then .arpBadHtype eth arp rest
      else if arp.ptype ≠ arpProtocolIpv4 then .arpBadPtype eth arp rest
      else if rest.length < 20 then .arpShortBody eth arp rest
      else if arp.oper = arpRequestOpcode then .arpRequest eth arp (ArpBody.parse rest) (rest.drop 20)
      else if arp.oper = arpReplyOpcode then .arpReplyIn eth arp (ArpBody.parse rest) (rest.drop 20)
      else .arpOpcodeOther eth arp (ArpBody.parse rest) (rest.drop 20) := by
  have hlen : ¬ (arp.bytes ++ rest).length < 8 := by simp
  have hdrop : (arp.bytes ++ rest).drop 28 = rest.drop 20 := by
    rw [← List.drop_drop (i := 20) (j := 8), List.drop_left' arp.length_bytes]
  have hbody : (arp.bytes ++ rest).length < 28 ↔ rest.length < 20 := by simp; omega
  dsimp only [decodeArp]
  simp only [if_neg hlen, ArpHeader.parse_bytes, List.drop_left' arp.length_bytes, hdrop, hbody]

/-- Rows 7 to 9 of R79 on a frame that holds a whole ARP packet. -/
theorem decodeArp_packetBytes {eth : EthHeader} {arp : ArpHeader} (htypes : arpTypesOk eth arp = true) (body : ArpBody)
    (trailer : List Byte) :
    decodeArp eth (arp.bytes ++ (body.bytes ++ trailer)) =
      if arp.oper = arpRequestOpcode then .arpRequest eth arp body trailer
      else if arp.oper = arpReplyOpcode then .arpReplyIn eth arp body trailer
      else .arpOpcodeOther eth arp body trailer := by
  obtain ⟨-, hh, hp⟩ := arpTypesOk_iff.1 htypes
  have hlen : ¬ (body.bytes ++ trailer).length < 20 := by simp
  rw [decodeArp_headerBytes, if_neg (not_not_intro hh), if_neg (not_not_intro hp), if_neg hlen, ArpBody.parse_bytes,
    List.drop_left' body.length_bytes]

/-- Rows 11 to 20 of R79 on a frame that holds the first 20 bytes of an IPv4 header. -/
theorem decodeIp_headerBytes (eth : EthHeader) (ip : IpHeader) (rest : List Byte) :
    decodeIp eth (ip.bytes ++ rest) =
      if ip.ver ≠ 4#4 then .ipBadVersion eth ip rest
      else if ip.ihl.toNat < 5 then .ipBadIhl eth ip rest
      else if ip.ttl = 0#8 then .ipTtlZero eth ip rest
      else if 20 + rest.length < ip.headerLen then .ipHdrOverrun eth ip rest
      else if internetChecksum ((ip.bytes ++ rest).take ip.headerLen) ≠ 0#16 then .ipBadChecksum eth ip rest
      else if ip.tl.toNat < ip.headerLen ∨ 20 + rest.length < ip.tl.toNat then .ipBadTotalLength eth ip rest
      else if ip.proto ≠ ipProtocolIcmp then .ipNotIcmp eth ip rest
      else decodeIcmp eth ip (ip.bytes ++ rest) := by
  have hlen : ¬ (ip.bytes ++ rest).length < 20 := by simp
  dsimp only [decodeIp]
  rw [if_neg hlen]
  simp only [IpHeader.parse_bytes, List.drop_left' ip.length_bytes, List.length_append, IpHeader.length_bytes]

/-- A header that passes steps I1 to I4 of R130 reaches the bounds check of its options. -/
theorem decodeIp_of_fieldsOk {eth : EthHeader} {ip : IpHeader} (h : ipFieldsOk eth ip = true) (rest : List Byte) :
    decodeIp eth (ip.bytes ++ rest) =
      if 20 + rest.length < ip.headerLen then .ipHdrOverrun eth ip rest
      else if internetChecksum ((ip.bytes ++ rest).take ip.headerLen) ≠ 0#16 then .ipBadChecksum eth ip rest
      else if ip.tl.toNat < ip.headerLen ∨ 20 + rest.length < ip.tl.toNat then .ipBadTotalLength eth ip rest
      else if ip.proto ≠ ipProtocolIcmp then .ipNotIcmp eth ip rest
      else decodeIcmp eth ip (ip.bytes ++ rest) := by
  obtain ⟨-, hver, hihl, httl⟩ := ipFieldsOk_iff.1 h
  rw [decodeIp_headerBytes, if_neg (not_not_intro hver), if_neg (Nat.not_lt.2 hihl), if_neg httl]

/-- A header that passes steps I1 to I6 of R130 reaches the check of the total length. -/
theorem decodeIp_of_headerOk {eth : EthHeader} {ip : IpHeader} {rest : List Byte} (h : ipHeaderOk eth ip rest = true) :
    decodeIp eth (ip.bytes ++ rest) =
      if ip.tl.toNat < ip.headerLen ∨ 20 + rest.length < ip.tl.toNat then .ipBadTotalLength eth ip rest
      else if ip.proto ≠ ipProtocolIcmp then .ipNotIcmp eth ip rest
      else decodeIcmp eth ip (ip.bytes ++ rest) := by
  obtain ⟨hfields, hhl, hsum⟩ := ipHeaderOk_iff.1 h
  rw [decodeIp_of_fieldsOk hfields, if_neg (Nat.not_lt.2 hhl), if_neg (not_not_intro hsum)]

/-- A datagram that passes all of R130 reaches the dispatch on its protocol. -/
theorem decodeIp_of_valid {eth : EthHeader} {ip : IpHeader} {rest : List Byte} (h : ipValid eth ip rest = true) :
    decodeIp eth (ip.bytes ++ rest) =
      if ip.proto ≠ ipProtocolIcmp then .ipNotIcmp eth ip rest else decodeIcmp eth ip (ip.bytes ++ rest) := by
  obtain ⟨hheader, hle, htl⟩ := ipValid_iff.1 h
  rw [decodeIp_of_headerOk hheader, if_neg (by omega)]

/-- Rows 19 and 20 of R79 on a datagram that holds its message. -/
theorem decodeIcmp_messageBytes (eth : EthHeader) {ip : IpHeader} {options data : List Byte} (hlen : IcmpLengths ip options data)
    (icmp : IcmpHeader) (trailer : List Byte) :
    decodeIcmp eth ip (ip.bytes ++ (options ++ (icmp.bytes ++ (data ++ trailer)))) =
      if icmp.icmpType = icmpEchoRequestType then .icmpEchoRequest eth ip options icmp data trailer
      else .icmpOtherType eth ip options icmp data trailer := by
  obtain ⟨hheader, hdatagram⟩ := hlen
  have hmsg : ¬ ip.tl.toNat - ip.headerLen < 4 := by omega
  have hspan : (ip.bytes ++ options).length = ip.headerLen := by simpa using hheader
  have hmessage : (ip.bytes ++ (options ++ (icmp.bytes ++ (data ++ trailer)))).drop ip.headerLen =
      icmp.bytes ++ (data ++ trailer) := by
    rw [← List.append_assoc, List.drop_left' hspan]
  have hoptions : ((ip.bytes ++ (options ++ (icmp.bytes ++ (data ++ trailer)))).take ip.headerLen).drop 20 = options := by
    rw [← List.append_assoc, List.take_left' hspan, List.drop_left' ip.length_bytes]
  have hwhole : (ip.bytes ++ (options ++ (icmp.bytes ++ (data ++ trailer)))) =
      (ip.bytes ++ options ++ icmp.bytes ++ data) ++ trailer := by simp only [List.append_assoc]
  have hdatagram' : (ip.bytes ++ options ++ icmp.bytes ++ data).length = ip.tl.toNat := by simp; omega
  have hdata : ((ip.bytes ++ (options ++ (icmp.bytes ++ (data ++ trailer)))).take ip.tl.toNat).drop (ip.headerLen + 4) = data := by
    rw [hwhole, List.take_left' hdatagram', List.drop_left' (by simp; omega)]
  have htrailer : (ip.bytes ++ (options ++ (icmp.bytes ++ (data ++ trailer)))).drop ip.tl.toNat = trailer := by
    rw [hwhole, List.drop_left' hdatagram']
  dsimp only [decodeIcmp]
  rw [if_neg hmsg, hmessage, IcmpHeader.parse_bytes, hoptions, hdata, htrailer]

/-- A frame with an ICMP message decodes to one of the two replying classes. -/
theorem decode_of_icmpValid {eth : EthHeader} {ip : IpHeader} {options : List Byte} {icmp : IcmpHeader} {data trailer : List Byte}
    (h : icmpValid eth ip options icmp data trailer = true) :
    decode (eth.bytes ++ ip.bytes ++ options ++ icmp.bytes ++ data ++ trailer) =
      if icmp.icmpType = icmpEchoRequestType then .icmpEchoRequest eth ip options icmp data trailer
      else .icmpOtherType eth ip options icmp data trailer := by
  obtain ⟨hvalid, hproto, hlen⟩ := icmpValid_iff.1 h
  simp only [List.append_assoc] at hvalid ⊢
  rw [decode_ipBytes (etype_of_ipValid hvalid), decodeIp_of_valid hvalid, if_neg (not_not_intro hproto),
    decodeIcmp_messageBytes eth hlen]

/-- Decoding inverts encoding: each class's row is the first whose condition its bytes meet. -/
theorem decode_encode {i : Instr} (h : i.wellFormed = true) : decode (encode i) = i := by
  cases i <;> simp only [Instr.wellFormed, Bool.and_eq_true, Bool.or_eq_true, beq_iff_eq, bne_iff_ne, decide_eq_true_eq, ne_eq] at h
    <;> simp only [encode]
  case ethRunt bytes => exact decode_of_runt h
  case ethOther eth payload => exact (decode_ethBytes eth payload).trans (if_pos h)
  case arpRunt eth payload =>
    obtain ⟨he, hlen⟩ := h
    exact (decode_arpBytes he payload).trans (if_pos hlen)
  case arpBadHtype eth arp rest =>
    obtain ⟨he, hh⟩ := h
    rw [List.append_assoc, decode_arpBytes he, decodeArp_headerBytes, if_pos hh]
  case arpBadPtype eth arp rest =>
    obtain ⟨⟨he, hh⟩, hp⟩ := h
    rw [List.append_assoc, decode_arpBytes he, decodeArp_headerBytes, if_neg (not_not_intro hh), if_pos hp]
  case arpShortBody eth arp rest =>
    obtain ⟨htypes, hlen⟩ := h
    obtain ⟨he, hh, hp⟩ := arpTypesOk_iff.1 htypes
    rw [List.append_assoc, decode_arpBytes he, decodeArp_headerBytes, if_neg (not_not_intro hh), if_neg (not_not_intro hp),
      if_pos hlen]
  case arpRequest eth arp body trailer =>
    obtain ⟨htypes, ho⟩ := h
    rw [List.append_assoc, List.append_assoc, decode_arpBytes (arpTypesOk_iff.1 htypes).1, decodeArp_packetBytes htypes, if_pos ho]
  case arpReplyIn eth arp body trailer =>
    obtain ⟨htypes, ho⟩ := h
    rw [List.append_assoc, List.append_assoc, decode_arpBytes (arpTypesOk_iff.1 htypes).1, decodeArp_packetBytes htypes,
      if_neg (by rw [ho]; decide), if_pos ho]
  case arpOpcodeOther eth arp body trailer =>
    obtain ⟨⟨htypes, ho⟩, ho'⟩ := h
    rw [List.append_assoc, List.append_assoc, decode_arpBytes (arpTypesOk_iff.1 htypes).1, decodeArp_packetBytes htypes, if_neg ho,
      if_neg ho']
  case ipRunt eth payload =>
    obtain ⟨he, hlen⟩ := h
    exact (decode_ipBytes he payload).trans (if_pos hlen)
  case ipBadVersion eth ip rest =>
    obtain ⟨he, hver⟩ := h
    rw [List.append_assoc, decode_ipBytes he, decodeIp_headerBytes, if_pos hver]
  case ipBadIhl eth ip rest =>
    obtain ⟨⟨he, hver⟩, hihl⟩ := h
    rw [List.append_assoc, decode_ipBytes he, decodeIp_headerBytes, if_neg (not_not_intro hver), if_pos hihl]
  case ipTtlZero eth ip rest =>
    obtain ⟨⟨⟨he, hver⟩, hihl⟩, httl⟩ := h
    rw [List.append_assoc, decode_ipBytes he, decodeIp_headerBytes, if_neg (not_not_intro hver), if_neg (Nat.not_lt.2 hihl),
      if_pos httl]
  case ipHdrOverrun eth ip rest =>
    obtain ⟨hfields, hhl⟩ := h
    rw [List.append_assoc, decode_ipBytes (etype_of_ipFieldsOk hfields), decodeIp_of_fieldsOk hfields, if_pos hhl]
  case ipBadChecksum eth ip rest =>
    obtain ⟨⟨hfields, hhl⟩, hsum⟩ := h
    rw [List.append_assoc, decode_ipBytes (etype_of_ipFieldsOk hfields), decodeIp_of_fieldsOk hfields, if_neg (Nat.not_lt.2 hhl),
      if_pos hsum]
  case ipBadTotalLength eth ip rest =>
    obtain ⟨hheader, htl⟩ := h
    rw [List.append_assoc, decode_ipBytes (etype_of_ipHeaderOk hheader), decodeIp_of_headerOk hheader, if_pos htl]
  case ipNotIcmp eth ip rest =>
    obtain ⟨hvalid, hproto⟩ := h
    rw [List.append_assoc, decode_ipBytes (etype_of_ipValid hvalid), decodeIp_of_valid hvalid, if_pos hproto]
  case icmpRunt eth ip rest =>
    obtain ⟨⟨hvalid, hproto⟩, hmsg⟩ := h
    rw [List.append_assoc, decode_ipBytes (etype_of_ipValid hvalid), decodeIp_of_valid hvalid, if_neg (not_not_intro hproto),
      decodeIcmp, if_pos hmsg, List.drop_left' ip.length_bytes]
  case icmpEchoRequest eth ip options icmp data trailer =>
    obtain ⟨hvalid, ht⟩ := h
    rw [decode_of_icmpValid hvalid, if_pos ht]
  case icmpOtherType eth ip options icmp data trailer =>
    obtain ⟨hvalid, ht⟩ := h
    rw [decode_of_icmpValid hvalid, if_neg ht]

/-! ### The statements -/

/-- Settles O1. -/
theorem decodeOfEncodedInstruction : Obligations.DecodeOfEncodedInstruction := fun _ h => decode_encode h

/-- Settles O2: an instruction that encodes to the frame is what the decoder reads, as decoding inverts encoding. -/
theorem everyFrameIsOneEncodedClass : Obligations.EveryFrameIsOneEncodedClass := by
  intro bs
  refine ⟨decode_wellFormed bs, encode_decode bs, fun i hi hbs => ?unique⟩
  case unique => rw [← hbs, decode_encode hi]

end Sys2Proof
end

section
/-! SUPPORT. The stage graph of 46_frame_cycle.md R182, run on a loaded frame, takes the branches of the decoder of 30_encoding.md R79: each stage is
compared with the rows of the decoder that it stands for. -/

namespace Sys2Proof.Machine

/-- The destination check on a loaded frame goes on with that frame loaded, so only what follows on it counts. -/
theorem State.notForUs_withBytes_congr (s : State) {bs : List Byte} {go go' : State → Op State}
    (h : ∀ u : State, go (u.withBytes bs) = go' (u.withBytes bs)) (l : Layer) (ip : IpAddr) :
    (s.withBytes bs).notForUs l ip go = (s.withBytes bs).notForUs l ip go' := by
  rw [State.notForUs_eq, State.notForUs_eq, State.report_withBytes, h, h]

/-- ARP_HANDLE (R110) and rows 3 to 9 of R79. -/
theorem State.arpHandle_withBytes (s : State) (eth : EthHeader) {bs : List Byte} (h : 14 ≤ bs.length) :
    finish (s.withBytes bs).arpHandle = exec (decodeArp eth (bs.drop 14)) (s.withBytes bs) := by
  dsimp only [State.arpHandle, decodeArp]
  rw [State.withBytes_len, List.length_drop]
  split
  · rfl
  next hlen =>
  rw [State.readHalf_withBytes s (by omega), State.readHalf_withBytes s (by omega), State.readHalf_withBytes s (by omega)]
  simp only [ok_bind, ArpHeader.parse, be16At_drop, Nat.reduceAdd]
  split
  · rfl
  split
  · rfl
  split
  · rfl
  next hbody =>
  rw [State.readMac_withBytes s (by omega), State.readIp_withBytes s (by omega), State.readIp_withBytes s (by omega)]
  simp only [ok_bind, State.arpAnswer, ArpBody.parse, List.drop_drop, macAt_drop, be32At_drop, Nat.reduceAdd]
  split
  · rfl
  split
  · rfl
  · rfl

/-- ICMP_HANDLE (R160) with the reply that follows it, and rows 18 to 20 of R79, past the destination check. -/
theorem State.icmpHandle_withBytes (s : State) (eth : EthHeader) (ip : IpHeader) {bs : List Byte} (h : 14 ≤ bs.length)
    (htl : ip.tl.toNat ≤ bs.length - 14) :
    finish ((s.withBytes bs).notForUs .ip ip.dst fun u => u.icmpHandle ip.headerLen ip.tl.toNat) =
      exec (decodeIcmp eth ip (bs.drop 14)) (s.withBytes bs) := by
  dsimp only [decodeIcmp]
  split
  · next hmsg =>
    refine congrArg finish (s.notForUs_withBytes_congr (fun u => ?_) .ip ip.dst)
    rw [State.icmpHandle, if_pos hmsg]
  next hmsg =>
  have hread : ∀ u : State, (u.withBytes bs).readByte (14 + ip.headerLen) = .ok (byteAt bs (14 + ip.headerLen)) := fun u =>
    u.readByte_withBytes (by omega)
  simp only [IcmpHeader.parse, List.drop_drop, byteAt_drop, Nat.add_zero]
  split
  · next ht =>
    refine congrArg finish (s.notForUs_withBytes_congr (fun u => ?_) .ip ip.dst)
    rw [State.icmpHandle, if_neg hmsg, hread, ok_bind, if_pos ht]
  · next ht =>
    refine congrArg finish (s.notForUs_withBytes_congr (fun u => ?_) .ip ip.dst)
    rw [State.icmpHandle, if_neg hmsg, hread, ok_bind, if_neg ht]

/-- The version as IP_INCOMING reads it and as the decoder parses it (R75). -/
theorem version_stage_iff (bs : List Byte) : (byteAt bs 14 >>> 4) &&& 0xF#8 = 4#8 ↔ (IpHeader.parse (bs.drop 14)).ver = 4#4 := by
  rw [← verOf_eq_four_iff, verOf, BitVec.toNat_eq]
  rfl

/-- IP_INCOMING (R130), IP_NOT_FOR_US (R131) and IP_DISPATCH (R132), and rows 10 to 20 of R79. -/
theorem State.ipIncoming_withBytes (s : State) (eth : EthHeader) {bs : List Byte} (h : 14 ≤ bs.length) :
    finish (s.withBytes bs).ipIncoming = exec (decodeIp eth (bs.drop 14)) (s.withBytes bs) := by
  dsimp only [State.ipIncoming, decodeIp]
  rw [State.withBytes_len, List.length_drop]
  split
  · rfl
  next hlen =>
  have hver := version_stage_iff bs
  have hihl : (byteAt bs 14 &&& 0xF#8).toNat = (IpHeader.parse (bs.drop 14)).ihl.toNat := ihlOf_eq_parse bs
  have httl := ttl_parse bs
  have htl : (IpHeader.parse (bs.drop 14)).tl = be16At bs 16 := be16At_drop bs 14 2
  have hproto : (IpHeader.parse (bs.drop 14)).proto = byteAt bs 23 := byteAt_drop bs 14 9
  have hdst : (IpHeader.parse (bs.drop 14)).dst = be32At bs 30 := be32At_drop bs 14 16
  generalize IpHeader.parse (bs.drop 14) = ip at *
  have hhl : ip.ihl.toNat * 4 = ip.headerLen := rfl
  rw [State.readByte_withBytes s (by omega), State.readByte_withBytes s (by omega)]
  simp only [ok_bind, ne_eq, hver, hihl, hhl, ← httl]
  split
  · rfl
  split
  · rfl
  split
  · rfl
  split
  · rfl
  next hspan =>
  rw [State.csum_withBytes s (by omega), State.readHalf_withBytes s (by omega), State.readIp_withBytes s (by omega)]
  simp only [ok_bind, Nat.add_sub_cancel_left, ← htl, ← hdst]
  split
  · rfl
  split
  · rfl
  next hdatagram =>
  have hdispatch : ∀ u : State, (u.withBytes bs).ipDispatch ip.headerLen ip.tl.toNat =
      if ip.proto = ipProtocolIcmp then (u.withBytes bs).icmpHandle ip.headerLen ip.tl.toNat
      else drop .ipUnsupportedProtocol .ip (u.withBytes bs) := fun u => by
    rw [State.ipDispatch, State.readByte_withBytes u (by omega), ok_bind, hproto]
  by_cases hicmp : ip.proto = ipProtocolIcmp
  · simp only [if_pos hicmp] at hdispatch
    rw [if_neg (not_not_intro hicmp), s.notForUs_withBytes_congr (go' := fun u => u.icmpHandle _ _) hdispatch]
    exact s.icmpHandle_withBytes eth ip h (by omega)
  · simp only [if_neg hicmp] at hdispatch
    rw [if_pos hicmp, s.notForUs_withBytes_congr (go' := drop _ _) hdispatch]
    rfl

/-- ETH_PARSE, ETH_DISPATCH and the stages after them (R100, R101, R182), and the rows of R79. -/
theorem State.ethParse_withBytes (s : State) (bs : List Byte) :
    finish (s.withBytes bs).ethParse = exec (decode bs) (s.withBytes bs) := by
  rw [State.ethParse]
  by_cases hlen : bs.length < 14
  · rw [if_pos (by exact hlen), decode_of_runt hlen]
    rfl
  rw [if_neg (by exact hlen), State.readHalf_withBytes s (by omega), ok_bind, State.ethDispatch]
  by_cases ha : be16At bs 12 = etherTypeArp
  · rw [if_pos ha, decode_of_arpEtype (Nat.not_lt.1 hlen) ha]
    exact s.arpHandle_withBytes _ (Nat.not_lt.1 hlen)
  by_cases hi : be16At bs 12 = etherTypeIpv4
  · rw [if_neg ha, if_pos hi, decode_of_ipv4Etype (Nat.not_lt.1 hlen) hi]
    exact s.ipIncoming_withBytes _ (Nat.not_lt.1 hlen)
  · rw [if_neg ha, if_neg hi, decode_of_otherEtype (Nat.not_lt.1 hlen) ha hi]
    rfl

/-- Settles O6: a loaded frame is a frame of bytes, on which the stages take the decoder's branches. -/
theorem stageGraphAgreesWithClassMeaning : Obligations.StageGraphAgreesWithClassMeaning := by
  intro s bytes
  rw [State.loadFrame_eq]
  exact State.ethParse_withBytes _ bytes

end Sys2Proof.Machine
end

section
/-! SUPPORT. The end of a frame step as a function of the decoded class (R79, R181): which cache, reports and outbound frame each class leaves
(R104, R105, R114 to R120, R134 to R141, R162 to R164), and everything a step can do in these terms. -/

namespace Sys2Proof

section ClassEnd

open Machine

/-! ### What each class leaves -/

/-- The reports of a class that checks the destination and, past the check, makes the reports `more` (R24, R110 step A6, R131). -/
def checkedReports (c : Config) (l : Layer) (ip : IpAddr) (more : List Report) : List Report :=
  if ip = c.devIp ∨ c.policy = .permissive then mismatchReports c l ip ++ more else mismatchReports c l ip

/-- The outbound frame of a class that checks the destination and, past the check, sends `f`, if that is a frame. -/
def checkedReply (c : Config) (ip : IpAddr) (f : Option (List Byte)) : Option (List Byte) :=
  if ip = c.devIp ∨ c.policy = .permissive then f else none

/-- The cache after a frame of the class: only a whole ARP packet is learned from (R110 step A5). -/
def Instr.cacheAfter (es : List CacheEntry) : Instr → List CacheEntry
  | .arpRequest _ arp body _ => learnedCache es arp.htype body.spa body.sha
  | .arpReplyIn _ arp body _ => learnedCache es arp.htype body.spa body.sha
  | .arpOpcodeOther _ arp body _ => learnedCache es arp.htype body.spa body.sha
  | _ => es

/-- The reports of a frame of the class (R196). -/
def Instr.reportsMade (c : Config) (es : List CacheEntry) (v : Verdict) : Instr → List Report
  | .ethRunt _ => [⟨.truncated, .eth⟩]
  | .ethOther _ _ => []
  | .arpRunt _ _ => [⟨.truncated, .arp⟩]
  | .arpBadHtype _ _ _ => [⟨.unsupportedHardware, .arp⟩]
  | .arpBadPtype _ _ _ => [⟨.arpUnsupportedProtocol, .arp⟩]
  | .arpShortBody _ _ _ => [⟨.truncated, .arp⟩]
  | .arpRequest _ arp body _ =>
    ⟨learnReport es arp.htype body.spa body.sha, .arp⟩ :: checkedReports c .arp body.tpa (verdictReports v)
  | .arpReplyIn _ arp body _ =>
    ⟨learnReport es arp.htype body.spa body.sha, .arp⟩ :: checkedReports c .arp body.tpa [⟨.unhandledOpcode, .arp⟩]
  | .arpOpcodeOther _ arp body _ =>
    ⟨learnReport es arp.htype body.spa body.sha, .arp⟩ :: checkedReports c .arp body.tpa [⟨.unhandledOpcode, .arp⟩]
  | .ipRunt _ _ => [⟨.truncated, .ip⟩]
  | .ipBadVersion _ _ _ => [⟨.wrongVersion, .ip⟩]
  | .ipBadIhl _ _ _ => [⟨.headerTooShort, .ip⟩]
  | .ipTtlZero _ _ _ => [⟨.ttlExpired, .ip⟩]
  | .ipHdrOverrun _ _ _ => [⟨.truncated, .ip⟩]
  | .ipBadChecksum _ _ _ => [⟨.checksumMismatch, .ip⟩]
  | .ipBadTotalLength _ _ _ => [⟨.truncated, .ip⟩]
  | .ipNotIcmp _ ip _ => checkedReports c .ip ip.dst [⟨.ipUnsupportedProtocol, .ip⟩]
  | .icmpRunt _ ip _ => checkedReports c .ip ip.dst [⟨.truncated, .icmp⟩]
  | .icmpEchoRequest _ ip _ _ _ _ => checkedReports c .ip ip.dst (verdictReports v)
  | .icmpOtherType _ ip _ _ _ _ => checkedReports c .ip ip.dst (⟨.unhandledIcmpType, .icmp⟩ :: verdictReports v)

/-- The outbound frame of a frame of the class (R81). -/
def Instr.replySent (c : Config) : Instr → Option (List Byte)
  | .arpRequest _ arp body _ => checkedReply c body.tpa (some (arpReplyFrame c arp body))
  | .icmpEchoRequest eth ip options icmp data _ =>
    checkedReply c ip.dst (some (ipReplyFrame c eth ip options ((icmp.reply data).bytes ++ data)))
  | .icmpOtherType eth ip options icmp data _ => checkedReply c ip.dst (some (ipReplyFrame c eth ip options (icmp.bytes ++ data)))
  | _ => none

end ClassEnd

namespace Machine

/-- The state after a frame of the class (R181). -/
def State.afterClass (s : State) (rest : List Stimulus) (v : Verdict) (i : Instr) : State :=
  s.afterFrame rest v (i.cacheAfter s.cache) (i.reportsMade s.cfg s.cache v) (i.replySent s.cfg)

@[simp] theorem State.afterClass_phase (s : State) (rest : List Stimulus) (v : Verdict) (i : Instr) :
    (s.afterClass rest v i).phase = s.phase := rfl
@[simp] theorem State.afterClass_cache (s : State) (rest : List Stimulus) (v : Verdict) (i : Instr) :
    (s.afterClass rest v i).cache = i.cacheAfter s.cache := rfl
@[simp] theorem State.afterClass_cfg (s : State) (rest : List Stimulus) (v : Verdict) (i : Instr) :
    (s.afterClass rest v i).cfg = s.cfg := rfl
@[simp] theorem State.afterClass_buf (s : State) (rest : List Stimulus) (v : Verdict) (i : Instr) :
    (s.afterClass rest v i).buf = [] := rfl
@[simp] theorem State.afterClass_len (s : State) (rest : List Stimulus) (v : Verdict) (i : Instr) :
    (s.afterClass rest v i).len = 0 := rfl
@[simp] theorem State.afterClass_reports (s : State) (rest : List Stimulus) (v : Verdict) (i : Instr) :
    (s.afterClass rest v i).reports = i.reportsMade s.cfg s.cache v := rfl
@[simp] theorem State.afterClass_out (s : State) (rest : List Stimulus) (v : Verdict) (i : Instr) :
    (s.afterClass rest v i).out = i.replySent s.cfg := rfl
@[simp] theorem State.afterClass_inputs (s : State) (rest : List Stimulus) (v : Verdict) (i : Instr) :
    (s.afterClass rest v i).inputs = rest := rfl

/-! ### The destination check (R24, R131) -/

theorem checkedReply_eq_some {c : Config} {ip : IpAddr} {f g : List Byte} (h : checkedReply c ip (some f) = some g) : f = g := by
  unfold checkedReply at h
  split at h
  · exact Option.some.inj h
  · cases h

@[simp] theorem checkedReply_none (c : Config) (ip : IpAddr) : checkedReply c ip none = none := ite_self none

/-- What the destination check leaves of the reports and the outbound frame past it, and under which policy (R24). -/
theorem checked_cases (c : Config) (l : Layer) (ip : IpAddr) (more : List Report) (f : Option (List Byte)) :
    (checkedReports c l ip more = more ∧ checkedReply c ip f = f) ∨
    (c.policy = .permissive ∧ checkedReports c l ip more = ⟨.notForUs, l⟩ :: more ∧ checkedReply c ip f = f) ∨
    (c.policy = .drop ∧ checkedReports c l ip more = [⟨.notForUs, l⟩] ∧ checkedReply c ip f = none) := by
  by_cases hip : ip = c.devIp
  · simp [checkedReports, checkedReply, mismatchReports, hip]
  cases hp : c.policy with
  | permissive => simp [checkedReports, checkedReply, mismatchReports, hip, hp]
  | drop => simp [checkedReports, checkedReply, mismatchReports, hip, hp]

/-! ### The step on an offered frame -/

/-- A class that ends in one way past the destination check and in another at a mismatch under DROP, in one form. -/
theorem eq_afterFrame_checked {s : State} {x : Result} {rest : List Stimulus} {v : Verdict} {es : List CacheEntry} {pre more : List Report}
    {l : Layer} {ip : IpAddr} {f : Option (List Byte)}
    (hpass : passesCheck s.cfg ip → x = .next (s.afterFrame rest v es (pre ++ mismatchReports s.cfg l ip ++ more) f))
    (hfail : ¬ passesCheck s.cfg ip → x = .next (s.afterFrame rest v es (pre ++ mismatchReports s.cfg l ip) none)) :
    x = .next (s.afterFrame rest v es (pre ++ checkedReports s.cfg l ip more) (checkedReply s.cfg ip f)) := by
  rw [checkedReports, checkedReply]
  split
  · next h => rw [hpass h, List.append_assoc]
  · next h => exact hfail h

/-- As `eq_afterFrame_checked`, for a class that sends nothing. -/
theorem eq_afterFrame_checked_none {s : State} {x : Result} {rest : List Stimulus} {v : Verdict} {es : List CacheEntry}
    {pre more : List Report} {l : Layer} {ip : IpAddr}
    (hpass : passesCheck s.cfg ip → x = .next (s.afterFrame rest v es (pre ++ mismatchReports s.cfg l ip ++ more) none))
    (hfail : ¬ passesCheck s.cfg ip → x = .next (s.afterFrame rest v es (pre ++ mismatchReports s.cfg l ip) none)) :
    x = .next (s.afterFrame rest v es (pre ++ checkedReports s.cfg l ip more) none) := by
  simpa only [checkedReply_none] using eq_afterFrame_checked hpass hfail

/-- R181: the step on an offered frame leaves what the decoded class leaves. -/
theorem step_eq_afterClass {s : State} {bytes : List Byte} {v : Verdict} {rest : List Stimulus} (ho : s.Offers bytes v rest) :
    step s = .next (s.afterClass rest v (decode bytes)) := by
  cases hd : decode bytes with
  | ethRunt | arpRunt | arpBadHtype | arpBadPtype | arpShortBody | ipRunt | ipBadVersion | ipBadIhl | ipTtlZero | ipHdrOverrun
  | ipBadChecksum | ipBadTotalLength => exact step_of_dropped ho hd fun _ => rfl
  | ethOther =>
    rw [step_of_offers ho, hd]
    exact endFrame_ignore s bytes v rest
  | arpRequest eth arp body trailer =>
    obtain ⟨hanswered, hended⟩ := arpRequestStep s bytes v rest eth arp body trailer ho hd
    exact eq_afterFrame_checked (fun h => (hanswered h).1) hended
  | arpReplyIn eth arp body trailer =>
    obtain ⟨hdropped, hended⟩ := arpOtherOpcodeSteps s bytes v rest eth arp body trailer ho (.inl hd)
    exact eq_afterFrame_checked_none hdropped hended
  | arpOpcodeOther eth arp body trailer =>
    obtain ⟨hdropped, hended⟩ := arpOtherOpcodeSteps s bytes v rest eth arp body trailer ho (.inr hd)
    exact eq_afterFrame_checked_none hdropped hended
  | ipNotIcmp eth ip more =>
    obtain ⟨hdropped, hended⟩ := ipNotIcmpStep s bytes v rest eth ip more ho hd
    exact eq_afterFrame_checked_none (pre := []) hdropped hended
  | icmpRunt eth ip more =>
    have hstep : step s = endFrame (finish (((s.take rest v).loadFrame bytes).notForUs .ip ip.dst (drop .truncated .icmp))) := by
      rw [step_of_offers ho, hd]
      rfl
    rw [hstep]
    exact eq_afterFrame_checked_none (pre := [])
      (fun h => endFrame_notForUs_drop h .ip .icmp .truncated bytes v rest)
      (fun h => endFrame_notForUs_of_not_passesCheck h .ip _ bytes v rest)
  | icmpEchoRequest eth ip options icmp data trailer =>
    obtain ⟨hanswered, hended⟩ := echoRequestStep s bytes v rest eth ip options icmp data trailer ho hd
    refine eq_afterFrame_checked (pre := []) (fun h => ?_) hended
    obtain ⟨f, hstep, rfl, -⟩ := hanswered h
    exact hstep
  | icmpOtherType eth ip options icmp data trailer =>
    obtain ⟨hreflected, hended⟩ := otherIcmpTypeStep s bytes v rest eth ip options icmp data trailer ho hd
    refine eq_afterFrame_checked (pre := []) (fun h => ?_) hended
    obtain ⟨f, hstep, rfl, -⟩ := hreflected h
    rw [hstep, List.append_assoc]
    rfl

theorem step_of_reset {s : State} {rest : List Stimulus} (hin : s.inputs = .reset :: rest) :
    step s = .next (State.applyReset { s with inputs := rest }) := by
  simp only [step, State.transition, hin]

theorem step_of_event {s : State} {e : HostEvent} {v : Verdict} {rest : List Stimulus} (hp : s.phase = .idle)
    (hin : s.inputs = .event e v :: rest) : step s = (s.take rest v).eventStep e := by
  simp only [step, State.transition, hin, hp]

/-- Everything a step can do: a reset, one of the two halts, or an offered frame that ends as its class. -/
theorem step_eq_next_cases {s t : State} (h : step s = .next t) :
    (∃ rest, s.inputs = .reset :: rest ∧ t = State.applyReset { s with inputs := rest }) ∨
    (∃ c v rest, t = (s.take rest v).halt c) ∨
    (∃ bytes v rest, s.Offers bytes v rest ∧ t = s.afterClass rest v (decode bytes)) := by
  obtain hreset | ⟨-, v, rest, -, rfl⟩ | ⟨-, v, rest, -, rfl⟩ | ⟨hp, bytes, v, rest, -, hin, hfit, -⟩ := step_cases h
  · exact .inl hreset
  · exact .inr (.inl ⟨_, v, rest, rfl⟩)
  · exact .inr (.inl ⟨_, v, rest, rfl⟩)
  · have ho : s.Offers bytes v rest := ⟨hp, hin, hfit⟩
    rw [step_eq_afterClass ho] at h
    exact .inr (.inr ⟨bytes, v, rest, ho, (Host.Outcome.next.inj h).symm⟩)

end Machine

end Sys2Proof
end

section
/-! SUPPORT. The cache after a sender is learned (10_state.md R27 to R29, 41_arp.md R110 to R112): which entry step A5 writes, and that the cache keeps
its length, its distinct keys and its Free suffix. -/

namespace Sys2Proof.Machine

/-! ### What the two searches leave -/

/-- R111: the update writes over an entry with the key. -/
theorem cacheUpdate_eq_some {es es' : List CacheEntry} {ht : Half} {ip : IpAddr} {hw : MacAddr} (h : cacheUpdate es ht ip hw = some es') :
    ∃ i m, es[i]? = some (.resolved ht ip m) ∧ es' = es.set i (.resolved ht ip hw) := by
  obtain ⟨i, ⟨m, hm⟩, -, rfl⟩ := (cacheUpdateOverwritesFirstMatch es ht ip hw).2 es' h
  exact ⟨i, m, hm, rfl⟩

/-- R112: the insert writes over a Free entry. -/
theorem cacheInsert_eq_some {es es' : List CacheEntry} {ht : Half} {ip : IpAddr} {hw : MacAddr} (h : cacheInsert es ht ip hw = some es') :
    ∃ i, es[i]? = some .free ∧ es' = es.set i (.resolved ht ip hw) := by
  obtain ⟨i, hi, -, rfl⟩ := (cacheInsertTakesFirstFree es ht ip hw).2 es' h
  exact ⟨i, hi, rfl⟩

/-- Step A5 updates, else inserts, else finds the table full (R110). -/
theorem learned_cases (es : List CacheEntry) (ht : Half) (ip : IpAddr) (hw : MacAddr) :
    (∃ es', cacheUpdate es ht ip hw = some es' ∧ learnedCache es ht ip hw = es' ∧ learnReport es ht ip hw = .cacheUpdated) ∨
    (∃ es', cacheUpdate es ht ip hw = none ∧ cacheInsert es ht ip hw = some es' ∧ learnedCache es ht ip hw = es' ∧
      learnReport es ht ip hw = .cacheInserted) ∨
    (cacheUpdate es ht ip hw = none ∧ cacheInsert es ht ip hw = none ∧ learnedCache es ht ip hw = es ∧
      learnReport es ht ip hw = .cacheFull) := by
  unfold learnedCache learnReport
  cases cacheUpdate es ht ip hw with
  | some es' => exact .inl ⟨es', rfl, rfl, rfl⟩
  | none =>
    cases cacheInsert es ht ip hw with
    | some es' => exact .inr (.inl ⟨es', rfl, rfl, rfl, rfl⟩)
    | none => exact .inr (.inr ⟨rfl, rfl, rfl, rfl⟩)

theorem learnedCache_of_cacheUpdate {es es' : List CacheEntry} {ht : Half} {ip : IpAddr} {hw : MacAddr}
    (h : cacheUpdate es ht ip hw = some es') : learnedCache es ht ip hw = es' ∧ learnReport es ht ip hw = .cacheUpdated := by
  simp [learnedCache, learnReport, h]

/-- R29: an entry that is Resolved stays so, with its key. -/
theorem learnedCache_keeps_key {es : List CacheEntry} {i : Nat} {ht : Half} {ip : IpAddr} {m : MacAddr}
    (h : es[i]? = some (.resolved ht ip m)) (ht' : Half) (ip' : IpAddr) (hw : MacAddr) :
    ∃ m', (learnedCache es ht' ip' hw)[i]? = some (.resolved ht ip m') := by
  obtain ⟨es', hu, he, -⟩ | ⟨es', -, hi, he, -⟩ | ⟨-, -, he, -⟩ := learned_cases es ht' ip' hw
  · obtain ⟨j, m₀, hj, rfl⟩ := cacheUpdate_eq_some hu
    rw [he, List.getElem?_set]
    split
    · next hji =>
      subst hji
      obtain ⟨rfl, rfl, -⟩ := CacheEntry.resolved.inj (Option.some.inj (hj.symm.trans h))
      exact ⟨hw, if_pos (List.getElem?_eq_some_iff.1 h).1⟩
    · exact ⟨m, h⟩
  · obtain ⟨j, hj, rfl⟩ := cacheInsert_eq_some hi
    rw [he, List.getElem?_set]
    split
    · next hji =>
      subst hji
      cases hj.symm.trans h
    · exact ⟨m, h⟩
  · exact ⟨m, by rwa [he]⟩

/-! ### The invariant of the cache (R28, R112) -/

theorem cacheUpdate_keys {es es' : List CacheEntry} {ht : Half} {ip : IpAddr} {hw : MacAddr} (h : cacheUpdate es ht ip hw = some es') :
    es'.filterMap CacheEntry.key = es.filterMap CacheEntry.key := by
  induction es generalizing es' with
  | nil => cases h
  | cons e es ih =>
    rw [cacheUpdate] at h
    split at h
    · next hkey =>
      obtain ⟨m, rfl⟩ := CacheEntry.hasKey_iff.1 hkey
      cases h
      rfl
    · obtain ⟨es₁, hes, rfl⟩ := Option.map_eq_some_iff.1 h
      simp only [List.filterMap_cons, ih hes]

/-- R112: the insert adds its key to the keys, and nothing else. -/
theorem cacheInsert_keys {es es' : List CacheEntry} {ht : Half} {ip : IpAddr} {hw : MacAddr} (h : cacheInsert es ht ip hw = some es') :
    (es'.filterMap CacheEntry.key).Perm ((ht, ip) :: es.filterMap CacheEntry.key) := by
  induction es generalizing es' with
  | nil => cases h
  | cons e es ih =>
    cases e with
    | free =>
      cases h
      exact .refl _
    | resolved h' i' m' =>
      obtain ⟨es₁, hes, rfl⟩ := Option.map_eq_some_iff.1 h
      exact ((ih hes).cons _).trans (.swap ..)

theorem cacheFreeSuffix_of_all_free {es : List CacheEntry} (h : es.all (· == .free) = true) : cacheFreeSuffix es = true := by
  cases es with
  | nil => rfl
  | cons e es =>
    obtain ⟨he, hes⟩ := Bool.and_eq_true_iff.1 h
    rw [beq_iff_eq.1 he]
    exact hes

theorem cacheUpdate_freeSuffix {es es' : List CacheEntry} {ht : Half} {ip : IpAddr} {hw : MacAddr}
    (h : cacheUpdate es ht ip hw = some es') (hfree : cacheFreeSuffix es = true) : cacheFreeSuffix es' = true := by
  induction es generalizing es' with
  | nil => cases h
  | cons e es ih =>
    cases e with
    | free =>
      obtain ⟨es₁, hes, rfl⟩ := Option.map_eq_some_iff.1 h
      obtain ⟨i, m, hi, -⟩ := cacheUpdate_eq_some hes
      cases beq_iff_eq.1 (List.all_eq_true.1 hfree _ (List.mem_of_getElem? hi))
    | resolved h' i' m' =>
      rw [cacheUpdate] at h
      split at h
      · cases h
        exact hfree
      · obtain ⟨es₁, hes, rfl⟩ := Option.map_eq_some_iff.1 h
        exact (ih hes hfree :)

theorem cacheInsert_freeSuffix {es es' : List CacheEntry} {ht : Half} {ip : IpAddr} {hw : MacAddr}
    (h : cacheInsert es ht ip hw = some es') (hfree : cacheFreeSuffix es = true) : cacheFreeSuffix es' = true := by
  induction es generalizing es' with
  | nil => cases h
  | cons e es ih =>
    cases e with
    | free =>
      cases h
      exact (cacheFreeSuffix_of_all_free (es := es) hfree :)
    | resolved h' i' m' =>
      obtain ⟨es₁, hes, rfl⟩ := Option.map_eq_some_iff.1 h
      exact (ih hes hfree :)

theorem cacheWf_iff {es : List CacheEntry} :
    cacheWf es = true ↔ es.length = cacheEntries ∧ (es.filterMap CacheEntry.key).Nodup ∧ cacheFreeSuffix es = true := by
  simp [cacheWf, cacheKeysDistinct, and_assoc]

theorem cacheKeys_mem_iff {es : List CacheEntry} {ht : Half} {ip : IpAddr} {hw : MacAddr} :
    (ht, ip) ∉ es.filterMap CacheEntry.key ↔ cacheUpdate es ht ip hw = none := by
  simp [cacheUpdate_eq_none_iff]

/-- Step A5 keeps the invariant. -/
theorem cacheWf_learnedCache {es : List CacheEntry} (h : cacheWf es = true) (ht : Half) (ip : IpAddr) (hw : MacAddr) :
    cacheWf (learnedCache es ht ip hw) = true := by
  obtain ⟨hlen, hkeys, hfree⟩ := cacheWf_iff.1 h
  obtain ⟨es', hu, he, -⟩ | ⟨es', hu, hi, he, -⟩ | ⟨-, -, he, -⟩ := learned_cases es ht ip hw
  · rw [he]
    refine cacheWf_iff.2 ⟨?length, cacheUpdate_keys hu ▸ hkeys, cacheUpdate_freeSuffix hu hfree⟩
    case length =>
      obtain ⟨i, m, -, rfl⟩ := cacheUpdate_eq_some hu
      rw [List.length_set, hlen]
  · rw [he]
    refine cacheWf_iff.2 ⟨?length, ?keys, cacheInsert_freeSuffix hi hfree⟩
    case length =>
      obtain ⟨i, -, rfl⟩ := cacheInsert_eq_some hi
      rw [List.length_set, hlen]
    case keys => exact (cacheInsert_keys hi).nodup_iff.2 (List.nodup_cons.2 ⟨cacheKeys_mem_iff.2 hu, hkeys⟩)
  · rwa [he]

/-! ### One entry per key (R28) -/

/-- A cache with distinct keys that holds an entry with the key holds no other. -/
theorem filter_hasKey_eq_singleton {es : List CacheEntry} {ht : Half} {ip : IpAddr} {m : MacAddr}
    (hkeys : (es.filterMap CacheEntry.key).Nodup) (hmem : CacheEntry.resolved ht ip m ∈ es) :
    es.filter (·.hasKey ht ip) = [.resolved ht ip m] := by
  induction es with
  | nil => cases hmem
  | cons e es ih =>
    have hrest : (es.filterMap CacheEntry.key).Nodup := by
      rw [List.filterMap_cons] at hkeys
      split at hkeys
      · exact hkeys
      · exact (List.nodup_cons.1 hkeys).2
    by_cases hkey : e.hasKey ht ip = true
    · have hhead : (ht, ip) ∉ es.filterMap CacheEntry.key := by
        rw [List.filterMap_cons_some (CacheEntry.key_eq_some_iff.2 hkey)] at hkeys
        exact (List.nodup_cons.1 hkeys).1
      have hnone : ∀ x ∈ es, ¬ x.hasKey ht ip = true := fun x hx hxkey =>
        hhead (List.mem_filterMap.2 ⟨x, hx, CacheEntry.key_eq_some_iff.2 hxkey⟩)
      have he : e = .resolved ht ip m :=
        (List.mem_cons.1 hmem).elim Eq.symm fun hm => absurd (CacheEntry.hasKey_iff.2 ⟨m, rfl⟩) (hnone _ hm)
      rw [List.filter_cons_of_pos (p := (CacheEntry.hasKey · ht ip)) hkey, List.filter_eq_nil_iff.2 hnone, he]
    · have hm : CacheEntry.resolved ht ip m ∈ es :=
        (List.mem_cons.1 hmem).resolve_left fun he => hkey (he ▸ CacheEntry.hasKey_iff.2 ⟨m, rfl⟩)
      rw [List.filter_cons_of_neg (p := (CacheEntry.hasKey · ht ip)) hkey, ih hrest hm]

/-- An update with the address that the only entry with the key already holds changes nothing. -/
theorem cacheUpdate_same {es : List CacheEntry} {ht : Half} {ip : IpAddr} {hw : MacAddr}
    (h : es.filter (·.hasKey ht ip) = [.resolved ht ip hw]) : cacheUpdate es ht ip hw = some es := by
  cases hu : cacheUpdate es ht ip hw with
  | none =>
    have hmem : CacheEntry.resolved ht ip hw ∈ es := List.mem_of_mem_filter (h ▸ List.mem_singleton.2 rfl)
    exact absurd rfl (cacheUpdate_eq_none_iff.1 hu _ hmem)
  | some es' =>
    obtain ⟨i, m, hi, rfl⟩ := cacheUpdate_eq_some hu
    have hmem : CacheEntry.resolved ht ip m ∈ es.filter (·.hasKey ht ip) :=
      List.mem_filter.2 ⟨List.mem_of_getElem? hi, CacheEntry.hasKey_iff.2 ⟨m, rfl⟩⟩
    rw [h] at hmem
    rw [List.mem_singleton.1 hmem] at hi
    obtain ⟨hlt, hget⟩ := List.getElem?_eq_some_iff.1 hi
    rw [← hget, List.set_getElem_self]

/-- A sender that was learned stands in the cache. -/
theorem mem_learnedCache {es : List CacheEntry} {ht : Half} {ip : IpAddr} {hw : MacAddr} (h : learnReport es ht ip hw ≠ .cacheFull) :
    CacheEntry.resolved ht ip hw ∈ learnedCache es ht ip hw := by
  obtain ⟨es', hu, he, -⟩ | ⟨es', -, hi, he, -⟩ | ⟨-, -, -, hr⟩ := learned_cases es ht ip hw
  · obtain ⟨i, m, hget, rfl⟩ := cacheUpdate_eq_some hu
    exact he ▸ List.mem_set (List.getElem?_eq_some_iff.1 hget).1 _
  · obtain ⟨i, hget, rfl⟩ := cacheInsert_eq_some hi
    exact he ▸ List.mem_set (List.getElem?_eq_some_iff.1 hget).1 _
  · exact absurd hr h

/-! ### The statements -/

/-- Settles O19. -/
theorem learningKeepsCacheInvariant : Obligations.LearningKeepsCacheInvariant := by
  intro s ht ip hw h
  rw [State.learn_eq]
  exact ⟨cacheWf_learnedCache h ht ip hw, rfl⟩

/-- Settles O20: the learned sender stands in a cache with distinct keys, so it is the only entry with its key, and writing it again changes
nothing. -/
theorem learningTwiceIsAnUpdate : Obligations.LearningTwiceIsAnUpdate := by
  intro c ht ip hw hwf hfull
  obtain ⟨-, hkeys, -⟩ := cacheWf_iff.1 (cacheWf_learnedCache hwf ht ip hw)
  have honly := filter_hasKey_eq_singleton hkeys (mem_learnedCache hfull)
  obtain ⟨hcache, hreport⟩ := learnedCache_of_cacheUpdate (cacheUpdate_same honly)
  exact ⟨hreport, hcache, honly⟩

/-- Settles O21: without the key the update finds nothing, and the insert finds nothing exactly when no entry is Free. -/
theorem fullCacheIsNotAltered : Obligations.FullCacheIsNotAltered := by
  intro c ht ip hw hkey
  have hu : cacheUpdate c ht ip hw = none := cacheUpdate_eq_none_iff.2 hkey
  rw [← cacheInsert_eq_none_iff (ht := ht) (ip := ip) (hw := hw)]
  obtain ⟨es', hu', -⟩ | ⟨es', -, hi, -, hr⟩ | ⟨-, hi, he, hr⟩ := learned_cases c ht ip hw
  · cases hu.symm.trans hu'
  · simp [hr, hi]
  · simp [hr, hi, he]

end Sys2Proof.Machine
end

section
/-! SUPPORT. The whole-machine statements (10_state.md R26, R29, R35, 60_exceptions.md R195, R196, 70_reset_and_hazards.md R230): each is read off the
step's cases and what the decoded class leaves. -/

namespace Sys2Proof.Machine

/-! ### The cache and the reports of a class -/

/-- The cache after a frame is the old one, or the one that has learned a sender (R110). -/
theorem cacheAfter_cases (i : Instr) (es : List CacheEntry) :
    i.cacheAfter es = es ∨ ∃ ht ip hw, i.cacheAfter es = learnedCache es ht ip hw := by
  cases i with
  | arpRequest | arpReplyIn | arpOpcodeOther => exact .inr ⟨_, _, _, rfl⟩
  | _ => exact .inl rfl

/-- Which cache report is made is one of three (R110). -/
theorem learnReport_cases (es : List CacheEntry) (ht : Half) (ip : IpAddr) (hw : MacAddr) :
    learnReport es ht ip hw = .cacheUpdated ∨ learnReport es ht ip hw = .cacheInserted ∨ learnReport es ht ip hw = .cacheFull := by
  obtain ⟨-, -, -, h⟩ | ⟨-, -, -, -, h⟩ | ⟨-, -, -, h⟩ := learned_cases es ht ip hw
  · exact .inl h
  · exact .inr (.inl h)
  · exact .inr (.inr h)

/-! ### The possible report lists (R196) -/

theorem reportListAllowed_learned (p : NotForUsPolicy) (es : List CacheEntry) (ht : Half) (ip : IpAddr) (hw : MacAddr)
    (rs : List Report) : reportListAllowed p (⟨learnReport es ht ip hw, .arp⟩ :: rs) = arpReportsAllowed p rs := by
  obtain h | h | h := learnReport_cases es ht ip hw <;> rw [h] <;> rfl

/-- The reports past the check of a target are allowed under both policies, so they are with the check before them. -/
theorem arpReportsAllowed_checked (c : Config) (ip : IpAddr) {more : List Report}
    (hmore : more = [⟨.unhandledOpcode, .arp⟩] ∨ ∃ v, more = verdictReports v) :
    arpReportsAllowed c.policy (checkedReports c .arp ip more) = true := by
  obtain ⟨h, -⟩ | ⟨hp, h, -⟩ | ⟨hp, h, -⟩ := checked_cases c .arp ip more none
  · rw [h]
    obtain rfl | ⟨v, rfl⟩ := hmore
    · cases c.policy <;> rfl
    · cases c.policy <;> cases v <;> rfl
  · rw [h, hp]
    obtain rfl | ⟨v, rfl⟩ := hmore
    · rfl
    · cases v <;> rfl
  · rw [h, hp]
    rfl

/-- As `arpReportsAllowed_checked`, for the check of an IPv4 destination. -/
theorem reportListAllowed_checked (c : Config) (ip : IpAddr) {more : List Report}
    (hmore : more = [⟨.ipUnsupportedProtocol, .ip⟩] ∨ more = [⟨.truncated, .icmp⟩] ∨ (∃ v, more = verdictReports v) ∨
      ∃ v, more = ⟨.unhandledIcmpType, .icmp⟩ :: verdictReports v) :
    reportListAllowed c.policy (checkedReports c .ip ip more) = true := by
  obtain ⟨h, -⟩ | ⟨hp, h, -⟩ | ⟨hp, h, -⟩ := checked_cases c .ip ip more none
  · rw [h]
    obtain rfl | rfl | ⟨v, rfl⟩ | ⟨v, rfl⟩ := hmore
    · cases c.policy <;> rfl
    · cases c.policy <;> rfl
    · cases c.policy <;> cases v <;> rfl
    · cases c.policy <;> cases v <;> rfl
  · rw [h, hp]
    obtain rfl | rfl | ⟨v, rfl⟩ | ⟨v, rfl⟩ := hmore
    · rfl
    · rfl
    · cases v <;> rfl
    · cases v <;> rfl
  · rw [h, hp]
    rfl

/-- Every class makes one of the listed report lists (R196). -/
theorem reportListAllowed_reportsMade (c : Config) (es : List CacheEntry) (v : Verdict) (i : Instr) :
    reportListAllowed c.policy (i.reportsMade c es v) = true := by
  cases i with
  | arpRequest => exact (reportListAllowed_learned ..).trans (arpReportsAllowed_checked c _ (.inr ⟨v, rfl⟩))
  | arpReplyIn | arpOpcodeOther => exact (reportListAllowed_learned ..).trans (arpReportsAllowed_checked c _ (.inl rfl))
  | ipNotIcmp => exact reportListAllowed_checked c _ (.inl rfl)
  | icmpRunt => exact reportListAllowed_checked c _ (.inr (.inl rfl))
  | icmpEchoRequest => exact reportListAllowed_checked c _ (.inr (.inr (.inl ⟨v, rfl⟩)))
  | icmpOtherType => exact reportListAllowed_checked c _ (.inr (.inr (.inr ⟨v, rfl⟩)))
  | ethOther => cases c.policy <;> rfl
  | _ => rfl

/-- Settles O53: a reset reports nothing, a halt its cause, and a frame what its class makes. -/
theorem reportListsAreTheListedOnes : Obligations.ReportListsAreTheListedOnes := by
  intro s t h
  obtain ⟨rest, -, rfl⟩ | ⟨c, v, rest, rfl⟩ | ⟨bytes, v, rest, -, rfl⟩ := step_eq_next_cases h
  · cases s.cfg.policy <;> rfl
  · cases c <;> rfl
  · exact reportListAllowed_reportsMade s.cfg s.cache v (decode bytes)

/-! ### Faults, phase, configuration, invariant -/

/-- Settles O50: an event in a halted phase and a frame that does not fit are refused, every other frame ends as its class. -/
theorem stepNeverFaults : Obligations.StepNeverFaults := by
  intro s
  cases hin : s.inputs with
  | nil => simp only [step, State.transition, hin, faults]
  | cons x rest =>
    cases x with
    | reset => rw [step_of_reset hin, faults]
    | event e v =>
      cases hp : s.phase with
      | halted c => simp only [step, State.transition, hin, hp, faults]
      | idle =>
        cases e with
        | readFailed => rw [step_of_event hp hin, State.eventStep, faults]
        | sourceClosed => rw [step_of_event hp hin, State.eventStep, faults]
        | frame bytes =>
          by_cases hfit : bytes.length ≤ s.cfg.frameBufferBytes
          · rw [step_eq_afterClass ⟨hp, hin, hfit⟩, faults]
          · have hrefused : (s.take rest v).frameStep bytes = .refused .frameTooLong := if_neg hfit
            rw [step_of_event hp hin, State.eventStep, hrefused, faults]

/-- Settles O51. -/
theorem everyFrameEndsIdle : Obligations.EveryFrameEndsIdle := by
  intro s bytes v rest ho
  exact ⟨_, step_eq_afterClass ho, ho.idle, rfl⟩

/-- Settles O52. -/
theorem configurationNeverChanges : Obligations.ConfigurationNeverChanges := by
  intro s t h
  obtain ⟨rest, -, rfl⟩ | ⟨c, v, rest, rfl⟩ | ⟨bytes, v, rest, -, rfl⟩ := step_eq_next_cases h
  · rfl
  · rfl
  · rfl

/-- Settles O22: a halt keeps the cache, and a frame at most learns a sender. -/
theorem resolvedEntriesKeepTheirKeys : Obligations.ResolvedEntriesKeepTheirKeys := by
  intro s t e v rest hin h i ht ip m hi
  obtain ⟨rest', hreset, -⟩ | ⟨c, v', rest', rfl⟩ | ⟨bytes, v', rest', -, rfl⟩ := step_eq_next_cases h
  · rw [hin] at hreset
    cases hreset
  · exact ⟨m, hi⟩
  · rw [State.afterClass_cache]
    obtain he | ⟨ht', ip', hw, he⟩ := cacheAfter_cases (decode bytes) s.cache
    · exact ⟨m, by rwa [he]⟩
    · rw [he]
      exact learnedCache_keeps_key hi ht' ip' hw

theorem State.inv_iff {s : State} :
    s.inv = true ↔ cacheWf s.cache = true ∧ s.buf.holdsExactly s.len = true ∧ s.len ≤ s.cfg.frameBufferBytes ∧ s.cfg.wellFormed = true := by
  simp [State.inv, and_assoc]

/-- Every cache entry is Free after reset (R220). -/
theorem cacheWf_replicate_free : cacheWf (List.replicate cacheEntries .free) = true := by decide

/-- Settles O49: only a reset and the learning of a sender write the cache; the buffer is left empty, and kept by a halt. -/
theorem stepKeepsInvariant : Obligations.StepKeepsInvariant := by
  intro s t hinv h
  obtain ⟨hcache, hbuf, hlen, hcfg⟩ := State.inv_iff.1 hinv
  obtain ⟨rest, -, rfl⟩ | ⟨c, v, rest, rfl⟩ | ⟨bytes, v, rest, -, rfl⟩ := step_eq_next_cases h
  · exact State.inv_iff.2 ⟨cacheWf_replicate_free, rfl, Nat.zero_le _, hcfg⟩
  · exact State.inv_iff.2 ⟨hcache, hbuf, hlen, hcfg⟩
  · refine State.inv_iff.2 ⟨?cache, rfl, Nat.zero_le _, hcfg⟩
    case cache =>
      rw [State.afterClass_cache]
      obtain he | ⟨ht, ip, hw, he⟩ := cacheAfter_cases (decode bytes) s.cache
      · rwa [he]
      · rw [he]
        exact cacheWf_learnedCache hcache ht ip hw

/-! ### Drops (R190, R192) -/

/-- At most `n` reports, of legal layers, at most one of them a drop, and none where a frame is sent. -/
structure ReportsSound (n : Nat) (p : NotForUsPolicy) (rs : List Report) (out : Option (List Byte)) : Prop where
  length : rs.length ≤ n
  layers : ∀ r ∈ rs, r.layer ∈ r.kind.layers
  oneDrop : (rs.filter fun r => r.kind.policy p == .drop).length ≤ 1
  silentDrop : ∀ r ∈ rs, r.kind.policy p = .drop → out = none

theorem ReportsSound.nil (n : Nat) (p : NotForUsPolicy) (out : Option (List Byte)) : ReportsSound n p [] out :=
  ⟨Nat.zero_le n, nofun, Nat.zero_le 1, nofun⟩

/-- The last report of a frame that sends nothing. -/
theorem ReportsSound.last {k : ReportKind} {l : Layer} (hl : l ∈ k.layers) (n : Nat) (p : NotForUsPolicy) :
    ReportsSound (n + 1) p [⟨k, l⟩] none :=
  ⟨Nat.le_add_left 1 n, by simpa using hl, List.length_filter_le .., fun _ _ _ => rfl⟩

/-- A report after which the frame goes on. -/
theorem ReportsSound.cons {n : Nat} {p : NotForUsPolicy} {rs : List Report} {out : Option (List Byte)} {k : ReportKind} {l : Layer}
    (hl : l ∈ k.layers) (hk : k.policy p = .proceed) (h : ReportsSound n p rs out) : ReportsSound (n + 1) p (⟨k, l⟩ :: rs) out := by
  obtain ⟨hlength, hlayers, hone, hsilent⟩ := h
  refine ⟨Nat.succ_le_succ hlength, List.forall_mem_cons.2 ⟨hl, hlayers⟩, ?_, List.forall_mem_cons.2 ⟨fun hd => ?_, hsilent⟩⟩
  · rw [List.filter_cons_of_neg (by rw [hk]; decide)]
    exact hone
  · rw [hk] at hd
    cases hd

theorem ReportsSound.verdict (n : Nat) (p : NotForUsPolicy) (v : Verdict) (out : Option (List Byte)) :
    ReportsSound (n + 1) p (verdictReports v) out := by
  cases v with
  | ok => exact .nil _ p out
  | failed => exact .cons (by decide) rfl (.nil n p out)

theorem ReportsSound.learned {n : Nat} {p : NotForUsPolicy} {rs : List Report} {out : Option (List Byte)} (h : ReportsSound n p rs out)
    (es : List CacheEntry) (ht : Half) (ip : IpAddr) (hw : MacAddr) :
    ReportsSound (n + 1) p (⟨learnReport es ht ip hw, .arp⟩ :: rs) out := by
  obtain hr | hr | hr := learnReport_cases es ht ip hw
  · exact .cons (by rw [hr]; decide) (by rw [hr]; rfl) h
  · exact .cons (by rw [hr]; decide) (by rw [hr]; rfl) h
  · exact .cons (by rw [hr]; decide) (by rw [hr]; rfl) h

theorem ReportsSound.checked {n : Nat} {c : Config} {more : List Report} {f : Option (List Byte)} (h : ReportsSound n c.policy more f)
    {l : Layer} (hl : l ∈ ReportKind.notForUs.layers) (ip : IpAddr) :
    ReportsSound (n + 1) c.policy (checkedReports c l ip more) (checkedReply c ip f) := by
  obtain ⟨hr, hf⟩ | ⟨hp, hr, hf⟩ | ⟨-, hr, hf⟩ := checked_cases c l ip more f
  · rw [hr, hf]
    exact ⟨Nat.le_succ_of_le h.length, h.layers, h.oneDrop, h.silentDrop⟩
  · rw [hr, hf]
    exact .cons hl (by rw [hp]; rfl) h
  · rw [hr, hf]
    exact .last hl n _

/-- As `ReportsSound.checked`, for a class that sends nothing. -/
theorem ReportsSound.checked_none {n : Nat} {c : Config} {more : List Report} (h : ReportsSound n c.policy more none) {l : Layer}
    (hl : l ∈ ReportKind.notForUs.layers) (ip : IpAddr) : ReportsSound (n + 1) c.policy (checkedReports c l ip more) none := by
  simpa only [checkedReply_none] using h.checked hl ip

theorem reportsSound_of_class (c : Config) (es : List CacheEntry) (v : Verdict) (i : Instr) :
    ReportsSound 3 c.policy (i.reportsMade c es v) (i.replySent c) := by
  cases i with
  | ethOther => exact .nil 3 _ _
  | arpRequest => exact ((ReportsSound.verdict 0 _ v _).checked (by decide) _).learned es _ _ _
  | arpReplyIn | arpOpcodeOther => exact ((ReportsSound.last (by decide) 0 _).checked_none (by decide) _).learned es _ _ _
  | ipNotIcmp | icmpRunt => exact (ReportsSound.last (by decide) 1 _).checked_none (by decide) _
  | icmpEchoRequest => exact (ReportsSound.verdict 1 _ v _).checked (by decide) _
  | icmpOtherType => exact (ReportsSound.cons (by decide) rfl (.verdict 0 _ v _)).checked (by decide) _
  | _ => exact .last (by decide) 2 _

/-- Settles O54. -/
theorem atMostOneDropPerStep : Obligations.AtMostOneDropPerStep := by
  intro s t h
  have hsound : ReportsSound 3 s.cfg.policy t.reports t.out := by
    obtain ⟨rest, -, rfl⟩ | ⟨c, v, rest, rfl⟩ | ⟨bytes, v, rest, -, rfl⟩ := step_eq_next_cases h
    · exact .nil 3 _ _
    · exact .last (by cases c <;> decide) 2 _
    · exact reportsSound_of_class s.cfg s.cache v (decode bytes)
  exact ⟨hsound.length, hsound.layers, hsound.oneDrop, hsound.silentDrop⟩

/-! ### The cache shows only in the cache report (R35) -/

theorem forgetCache_learnReport (es : List CacheEntry) (ht : Half) (ip : IpAddr) (hw : MacAddr) (l : Layer) :
    forgetCache ⟨learnReport es ht ip hw, l⟩ = ⟨.cacheFull, l⟩ := by
  obtain h | h | h := learnReport_cases es ht ip hw <;> rw [h] <;> rfl

theorem reportsMade_forgetCache (c : Config) (es es' : List CacheEntry) (v : Verdict) (i : Instr) :
    (i.reportsMade c es v).map forgetCache = (i.reportsMade c es' v).map forgetCache := by
  cases i with
  | arpRequest | arpReplyIn | arpOpcodeOther => simp only [Instr.reportsMade, List.map_cons, forgetCache_learnReport]
  | _ => rfl

/-- Settles O58: on the state with another cache the same stimulus is taken, and only the report of step A5 depends on the cache. -/
theorem cacheIsObservableOnlyInReports : Obligations.CacheIsObservableOnlyInReports := by
  intro s t es h
  obtain ⟨rest, hin, rfl⟩ | ⟨hp, v, rest, hin, rfl⟩ | ⟨hp, v, rest, hin, rfl⟩ | ⟨hp, bytes, v, rest, -, hin, hfit, -⟩ := step_cases h
  · exact ⟨_, step_of_reset (s := { s with cache := es }) hin, rfl, rfl, rfl⟩
  · exact ⟨_, step_of_event (s := { s with cache := es }) hp hin, rfl, rfl, rfl⟩
  · exact ⟨_, step_of_event (s := { s with cache := es }) hp hin, rfl, rfl, rfl⟩
  · have ho : s.Offers bytes v rest := ⟨hp, hin, hfit⟩
    rw [step_eq_afterClass ho] at h
    obtain rfl := Host.Outcome.next.inj h
    exact ⟨_, step_eq_afterClass ⟨hp, hin, hfit⟩, rfl, rfl, reportsMade_forgetCache s.cfg es s.cache v (decode bytes)⟩

end Sys2Proof.Machine
end

section
/-! SUPPORT. What of an inbound frame a step depends on and what of it the outbound frame shows (20_memory.md R58, 30_encoding.md R81, 40_ethernet.md R103,
70_reset_and_hazards.md R230): the outbound frames' headers, the ignored destination address, the ignored trailing bytes. -/

namespace Sys2Proof

/-! ### The fields of a frame that begins with an Ethernet header -/

theorem macAt_ethBytes_dst (eth : EthHeader) (p : List Byte) : macAt (eth.bytes ++ p) 0 = eth.dst :=
  congrArg EthHeader.dst (eth.parse_bytes p)

theorem macAt_ethBytes_src (eth : EthHeader) (p : List Byte) : macAt (eth.bytes ++ p) 6 = eth.src :=
  congrArg EthHeader.src (eth.parse_bytes p)

theorem be16At_ethBytes_etype (eth : EthHeader) (p : List Byte) : be16At (eth.bytes ++ p) 12 = eth.etype :=
  congrArg EthHeader.etype (eth.parse_bytes p)

theorem drop_ethBytes (eth : EthHeader) (p : List Byte) : (eth.bytes ++ p).drop 14 = p := List.drop_left' eth.length_bytes

/-- `TL` of a frame that holds the first 20 bytes of an IPv4 header (R73). -/
theorem tlOf_ipBytes (eth : EthHeader) (ip : IpHeader) (p : List Byte) : tlOf (eth.bytes ++ (ip.bytes ++ p)) = ip.tl.toNat := by
  have htl : be16At (eth.bytes ++ (ip.bytes ++ p)) 16 = (IpHeader.parse (ip.bytes ++ p)).tl := by
    rw [← drop_ethBytes eth (ip.bytes ++ p)]
    exact (be16At_drop _ 14 2).symm
  rw [tlOf, htl, IpHeader.parse_bytes]

theorem headerCsumOf_ipBytes (eth : EthHeader) (ip : IpHeader) (p : List Byte) :
    headerCsumOf (eth.bytes ++ (ip.bytes ++ p)) = internetChecksum ((ip.bytes ++ p).take ip.headerLen) := by
  rw [headerCsumOf_eq_parse, drop_ethBytes, IpHeader.parse_bytes]

theorem IpHeader.reply_headerLen (h : IpHeader) (c : Config) (options : List Byte) : (h.reply c options).headerLen = h.headerLen := rfl

/-! ### The outbound frames (R81, R170, R230) -/

/-- What holds of an outbound frame `f` that answers the inbound frame `bytes`. -/
def OutboundSound (c : Config) (bytes f : List Byte) : Prop :=
  f.length ≤ bytes.length ∧ macAt f 6 = c.devMac ∧ be16At f 12 = be16At bytes 12 ∧
    (be16At bytes 12 = 0x0806#16 → f.length = 42 ∧ macAt f 0 = macAt bytes 22) ∧
    (be16At bytes 12 = 0x0800#16 → f.length = tlOf bytes + 14 ∧ macAt f 0 = macAt bytes 6 ∧ headerCsumOf f = 0#16)

/-- R113: the ARP reply to a frame that holds an ARP packet. -/
theorem outboundSound_arpReply (c : Config) {eth : EthHeader} (he : eth.etype = etherTypeArp) (arp : ArpHeader) (body : ArpBody)
    (trailer : List Byte) :
    OutboundSound c (eth.bytes ++ arp.bytes ++ body.bytes ++ trailer) (arpReplyFrame c arp body) := by
  have hsha : macAt (eth.bytes ++ arp.bytes ++ body.bytes ++ trailer) 22 = body.sha := by
    simp [ArpBody.bytes, List.append_assoc, macAt_append]
  have hetype : be16At (eth.bytes ++ arp.bytes ++ body.bytes ++ trailer) 12 = etherTypeArp := by
    rw [List.append_assoc, List.append_assoc, be16At_ethBytes_etype, he]
  have hdst : macAt (arpReplyFrame c arp body) 0 = body.sha := by rw [arpReplyFrame, List.append_assoc, macAt_ethBytes_dst]
  have hsrc : macAt (arpReplyFrame c arp body) 6 = c.devMac := by rw [arpReplyFrame, List.append_assoc, macAt_ethBytes_src]
  have htype : be16At (arpReplyFrame c arp body) 12 = etherTypeArp := by
    rw [arpReplyFrame, List.append_assoc, be16At_ethBytes_etype]
  refine ⟨?_, hsrc, htype.trans hetype.symm, fun _ => ⟨Machine.length_arpReplyFrame c arp body, hdst.trans hsha.symm⟩, fun hip => ?_⟩
  · simp [Machine.length_arpReplyFrame]
    omega
  · rw [hetype] at hip
    exact absurd hip (by decide)

/-- R133: the IPv4 reply to a frame that holds a datagram, its message as long as the one it answers. -/
theorem outboundSound_ipReply (c : Config) {eth : EthHeader} (he : eth.etype = etherTypeIpv4) {ip : IpHeader} {options : List Byte}
    (hheader : 20 + options.length = ip.headerLen) {inbound message : List Byte} (hmsg : message.length = inbound.length)
    (hdatagram : ip.tl.toNat = ip.headerLen + inbound.length) (trailer : List Byte) :
    OutboundSound c (eth.bytes ++ (ip.bytes ++ (options ++ inbound ++ trailer))) (ipReplyFrame c eth ip options message) := by
  have hframe : ipReplyFrame c eth ip options message = EthHeader.bytes ⟨eth.src, c.devMac, etherTypeIpv4⟩ ++
      ((ip.reply c options).bytes ++ (options ++ message)) := by
    simp only [ipReplyFrame, List.append_assoc]
  have hsum : headerCsumOf (ipReplyFrame c eth ip options message) = 0#16 := by
    rw [hframe, headerCsumOf_ipBytes, ← List.append_assoc _ options, IpHeader.reply_headerLen, List.take_left' (by simpa using hheader),
      internetChecksum_ipReply c hheader]
  have hlength := length_ipReplyFrame c eth ip options message
  refine ⟨?_, ?_, ?_, fun harp => ?_, fun _ => ⟨?_, ?_, hsum⟩⟩
  · rw [hlength]
    simp
    omega
  · rw [hframe, macAt_ethBytes_src]
  · rw [hframe, be16At_ethBytes_etype, be16At_ethBytes_etype, he]
  · rw [be16At_ethBytes_etype, he] at harp
    exact absurd harp (by decide)
  · rw [tlOf_ipBytes, hlength]
    omega
  · rw [hframe, macAt_ethBytes_dst, macAt_ethBytes_src]

open Machine in
/-- Every frame that a class sends is sound for the frame that the class encodes. -/
theorem outboundSound_of_replySent {c : Config} {i : Instr} {f : List Byte} (hwf : i.wellFormed = true) (h : i.replySent c = some f) :
    OutboundSound c (encode i) f := by
  cases i <;> simp only [Instr.replySent, reduceCtorEq] at h
  case arpRequest eth arp body trailer =>
    obtain rfl := checkedReply_eq_some h
    obtain ⟨htypes, -⟩ := Bool.and_eq_true_iff.1 hwf
    exact outboundSound_arpReply c (arpTypesOk_iff.1 htypes).1 arp body trailer
  case icmpEchoRequest eth ip options icmp data trailer =>
    obtain rfl := checkedReply_eq_some h
    obtain ⟨hvalid, -⟩ := Bool.and_eq_true_iff.1 hwf
    obtain ⟨hip, -, hheader, hdatagram⟩ := icmpValid_iff.1 hvalid
    have hsound := outboundSound_ipReply c (etype_of_ipValid hip) hheader (inbound := icmp.bytes ++ data)
      (message := (icmp.reply data).bytes ++ data) (by simp) (by simp; omega) trailer
    simpa only [encode, List.append_assoc] using hsound
  case icmpOtherType eth ip options icmp data trailer =>
    obtain rfl := checkedReply_eq_some h
    obtain ⟨hvalid, -⟩ := Bool.and_eq_true_iff.1 hwf
    obtain ⟨hip, -, hheader, hdatagram⟩ := icmpValid_iff.1 hvalid
    have hsound := outboundSound_ipReply c (etype_of_ipValid hip) hheader (inbound := icmp.bytes ++ data)
      (message := icmp.bytes ++ data) rfl (by simp; omega) trailer
    simpa only [encode, List.append_assoc] using hsound

/-! ### Classes that leave the same (R58, R103) -/

/-- The two classes leave the same cache, reports and outbound frame on every state. -/
structure Instr.SameEnd (i j : Instr) : Prop where
  cache : ∀ es, i.cacheAfter es = j.cacheAfter es
  reports : ∀ c es v, i.reportsMade c es v = j.reportsMade c es v
  reply : ∀ c, i.replySent c = j.replySent c

theorem Instr.SameEnd.symm {i j : Instr} (h : i.SameEnd j) : j.SameEnd i :=
  ⟨fun es => (h.cache es).symm, fun c es v => (h.reports c es v).symm, fun c => (h.reply c).symm⟩

/-- R103: the ARP classes do not depend on the Ethernet header. -/
theorem decodeArp_sameEnd (eth eth' : EthHeader) (p : List Byte) : (decodeArp eth p).SameEnd (decodeArp eth' p) := by
  dsimp only [decodeArp]
  repeat' split
  all_goals exact ⟨fun _ => rfl, fun _ _ _ => rfl, fun _ => rfl⟩

theorem decodeIcmp_sameEnd (eth : EthHeader) (d : MacAddr) (ip : IpHeader) (p : List Byte) :
    (decodeIcmp { eth with dst := d } ip p).SameEnd (decodeIcmp eth ip p) := by
  dsimp only [decodeIcmp]
  repeat' split
  all_goals exact ⟨fun _ => rfl, fun _ _ _ => rfl, fun _ => rfl⟩

/-- R103, R133: the IPv4 classes depend on the Ethernet source alone. -/
theorem decodeIp_sameEnd (eth : EthHeader) (d : MacAddr) (p : List Byte) :
    (decodeIp { eth with dst := d } p).SameEnd (decodeIp eth p) := by
  dsimp only [decodeIp]
  iterate 8
    split
    · exact ⟨fun _ => rfl, fun _ _ _ => rfl, fun _ => rfl⟩
  exact decodeIcmp_sameEnd eth d _ p

theorem decode_ethBytes_sameEnd (eth : EthHeader) (d : MacAddr) (p : List Byte) :
    (decode (EthHeader.bytes { eth with dst := d } ++ p)).SameEnd (decode (eth.bytes ++ p)) := by
  rw [decode_ethBytes, decode_ethBytes]
  dsimp only
  split
  · exact ⟨fun _ => rfl, fun _ _ _ => rfl, fun _ => rfl⟩
  split
  · exact decodeArp_sameEnd _ _ p
  · exact decodeIp_sameEnd eth d p

/-- R58: bytes after a whole ARP packet only lengthen the last operand. -/
theorem decodeArp_append_sameEnd (eth : EthHeader) {p : List Byte} (h : 28 ≤ p.length) (extra : List Byte) :
    (decodeArp eth (p ++ extra)).SameEnd (decodeArp eth p) := by
  have hp : p = (ArpHeader.parse p).bytes ++ ((ArpBody.parse (p.drop 8)).bytes ++ p.drop 28) := by
    have hbody := List.take_append_drop 20 (p.drop 8)
    rw [List.drop_drop, ← ArpBody.bytes_parse (by simp; omega)] at hbody
    rw [hbody, ArpHeader.bytes_parse (by omega), List.take_append_drop]
  generalize ArpHeader.parse p = arp, ArpBody.parse (p.drop 8) = body, p.drop 28 = trailer at hp
  subst hp
  have hlen : ∀ r, ¬ (body.bytes ++ r).length < 20 := fun r => by simp
  rw [List.append_assoc, List.append_assoc, decodeArp_headerBytes, decodeArp_headerBytes, if_neg (hlen _), if_neg (hlen _),
    ArpBody.parse_bytes, ArpBody.parse_bytes]
  repeat' split
  all_goals exact ⟨fun _ => rfl, fun _ _ _ => rfl, fun _ => rfl⟩

/-- R58, R76: bytes after the datagram only lengthen the last operand. -/
theorem decodeIcmp_append_sameEnd (eth : EthHeader) {ip : IpHeader} {p : List Byte} (hhl : ip.headerLen ≤ p.length)
    (htl : ip.tl.toNat ≤ p.length) (extra : List Byte) : (decodeIcmp eth ip (p ++ extra)).SameEnd (decodeIcmp eth ip p) := by
  dsimp only [decodeIcmp]
  split
  · exact ⟨fun _ => rfl, fun _ _ _ => rfl, fun _ => rfl⟩
  next hmsg =>
  have hicmp : IcmpHeader.parse ((p ++ extra).drop ip.headerLen) = IcmpHeader.parse (p.drop ip.headerLen) := by
    have hmessage := List.take_append_drop 4 (p.drop ip.headerLen)
    rw [← IcmpHeader.bytes_parse (by simp; omega)] at hmessage
    rw [List.drop_append_of_le_length hhl, ← hmessage, List.append_assoc, IcmpHeader.parse_bytes, IcmpHeader.parse_bytes]
  rw [List.take_append_of_le_length hhl, List.take_append_of_le_length htl, hicmp]
  split
  · exact ⟨fun _ => rfl, fun _ _ _ => rfl, fun _ => rfl⟩
  · exact ⟨fun _ => rfl, fun _ _ _ => rfl, fun _ => rfl⟩

theorem decodeIp_append_sameEnd (eth : EthHeader) {p : List Byte} (hlen : 20 ≤ p.length) (hhl : (IpHeader.parse p).headerLen ≤ p.length)
    (htl : (IpHeader.parse p).tl.toNat ≤ p.length) (extra : List Byte) : (decodeIp eth (p ++ extra)).SameEnd (decodeIp eth p) := by
  have hicmp := decodeIcmp_append_sameEnd eth hhl htl extra
  have hsum := List.take_append_of_le_length hhl (l₂ := extra)
  have hp : p = (IpHeader.parse p).bytes ++ p.drop 20 := by rw [IpHeader.bytes_parse hlen, List.take_append_drop]
  have hrest : p.length = 20 + (p.drop 20).length := by simp; omega
  generalize IpHeader.parse p = ip, p.drop 20 = rest at *
  subst hp
  rw [List.append_assoc] at hicmp hsum ⊢
  have hspan : ¬ 20 + rest.length < ip.headerLen := by omega
  have hspan' : ¬ 20 + (rest ++ extra).length < ip.headerLen := by simp; omega
  have hend : 20 + (rest ++ extra).length < ip.tl.toNat ↔ 20 + rest.length < ip.tl.toNat :=
    iff_of_false (by simp; omega) (by omega)
  rw [decodeIp_headerBytes, decodeIp_headerBytes, if_neg hspan, if_neg hspan', hsum]
  simp only [hend]
  iterate 6
    split
    · exact ⟨fun _ => rfl, fun _ _ _ => rfl, fun _ => rfl⟩
  exact hicmp

namespace Machine

theorem State.afterClass_of_sameEnd {i j : Instr} (h : i.SameEnd j) (s : State) (rest : List Stimulus) (v : Verdict) :
    s.afterClass rest v i = s.afterClass rest v j := by
  rw [State.afterClass, State.afterClass, h.cache, h.reports, h.reply]

/-- Two frames of classes that leave the same, offered to the same machine, make the same step. -/
theorem step_eq_of_sameEnd {s : State} {bytes bytes' : List Byte} {v : Verdict} {rest : List Stimulus} (ho : s.Offers bytes v rest)
    (hfit : bytes'.length ≤ s.cfg.frameBufferBytes) (h : (decode bytes').SameEnd (decode bytes)) :
    step { s with inputs := .event (.frame bytes') v :: rest } = step s := by
  have ho' : State.Offers { s with inputs := .event (.frame bytes') v :: rest } bytes' v rest := ⟨ho.idle, rfl, hfit⟩
  rw [step_eq_afterClass ho, step_eq_afterClass ho', State.afterClass_of_sameEnd h]
  rfl

/-! ### The statements -/

/-- Settles O56: the frame sent is the decoded class's, and the inbound frame is the one that the class encodes. -/
theorem outboundFramesAreWellFormed : Obligations.OutboundFramesAreWellFormed := by
  intro s t bytes f v rest ho h hout
  rw [step_eq_afterClass ho] at h
  obtain rfl := Host.Outcome.next.inj h
  have hsound := outboundSound_of_replySent (decode_wellFormed bytes) hout
  rwa [encode_decode] at hsound

/-- R71: the frame after its first six bytes. -/
theorem drop_six_eq {bytes : List Byte} (h : 14 ≤ bytes.length) :
    bytes.drop 6 = macBytes (EthHeader.parse bytes).src ++ halfBytes (EthHeader.parse bytes).etype ++ bytes.drop 14 := by
  have hbytes : bytes = (EthHeader.parse bytes).bytes ++ bytes.drop 14 := by rw [EthHeader.bytes_parse h, List.take_append_drop]
  conv_lhs => rw [hbytes, EthHeader.bytes, List.append_assoc, List.append_assoc, List.drop_left' (length_macBytes _)]
  rw [List.append_assoc]

/-- Settles O57: the frame with another first field parses to the same header but for the destination. -/
theorem destinationMacIsIgnored : Obligations.DestinationMacIsIgnored := by
  intro s bytes d v rest ho hlen hd
  have hfits := ho.fits
  refine step_eq_of_sameEnd ho (by simp; omega) ?_
  have hdst : macBytes (macAt d 0) = d := by rw [macBytes_macAt (by omega), List.drop_zero, List.take_of_length_le (by omega)]
  have hother : d ++ bytes.drop 6 = EthHeader.bytes { EthHeader.parse bytes with dst := macAt d 0 } ++ bytes.drop 14 := by
    rw [drop_six_eq hlen, EthHeader.bytes, hdst]
    simp only [List.append_assoc]
  have hsame := decode_ethBytes_sameEnd (EthHeader.parse bytes) (macAt d 0) (bytes.drop 14)
  rwa [← hother, EthHeader.bytes_parse hlen, List.take_append_drop] at hsame

/-- Settles O59: an ARP packet or a datagram that is there whole has the same class with the bytes after it, and the class leaves the same. -/
theorem trailingBytesAreIgnored : Obligations.TrailingBytesAreIgnored := by
  intro s bytes extra v rest ho h
  have hfits := ho.fits
  rw [List.length_append] at hfits
  have hlen : 14 ≤ bytes.length := by obtain ⟨-, hlen⟩ | ⟨-, hlen, -⟩ := h <;> omega
  have hsame : (decode (bytes ++ extra)).SameEnd (decode bytes) := by
    have hbytes : bytes = (EthHeader.parse bytes).bytes ++ bytes.drop 14 := by rw [EthHeader.bytes_parse hlen, List.take_append_drop]
    have hdrop : (bytes.drop 14).length = bytes.length - 14 := List.length_drop
    obtain ⟨he, hpacket⟩ | ⟨he, hheader, hspan, hdatagram⟩ := h
    · rw [hbytes, List.append_assoc, decode_arpBytes he, decode_arpBytes he]
      exact decodeArp_append_sameEnd _ (by omega) extra
    · rw [ihlOf_mul_four] at hspan
      rw [tlOf, ← be16At_drop bytes 14 2] at hdatagram
      rw [hbytes, List.append_assoc, decode_ipBytes he, decode_ipBytes he]
      exact decodeIp_append_sameEnd _ (by omega) (by omega) (by simp only [IpHeader.parse]; omega) extra
  exact (step_eq_of_sameEnd ho (by omega) hsame.symm :)

end Machine

end Sys2Proof
end

section
/-! SUPPORT. The opcode table and the decoder (30_encoding.md R79, R80): what each mask, match and guard of the table says of the fields of a frame, and
that the first row that applies is the decoded class's. -/

namespace Sys2Proof

/-! ### Masks and matches over the fields of a frame (R71 to R73, R80) -/

@[simp] theorem maskMatches_nil (buf bits : List Byte) : maskMatches buf [] bits = true := by cases buf <;> rfl

@[simp] theorem maskMatches_cons (b m x : Byte) (buf mask bits : List Byte) :
    maskMatches (b :: buf) (m :: mask) (x :: bits) = (b &&& m == x && maskMatches buf mask bits) := rfl

/-- Bytes that the mask leaves open. -/
theorem maskMatches_open (w : List Byte) (q mask bits : List Byte) :
    maskMatches (w ++ q) (List.replicate w.length 0#8 ++ mask) (List.replicate w.length 0#8 ++ bits) = maskMatches q mask bits := by
  induction w with
  | nil => rfl
  | cons b w ih => simp [List.replicate_succ, ih]

theorem halfBytes_eq_parts (v : Half) : halfBytes v = [v.extractLsb' 8 8, v.extractLsb' 0 8] := by
  simp only [halfBytes, beBytes, List.cons.injEq, and_true]
  constructor <;> apply BitVec.eq_of_toNat_eq <;> simp [BitVec.extractLsb'_toNat, Nat.shiftRight_eq_div_pow]

theorem half_eq_pair_iff (v : Half) (a b : Byte) : v = a ++ b ↔ v.extractLsb' 8 8 = a ∧ v.extractLsb' 0 8 = b := by
  refine ⟨?_, fun ⟨ha, hb⟩ => ?_⟩
  · rintro rfl
    exact ⟨high_part 8 8 a b, low_part 8 8 a b⟩
  · rw [← ha, ← hb, append_parts 8 8 v]

theorem and_all_ones (b : Byte) : b &&& 0xff#8 = b := BitVec.and_allOnes

/-- A 16-bit field that the mask fixes. -/
theorem maskMatches_half (v : Half) (a b : Byte) (q mask bits : List Byte) :
    maskMatches (halfBytes v ++ q) (0xff#8 :: 0xff#8 :: mask) (a :: b :: bits) = (v == a ++ b && maskMatches q mask bits) := by
  have hv : (v == a ++ b) = (v.extractLsb' 8 8 == a && v.extractLsb' 0 8 == b) := by
    rw [Bool.eq_iff_iff]
    simpa using half_eq_pair_iff v a b
  rw [halfBytes_eq_parts, hv, Bool.and_assoc]
  simp only [List.cons_append, List.nil_append, maskMatches_cons, and_all_ones]

/-- The EtherType that a row of the table fixes, before what it fixes of the payload. -/
theorem maskMatches_etype (eth : EthHeader) (a b : Byte) (p mask bits : List Byte) :
    maskMatches (eth.bytes ++ p) (etypeMask mask) (openAddresses ++ [a, b] ++ bits) = (eth.etype == a ++ b && maskMatches p mask bits) := by
  have hopen := maskMatches_open (macBytes eth.dst ++ macBytes eth.src) (halfBytes eth.etype ++ p) (0xff#8 :: 0xff#8 :: mask)
    (a :: b :: bits)
  simp only [List.length_append, length_macBytes, maskMatches_half] at hopen
  simpa only [EthHeader.bytes, etypeMask, openAddresses, List.append_assoc, List.cons_append, List.nil_append] using hopen

/-- The version nibble that a row of the table fixes (R75). -/
theorem version_mask (v i : BitVec 4) : ((v ++ i : Byte) &&& 0xf0#8 == 0x40#8) = (v == 4#4) := by
  revert v i
  decide

/-- The mask of rows 12 and 14 to 17 over an IPv4 header. -/
theorem maskMatches_version (ip : IpHeader) (q : List Byte) : maskMatches (ip.bytes ++ q) [0xf0#8] [0x40#8] = (ip.ver == 4#4) := by
  simp [IpHeader.bytes, version_mask]

/-- The mask of row 13 over an IPv4 header. -/
theorem maskMatches_ttl (ip : IpHeader) (q : List Byte) :
    maskMatches (ip.bytes ++ q) [0xf0#8, 0#8, 0#8, 0#8, 0#8, 0#8, 0#8, 0#8, 0xff#8] [0x40#8, 0#8, 0#8, 0#8, 0#8, 0#8, 0#8, 0#8, 0x00#8] =
      (ip.ver == 4#4 && ip.ttl == 0#8) := by
  simp [IpHeader.bytes, halfBytes_eq_parts, version_mask, and_all_ones]

/-- The mask of rows 18 to 20 over an IPv4 header. -/
theorem maskMatches_icmp (ip : IpHeader) (q : List Byte) :
    maskMatches (ip.bytes ++ q) icmpMask icmpBits = (ip.ver == 4#4 && ip.proto == 1#8) := by
  simp [icmpMask, icmpBits, IpHeader.bytes, halfBytes_eq_parts, version_mask, and_all_ones]

/-- The masks of rows 5 to 9 over an ARP header. -/
theorem maskMatches_arpTypes (arp : ArpHeader) (q : List Byte) :
    maskMatches (arp.bytes ++ q) [0xff#8, 0xff#8] [0x00#8, 0x01#8] = (arp.htype == 1#16) ∧
    maskMatches (arp.bytes ++ q) [0xff#8, 0xff#8, 0xff#8, 0xff#8] [0x00#8, 0x01#8, 0x08#8, 0x00#8] =
      (arp.htype == 1#16 && arp.ptype == 0x0800#16) ∧
    ∀ b : Byte, maskMatches (arp.bytes ++ q) [0xff#8, 0xff#8, 0xff#8, 0xff#8, 0#8, 0#8, 0xff#8, 0xff#8]
        [0x00#8, 0x01#8, 0x08#8, 0x00#8, 0#8, 0#8, 0x00#8, b] =
      (arp.htype == 1#16 && (arp.ptype == 0x0800#16 && arp.oper == 0#8 ++ b)) := by
  simp [ArpHeader.bytes, List.append_assoc, maskMatches_half]

/-- The EtherType of a row of the ARP group, or of the IPv4 group, on a frame. -/
theorem maskMatches_arpBits (eth : EthHeader) (p mask bits : List Byte) :
    maskMatches (eth.bytes ++ p) (etypeMask mask) (arpBits bits) = (eth.etype == etherTypeArp && maskMatches p mask bits) :=
  maskMatches_etype eth 0x08#8 0x06#8 p mask bits

theorem maskMatches_ipBits (eth : EthHeader) (p mask bits : List Byte) :
    maskMatches (eth.bytes ++ p) (etypeMask mask) (ipBits bits) = (eth.etype == etherTypeIpv4 && maskMatches p mask bits) :=
  maskMatches_etype eth 0x08#8 0x00#8 p mask bits

@[simp] theorem length_etypeMask (mask : List Byte) : (etypeMask mask).length = 14 + mask.length := by
  simp [etypeMask, openAddresses]
  omega

/-! ### The fields that the guards read -/

theorem payloadLen_ethBytes (eth : EthHeader) (p : List Byte) : payloadLen (eth.bytes ++ p) = p.length := by
  simp [payloadLen]

theorem guard_arpFields (eth : EthHeader) (arp : ArpHeader) (rest : List Byte) :
    be16At (eth.bytes ++ (arp.bytes ++ rest)) 14 = arp.htype ∧ be16At (eth.bytes ++ (arp.bytes ++ rest)) 16 = arp.ptype ∧
      be16At (eth.bytes ++ (arp.bytes ++ rest)) 20 = arp.oper := by
  have hparse := arp.parse_bytes rest
  refine ⟨?_, ?_, ?_⟩
  · rw [be16At_append (by simp)]
    exact (congrArg ArpHeader.htype hparse :)
  · rw [be16At_append (by simp)]
    exact (congrArg ArpHeader.ptype hparse :)
  · rw [be16At_append (by simp)]
    exact (congrArg ArpHeader.oper hparse :)

theorem guard_ipFields (eth : EthHeader) (ip : IpHeader) (rest : List Byte) :
    (verOf (eth.bytes ++ (ip.bytes ++ rest)) == 4) = (ip.ver == 4#4) ∧ ihlOf (eth.bytes ++ (ip.bytes ++ rest)) = ip.ihl.toNat ∧
      byteAt (eth.bytes ++ (ip.bytes ++ rest)) 22 = ip.ttl ∧ byteAt (eth.bytes ++ (ip.bytes ++ rest)) 23 = ip.proto := by
  have hparse : IpHeader.parse ((eth.bytes ++ (ip.bytes ++ rest)).drop 14) = ip := by rw [drop_ethBytes, ip.parse_bytes]
  refine ⟨?_, ?_, ?_, ?_⟩
  · rw [Bool.eq_iff_iff, beq_iff_eq, beq_iff_eq, verOf_eq_four_iff, hparse]
  · rw [ihlOf_eq_parse, hparse]
  · rw [← ttl_parse, hparse]
  · rw [← byteAt_drop _ 14 9]
    exact (congrArg IpHeader.proto hparse :)

/-! ### The first row that applies (R80) -/

/-- The first of the names whose condition holds. -/
def firstApplying : List String → List Bool → Option String
  | n :: ns, b :: bs => if b then some n else firstApplying ns bs
  | _, _ => none

theorem classByTable_eq_firstApplying (buf : List Byte) :
    classByTable buf = firstApplying (classTable.map ClassRow.mnemonic) (classTable.map (·.applies buf)) := by
  rw [classByTable]
  induction classTable with
  | nil => rfl
  | cons r rs ih =>
    rw [List.find?_cons, List.map_cons, List.map_cons, firstApplying]
    cases r.applies buf with
    | true => rfl
    | false => exact ih

/-- What each row of the table says of a frame that holds a fixed ARP header. -/
theorem applies_arpHeader {eth : EthHeader} (he : eth.etype = etherTypeArp) (arp : ArpHeader) (rest : List Byte) :
    classTable.map (·.applies (eth.bytes ++ (arp.bytes ++ rest))) =
      [false, false, false, arp.htype != 1#16, arp.htype == 1#16 && arp.ptype != 0x0800#16,
        arp.htype == 1#16 && arp.ptype == 0x0800#16 && decide (rest.length < 20),
        arp.htype == 1#16 && arp.ptype == 0x0800#16 && arp.oper == 1#16 && decide (20 ≤ rest.length),
        arp.htype == 1#16 && arp.ptype == 0x0800#16 && arp.oper == 2#16 && decide (20 ≤ rest.length),
        arp.htype == 1#16 && arp.ptype == 0x0800#16 && decide (20 ≤ rest.length) && arp.oper != 1#16 && arp.oper != 2#16] ++
      List.replicate 11 false := by
  obtain ⟨hh, hp, ho⟩ := guard_arpFields eth arp rest
  obtain ⟨hm, hm', hm''⟩ := maskMatches_arpTypes arp rest
  have hshort : (8 + rest.length < 28) ↔ rest.length < 20 := by omega
  have hwhole : (28 ≤ 8 + rest.length) ↔ 20 ≤ rest.length := by omega
  have hne : ¬ etherTypeArp = etherTypeIpv4 := by decide
  have h18 : 18 ≤ 14 + (8 + rest.length) := by omega
  have h16 : 16 ≤ 14 + (8 + rest.length) := by omega
  have h22 : 22 ≤ 14 + (8 + rest.length) := by omega
  simp [classTable, ClassRow.applies, maskMatches_arpBits, maskMatches_ipBits, be16At_ethBytes_etype, payloadLen_ethBytes, hh, hp, ho,
    hm, hm', hm'', he, hne, hshort, hwhole, h18, h16, h22, Bool.and_assoc]

/-- Rows 4 to 9 of the table and of R79. -/
theorem classByTable_arpHeader {eth : EthHeader} (he : eth.etype = etherTypeArp) (arp : ArpHeader) (rest : List Byte) :
    classByTable (eth.bytes ++ (arp.bytes ++ rest)) = some (decodeArp eth (arp.bytes ++ rest)).mnemonic := by
  rw [classByTable_eq_firstApplying, applies_arpHeader he, decodeArp_headerBytes]
  by_cases hh : arp.htype = arpHardwareEthernet
  · by_cases hp : arp.ptype = arpProtocolIpv4
    · by_cases hlen : rest.length < 20
      · simp [hh, hp, hlen, firstApplying, classTable, Instr.mnemonic]
      · by_cases ho : arp.oper = arpRequestOpcode
        · simp [hh, hp, hlen, ho, Nat.not_lt.1 hlen, firstApplying, classTable, Instr.mnemonic]
        · by_cases ho' : arp.oper = arpReplyOpcode
          · have hne : ¬ arpReplyOpcode = arpRequestOpcode := by decide
            simp [hh, hp, hlen, ho', hne, Nat.not_lt.1 hlen, firstApplying, classTable, Instr.mnemonic]
          · simp [hh, hp, hlen, ho, ho', Nat.not_lt.1 hlen, firstApplying, classTable, Instr.mnemonic]
    · simp [hh, hp, firstApplying, classTable, Instr.mnemonic]
  · simp [hh, firstApplying, classTable, Instr.mnemonic]

/-- The shared guards of rows 14 to 20 on a frame that holds the first 20 bytes of an IPv4 header. -/
theorem guards_ipHeader (eth : EthHeader) (ip : IpHeader) (rest : List Byte) :
    guardHeader (eth.bytes ++ (ip.bytes ++ rest)) = (decide (5 ≤ ip.ihl.toNat) && ip.ttl != 0#8) ∧
    guardDatagram (eth.bytes ++ (ip.bytes ++ rest)) =
      (decide (5 ≤ ip.ihl.toNat) && ip.ttl != 0#8 && ip.ver == 4#4 && decide (ip.headerLen ≤ 20 + rest.length) &&
        internetChecksum ((ip.bytes ++ rest).take ip.headerLen) == 0#16 && decide (ip.headerLen ≤ ip.tl.toNat) &&
        decide (ip.tl.toNat ≤ 20 + rest.length)) := by
  obtain ⟨hver, hihl, httl, -⟩ := guard_ipFields eth ip rest
  have hspan : ip.ihl.toNat * 4 = ip.headerLen := rfl
  simp [guardDatagram, guardHeader, payloadLen_ethBytes, hver, hihl, httl, tlOf_ipBytes, headerCsumOf_ipBytes, hspan]

/-- What each row of the table says of a frame that holds the first 20 bytes of an IPv4 header. -/
theorem applies_ipHeader {eth : EthHeader} (he : eth.etype = etherTypeIpv4) (ip : IpHeader) (rest : List Byte) :
    let buf := eth.bytes ++ (ip.bytes ++ rest)
    classTable.map (·.applies buf) =
      List.replicate 10 false ++
      [ip.ver != 4#4, ip.ver == 4#4 && decide (ip.ihl.toNat < 5), ip.ver == 4#4 && ip.ttl == 0#8 && decide (5 ≤ ip.ihl.toNat),
        ip.ver == 4#4 && guardHeader buf && decide (20 + rest.length < ip.headerLen),
        ip.ver == 4#4 && guardHeader buf && decide (ip.headerLen ≤ 20 + rest.length) &&
          internetChecksum ((ip.bytes ++ rest).take ip.headerLen) != 0#16,
        ip.ver == 4#4 && guardHeader buf && ip.ver == 4#4 && decide (ip.headerLen ≤ 20 + rest.length) &&
          internetChecksum ((ip.bytes ++ rest).take ip.headerLen) == 0#16 &&
          (decide (ip.tl.toNat < ip.headerLen) || decide (20 + rest.length < ip.tl.toNat)),
        ip.ver == 4#4 && guardDatagram buf && ip.proto != 1#8,
        ip.ver == 4#4 && ip.proto == 1#8 && guardDatagram buf && decide (ip.tl.toNat - ip.headerLen < 4),
        ip.ver == 4#4 && ip.proto == 1#8 && guardDatagram buf && decide (4 ≤ ip.tl.toNat - ip.headerLen) &&
          byteAt buf (14 + ip.headerLen) == 8#8,
        ip.ver == 4#4 && ip.proto == 1#8 && guardDatagram buf && decide (4 ≤ ip.tl.toNat - ip.headerLen) &&
          byteAt buf (14 + ip.headerLen) != 8#8] := by
  obtain ⟨hver, hihl, httl, hproto⟩ := guard_ipFields eth ip rest
  have hspan : ip.ihl.toNat * 4 = ip.headerLen := rfl
  have hne : ¬ etherTypeIpv4 = etherTypeArp := by decide
  have h15 : 15 ≤ 14 + (20 + rest.length) := by omega
  have h23 : 23 ≤ 14 + (20 + rest.length) := by omega
  have h24 : icmpMask.length ≤ 20 + rest.length := Nat.le_add_right_of_le (by decide)
  simp [classTable, ClassRow.applies, maskMatches_arpBits, maskMatches_ipBits, be16At_ethBytes_etype, payloadLen_ethBytes,
    maskMatches_version, maskMatches_ttl, maskMatches_icmp, hver, hihl, hproto, tlOf_ipBytes, headerCsumOf_ipBytes, hspan, bne,
    hne, he, h15, h23, h24, Bool.and_assoc]

/-- Rows 11 to 20 of the table and of R79: the decoder's conditions, one after the other, decide which row is the first that applies. -/
theorem classByTable_ipHeader {eth : EthHeader} (he : eth.etype = etherTypeIpv4) (ip : IpHeader) (rest : List Byte) :
    classByTable (eth.bytes ++ (ip.bytes ++ rest)) = some (decodeIp eth (ip.bytes ++ rest)).mnemonic := by
  obtain ⟨hheader, hdatagram⟩ := guards_ipHeader eth ip rest
  have htype : byteAt (eth.bytes ++ (ip.bytes ++ rest)) (14 + ip.headerLen) =
      (IcmpHeader.parse ((ip.bytes ++ rest).drop ip.headerLen)).icmpType := by
    rw [byteAt_append (by simp), EthHeader.length_bytes, Nat.add_sub_cancel_left]
    exact (byteAt_drop (ip.bytes ++ rest) ip.headerLen 0).symm
  rw [classByTable_eq_firstApplying, applies_ipHeader he, hheader, hdatagram, htype, decodeIp_headerBytes]
  by_cases hver : ip.ver = 4#4
  case neg => simp [*, firstApplying, classTable, Instr.mnemonic]
  by_cases hihl : ip.ihl.toNat < 5
  case pos => simp [*, firstApplying, classTable, Instr.mnemonic]
  have hihl' := Nat.not_lt.1 hihl
  by_cases httl : ip.ttl = 0#8
  case pos => simp [*, firstApplying, classTable, Instr.mnemonic]
  by_cases hspan : 20 + rest.length < ip.headerLen
  case pos => simp [*, firstApplying, classTable, Instr.mnemonic]
  have hspan' := Nat.not_lt.1 hspan
  by_cases hsum : internetChecksum ((ip.bytes ++ rest).take ip.headerLen) = 0#16
  case neg => simp [*, firstApplying, classTable, Instr.mnemonic]
  by_cases htl : ip.tl.toNat < ip.headerLen ∨ 20 + rest.length < ip.tl.toNat
  case pos => simp [*, firstApplying, classTable, Instr.mnemonic]
  obtain ⟨hle, hfit⟩ := not_or.1 htl
  have hle' := Nat.not_lt.1 hle
  have hfit' := Nat.not_lt.1 hfit
  by_cases hproto : ip.proto = ipProtocolIcmp
  case neg =>
    simp [*, firstApplying, classTable, Instr.mnemonic]
  have hvalid : (if ip.proto ≠ ipProtocolIcmp then Instr.ipNotIcmp eth ip rest else decodeIcmp eth ip (ip.bytes ++ rest)) =
      decodeIcmp eth ip (ip.bytes ++ rest) := if_neg (not_not_intro hproto)
  rw [hvalid, decodeIcmp]
  generalize (IcmpHeader.parse ((ip.bytes ++ rest).drop ip.headerLen)) = icmp
  by_cases hmsg : ip.tl.toNat - ip.headerLen < 4
  case pos =>
    simp [*, firstApplying, classTable, Instr.mnemonic]
  have hmsg' := Nat.not_lt.1 hmsg
  by_cases ht : icmp.icmpType = icmpEchoRequestType
  case pos =>
    simp [*, firstApplying, classTable, Instr.mnemonic]
  case neg =>
    simp [*, firstApplying, classTable, Instr.mnemonic]

/-- Row 1 of the table and of R79. -/
theorem classByTable_of_runt {bs : List Byte} (h : bs.length < 14) : classByTable bs = some "ETH_RUNT" := by
  simp [classByTable_eq_firstApplying, classTable, ClassRow.applies, firstApplying, h]

/-- Row 2. -/
theorem classByTable_of_otherEtype {bs : List Byte} (h : 14 ≤ bs.length) (ha : be16At bs 12 ≠ etherTypeArp)
    (hi : be16At bs 12 ≠ etherTypeIpv4) : classByTable bs = some "ETH_OTHER" := by
  simp [classByTable_eq_firstApplying, classTable, ClassRow.applies, firstApplying, h, ha, hi]

/-- Row 3. -/
theorem classByTable_of_arpRunt {eth : EthHeader} (he : eth.etype = etherTypeArp) {p : List Byte} (h : p.length < 8) :
    classByTable (eth.bytes ++ p) = some "ARP_RUNT" := by
  simp [classByTable_eq_firstApplying, classTable, ClassRow.applies, firstApplying, be16At_ethBytes_etype, maskMatches_arpBits,
    payloadLen_ethBytes, he, h]

/-- Row 10. -/
theorem classByTable_of_ipRunt {eth : EthHeader} (he : eth.etype = etherTypeIpv4) {p : List Byte} (h : p.length < 20) :
    classByTable (eth.bytes ++ p) = some "IP_RUNT" := by
  have hne : ¬ etherTypeIpv4 = etherTypeArp := by decide
  simp [classByTable_eq_firstApplying, classTable, ClassRow.applies, firstApplying, be16At_ethBytes_etype, maskMatches_arpBits,
    maskMatches_ipBits, payloadLen_ethBytes, he, hne, h]

/-- Settles O3: the frame is cut into the headers that are there, and on each form the table and the decoder take the same row. -/
theorem decoderFollowsOpcodeTable : Obligations.DecoderFollowsOpcodeTable := by
  intro bs
  by_cases hlen : bs.length < 14
  · rw [classByTable_of_runt hlen, decode_of_runt hlen]
    rfl
  have heth : bs = (EthHeader.parse bs).bytes ++ bs.drop 14 := by rw [EthHeader.bytes_parse (by omega), List.take_append_drop]
  by_cases ha : be16At bs 12 = etherTypeArp
  · rw [heth, decode_arpBytes ha]
    generalize bs.drop 14 = p
    by_cases hp : p.length < 8
    · rw [classByTable_of_arpRunt ha hp, decodeArp, if_pos hp]
      rfl
    · rw [← List.take_append_drop 8 p, ← ArpHeader.bytes_parse (by omega)]
      exact classByTable_arpHeader ha _ _
  by_cases hi : be16At bs 12 = etherTypeIpv4
  · rw [heth, decode_ipBytes hi]
    generalize bs.drop 14 = p
    by_cases hp : p.length < 20
    · rw [classByTable_of_ipRunt hi hp, decodeIp, if_pos hp]
      rfl
    · rw [← List.take_append_drop 20 p, ← IpHeader.bytes_parse (by omega)]
      exact classByTable_ipHeader hi _ _
  · rw [classByTable_of_otherEtype (Nat.not_lt.1 hlen) ha hi, decode_of_otherEtype (Nat.not_lt.1 hlen) ha hi]
    rfl

end Sys2Proof
end

section
/-! SUPPORT. The meaning of each class on every state (40_ethernet.md R104, R105, 41_arp.md R114 to R120, 42_ipv4.md R134 to R141, 44_icmp.md R162 to
R164) and the steps that are no frame (46_frame_cycle.md R183 to R186, 70_reset_and_hazards.md R220, R223). -/

namespace Sys2Proof.Machine

/-! ### The classes that only drop -/

/-- Settles O23: a drop and an ignored frame. -/
theorem ethernetClassesComplete : Obligations.EthernetClassesComplete := fun _ _ _ => ⟨rfl, rfl⟩

/-- Settles O24: four drops. -/
theorem arpDropClassesComplete : Obligations.ArpDropClassesComplete := fun _ _ _ _ => ⟨rfl, rfl, rfl, rfl⟩

/-- Settles O25: seven drops. -/
theorem ipDropClassesComplete : Obligations.IpDropClassesComplete := fun _ _ _ _ => ⟨rfl, rfl, rfl, rfl, rfl, rfl, rfl⟩

/-! ### The classes that check the destination -/

theorem exec_icmpRunt (eth : EthHeader) (ip : IpHeader) (rest : List Byte) (s : State) :
    exec (.icmpRunt eth ip rest) s = finish (s.notForUs .ip ip.dst (drop .truncated .icmp)) := rfl

/-- Settles O26: past the check both classes are the same drop. -/
theorem arpOtherOpcodesLearnAndDrop : Obligations.ArpOtherOpcodesLearnAndDrop := by
  intro s eth arp body trailer hpass
  rw [exec_arpReplyIn, exec_arpOpcodeOther, State.learn_notForUs_of_passesCheck hpass]
  exact ⟨rfl, rfl⟩

/-- Settles O27: past the check each class is a drop. -/
theorem ipNotIcmpAndIcmpRuntDrop : Obligations.IpNotIcmpAndIcmpRuntDrop := by
  intro s eth ip bs hpass
  rw [exec_ipNotIcmp, exec_icmpRunt, State.notForUs_of_passesCheck hpass, State.notForUs_of_passesCheck hpass]
  exact ⟨rfl, rfl⟩

theorem not_passesCheck_of_drop {c : Config} {ip : IpAddr} (hp : c.policy = .drop) (hip : ip ≠ c.devIp) : ¬ passesCheck c ip := by
  rintro (h | h)
  · exact hip h
  · rw [hp] at h
    cases h

theorem mismatchReports_of_ne {c : Config} {ip : IpAddr} (h : ip ≠ c.devIp) (l : Layer) : mismatchReports c l ip = [⟨.notForUs, l⟩] :=
  if_neg h

/-- R24, R110 step A6: under DROP a class that learns the sender and checks the target ends at the mismatch, whatever comes after the check. -/
theorem learn_notForUs_of_drop {s : State} {body : ArpBody} (hp : s.cfg.policy = .drop) (hip : body.tpa ≠ s.cfg.devIp) (arp : ArpHeader)
    (go : State → Op State) :
    finish ((s.learn arp.htype body.spa body.sha).notForUs .arp body.tpa go) = .next { s with
      cache := learnedCache s.cache arp.htype body.spa body.sha
      reports := s.reports ++ [⟨learnReport s.cache arp.htype body.spa body.sha, .arp⟩, ⟨.notForUs, .arp⟩]
      out := none } := by
  rw [State.learn_notForUs_of_not_passesCheck (not_passesCheck_of_drop hp hip), State.arpAdmitted, mismatchReports_of_ne hip,
    List.append_assoc]
  rfl

/-- R24, R131: as `learn_notForUs_of_drop`, for a class that checks the IPv4 destination. -/
theorem notForUs_of_drop {s : State} {ip : IpAddr} (hp : s.cfg.policy = .drop) (hip : ip ≠ s.cfg.devIp) (go : State → Op State) :
    finish (s.notForUs .ip ip go) = .next { s with reports := s.reports ++ [⟨.notForUs, .ip⟩], out := none } := by
  rw [State.notForUs_of_not_passesCheck (not_passesCheck_of_drop hp hip), mismatchReports_of_ne hip, finish_ok]

/-- Settles O31: the meaning of each of the seven classes begins with its check. -/
theorem dropPolicyEndsAtNotForUs : Obligations.DropPolicyEndsAtNotForUs := by
  intro s eth arp body ip icmp x y z hp
  refine ⟨fun hip => ?arp, fun hip => ?ip⟩
  case arp => exact ⟨learn_notForUs_of_drop hp hip arp _, learn_notForUs_of_drop hp hip arp _, learn_notForUs_of_drop hp hip arp _⟩
  case ip => exact ⟨notForUs_of_drop hp hip _, notForUs_of_drop hp hip _, notForUs_of_drop hp hip _, notForUs_of_drop hp hip _⟩

/-- A sent reply in a buffer as long as the frame it answers, as an update of the loaded frame. -/
theorem State.emit_withBytes_eq_loadFrame (s : State) (rs : List Report) (r : List Byte) {bs f : List Byte} (h : bs.length = f.length) :
    ((s.reporting rs).emit r).withBytes bs =
      { s.loadFrame f with buf := cellsFrom 0 bs, reports := rs ++ verdictReports s.sinkVerdict, out := some r } := by
  rw [State.emit_eq, State.withBytes, h]
  rfl

/-- Settles O28: the reply is as long as the packet it replaces. -/
theorem arpRequestIsAnswered : Obligations.ArpRequestIsAnswered := by
  intro s eth arp body trailer _ hpass
  dsimp only
  rw [exec_arpRequest_of_passesCheck hpass]
  refine congrArg Host.Outcome.next (State.emit_withBytes_eq_loadFrame
    { s with cache := learnedCache s.cache arp.htype body.spa body.sha } _ _ ?length)
  case length => simp [length_arpReplyFrame, encode]; omega

/-- Settles O29: the well-formed operands have the lengths that the answer needs. -/
theorem echoRequestIsAnswered : Obligations.EchoRequestIsAnswered := by
  intro s eth ip options icmp data trailer hwf hpass
  obtain ⟨hvalid, -⟩ := Bool.and_eq_true_iff.1 hwf
  obtain ⟨-, -, hlen⟩ := icmpValid_iff.1 hvalid
  dsimp only
  rw [exec_icmpEchoRequest_of_passesCheck hpass hlen]
  refine congrArg Host.Outcome.next (State.emit_withBytes_eq_loadFrame s _ _ ?length)
  case length => simp [length_ipReplyFrame, encode]; omega

/-- Settles O30: as O29, with the message reflected. -/
theorem otherIcmpTypeIsReflected : Obligations.OtherIcmpTypeIsReflected := by
  intro s eth ip options icmp data trailer hwf hpass
  obtain ⟨hvalid, -⟩ := Bool.and_eq_true_iff.1 hwf
  obtain ⟨-, -, hlen⟩ := icmpValid_iff.1 hvalid
  dsimp only
  rw [exec_icmpOtherType_of_passesCheck hpass hlen]
  refine congrArg Host.Outcome.next (State.emit_withBytes_eq_loadFrame s _ _ ?length)
  case length => simp [length_ipReplyFrame, encode]; omega

/-! ### The other steps -/

/-- Settles O5. -/
theorem stepRunsDecodedClass : Obligations.StepRunsDecodedClass := by
  rintro s bytes v rest i ho rfl -
  exact step_of_offers ho

/-- Settles O43. -/
theorem hostFailureEventsHalt : Obligations.HostFailureEventsHalt := by
  intro s v rest hp
  exact ⟨fun hin => step_of_event hp hin, fun hin => step_of_event hp hin⟩

theorem step_of_halted {s : State} {c : HaltCause} {e : HostEvent} {v : Verdict} {rest : List Stimulus} (hp : s.phase = .halted c)
    (hin : s.inputs = .event e v :: rest) : step s = .refused .haltedPhase := by
  simp only [step, State.transition, hin, hp]

theorem step_of_no_inputs {s : State} (hin : s.inputs = []) : step s = .refused .noEventOffered := by
  simp only [step, State.transition, hin]

/-- Settles O44: the second clause by the cases of the inputs, as only a reset answers a next state in a halt. -/
theorem noStepWhenHaltedOrWaiting : Obligations.NoStepWhenHaltedOrWaiting := by
  refine ⟨fun s c e v rest hp hin => step_of_halted hp hin, fun s t c hp h => ?reset, fun s _ hin => step_of_no_inputs hin⟩
  case reset =>
    cases hin : s.inputs with
    | nil =>
      rw [step_of_no_inputs hin] at h
      cases h
    | cons x rest =>
      cases x with
      | reset => exact ⟨rest, rfl⟩
      | event e v =>
        rw [step_of_halted hp hin] at h
        cases h

theorem State.frameStep_of_too_long {s : State} {bytes : List Byte} (h : s.cfg.frameBufferBytes < bytes.length) :
    s.frameStep bytes = .refused .frameTooLong := if_neg (Nat.not_le.2 h)

/-- Settles O45. -/
theorem oversizeFrameIsRefused : Obligations.OversizeFrameIsRefused := by
  intro s bytes v rest hp hin hlen
  rw [step_of_event hp hin]
  exact State.frameStep_of_too_long hlen

/-- Settles O46. -/
theorem resetStep : Obligations.ResetStep := fun _ _ hin => step_of_reset hin

/-- Settles O47: a reset keeps only the configuration, the inputs and the verdict. -/
theorem resetsWithSameConfigurationAgree : Obligations.ResetsWithSameConfigurationAgree := by
  intro s s' hcfg hin
  refine ⟨?_, rfl⟩
  rw [State.applyReset, State.applyReset, hcfg, hin]

/-- Settles O48. -/
theorem resetSatisfiesInvariant : Obligations.ResetSatisfiesInvariant := by
  have hinitial : ∀ c : Config, c.wellFormed = true → (State.initial c).inv = true := fun c hc =>
    State.inv_iff.2 ⟨cacheWf_replicate_free, rfl, Nat.zero_le _, hc⟩
  exact ⟨hinitial, hinitial Config.sample rfl⟩

/-! ### The report records (R190) -/

/-- The kinds, in the order of their codes. -/
def ReportKind.all : List ReportKind :=
  [.truncated, .unsupportedHardware, .arpUnsupportedProtocol, .wrongVersion, .headerTooShort, .ttlExpired, .checksumMismatch,
    .ipUnsupportedProtocol, .unhandledOpcode, .unhandledIcmpType, .cacheFull, .notForUs, .cacheUpdated, .cacheInserted, .sendFailed,
    .readFailed, .sourceClosed]

theorem ReportKind.mem_all (k : ReportKind) : k ∈ ReportKind.all := by cases k <;> decide

theorem ReportKind.code_injective : Function.Injective ReportKind.code := fun k k' h =>
  List.inj_on_of_nodup_map (f := ReportKind.code) (l := ReportKind.all) (by decide) k.mem_all k'.mem_all h

theorem Layer.code_injective : Function.Injective Layer.code := fun l l' h =>
  have mem_layers (l : Layer) : l ∈ [Layer.eth, .arp, .ip, .icmp] := by cases l <;> decide
  List.inj_on_of_nodup_map (f := Layer.code) (by decide) (mem_layers l) (mem_layers l') h

theorem ReportKind.code_range (k : ReportKind) : 0x01 ≤ k.code.toNat ∧ k.code.toNat ≤ 0x11 := by cases k <;> decide

/-- A field of the high part of a word. -/
theorem extractLsb'_append_high {m n : Nat} (a : BitVec m) (b : BitVec n) (o k : Nat) :
    (a ++ b).extractLsb' (n + o) k = a.extractLsb' o k := by
  apply BitVec.eq_of_getLsbD_eq
  intro i hi
  rw [BitVec.getLsbD_extractLsb', BitVec.getLsbD_extractLsb', BitVec.getLsbD_append, if_neg (by omega)]
  congr 2
  omega

/-- Settles O55: the three fields of the record, and that the kind and the layer can be read back from their codes. -/
theorem reportRecordLayout : Obligations.ReportRecordLayout := by
  have hkind : ∀ r : Report, r.word.extractLsb' 0 8 = r.kind.code := fun r => low_part 8 8 _ _
  have hlayer : ∀ r : Report, r.word.extractLsb' 8 2 = r.layer.code := fun r =>
    (extractLsb'_append_high (0#6 ++ r.layer.code) r.kind.code 0 2).trans (low_part 6 2 _ _)
  have hzero : ∀ r : Report, r.word.extractLsb' 10 6 = 0#6 := fun r =>
    (extractLsb'_append_high (0#6 ++ r.layer.code) r.kind.code 2 6).trans (high_part 6 2 _ _)
  refine ⟨fun r => ⟨hkind r, hlayer r, hzero r⟩, ReportKind.code_range, fun r r' h => ?distinct⟩
  case distinct =>
    have hk : r.kind = r'.kind := ReportKind.code_injective (by rw [← hkind r, h, hkind r'])
    have hl : r.layer = r'.layer := Layer.code_injective (by rw [← hlayer r, h, hlayer r'])
    exact Report.mk.injEq .. ▸ ⟨hk, hl⟩

end Sys2Proof.Machine
end

section
/-! SUPPORT. The bounds checks as steps (41_arp.md R114, R117, 42_ipv4.md R134, R138, R140, 44_icmp.md R162), and the sample frames. -/

namespace Sys2Proof

/-! ### The rows of the decoder that the bounds checks take (R79) -/

section BoundsRows

variable (eth : EthHeader) {p : List Byte}

theorem decodeArp_of_runt (h : p.length < 8) : decodeArp eth p = .arpRunt eth p := if_pos h

theorem decodeArp_of_shortBody (h : 8 ≤ p.length) (hlen : p.length < 28) (hh : be16At p 0 = arpHardwareEthernet)
    (hp : be16At p 2 = arpProtocolIpv4) : decodeArp eth p = .arpShortBody eth (ArpHeader.parse p) (p.drop 8) :=
  (if_neg (Nat.not_lt.2 h)).trans ((if_neg (not_not_intro hh)).trans ((if_neg (not_not_intro hp)).trans (if_pos hlen)))

theorem decodeIp_of_runt (h : p.length < 20) : decodeIp eth p = .ipRunt eth p := if_pos h

/-- The header of `p` is complete and passes steps I2 to I4 of R130. -/
structure IpFieldsPass (p : List Byte) : Prop where
  length : 20 ≤ p.length
  version : (IpHeader.parse p).ver = 4#4
  ihl : 5 ≤ (IpHeader.parse p).ihl.toNat
  ttl : (IpHeader.parse p).ttl ≠ 0#8

variable {eth}

theorem decodeIp_of_hdrOverrun (h : IpFieldsPass p) (hhl : p.length < (IpHeader.parse p).headerLen) :
    decodeIp eth p = .ipHdrOverrun eth (IpHeader.parse p) (p.drop 20) := by
  obtain ⟨hlen, hver, hihl, httl⟩ := h
  dsimp only [decodeIp]
  rw [if_neg (Nat.not_lt.2 hlen), if_neg (not_not_intro hver), if_neg (Nat.not_lt.2 hihl), if_neg httl, if_pos hhl]

/-- A header that verifies reaches the check of the total length. -/
theorem decodeIp_of_verified (h : IpFieldsPass p) (hhl : (IpHeader.parse p).headerLen ≤ p.length)
    (hsum : internetChecksum (p.take (IpHeader.parse p).headerLen) = 0#16) :
    decodeIp eth p =
      if (IpHeader.parse p).tl.toNat < (IpHeader.parse p).headerLen ∨ p.length < (IpHeader.parse p).tl.toNat then
        .ipBadTotalLength eth (IpHeader.parse p) (p.drop 20)
      else if (IpHeader.parse p).proto ≠ ipProtocolIcmp then .ipNotIcmp eth (IpHeader.parse p) (p.drop 20)
      else decodeIcmp eth (IpHeader.parse p) p := by
  obtain ⟨hlen, hver, hihl, httl⟩ := h
  dsimp only [decodeIp]
  rw [if_neg (Nat.not_lt.2 hlen), if_neg (not_not_intro hver), if_neg (Nat.not_lt.2 hihl), if_neg httl, if_neg (Nat.not_lt.2 hhl),
    if_neg (not_not_intro hsum)]

end BoundsRows

namespace Machine

theorem ipFieldsPass_of_frame {bytes : List Byte}
    (h : 20 ≤ payloadLen bytes ∧ verOf bytes = 4 ∧ 5 ≤ ihlOf bytes ∧ byteAt bytes 22 ≠ 0#8) : IpFieldsPass (bytes.drop 14) := by
  rw [payloadLen_eq_length, verOf_eq_four_iff, ihlOf_eq_parse, ← ttl_parse] at h
  obtain ⟨hlen, hver, hihl, httl⟩ := h
  exact ⟨hlen, hver, hihl, httl⟩

theorem tlOf_eq_parse (bytes : List Byte) : tlOf bytes = (IpHeader.parse (bytes.drop 14)).tl.toNat :=
  (congrArg BitVec.toNat (be16At_drop bytes 14 2)).symm

/-- Settles O37: a frame that is cut decodes to the class of the first bounds check that it fails; all but the last are one drop, and the last is one
past the destination check, which a datagram for the device passes without a report. -/
theorem boundsFaultSteps : Obligations.BoundsFaultSteps := by
  intro s bytes v rest ho hlen
  rw [ihlOf_mul_four, tlOf_eq_parse, headerCsumOf_eq_parse]
  refine ⟨fun he => ⟨fun hp => ?arpRunt, fun hp hp' hh ht => ?arpShort⟩,
    fun he => ⟨fun hp => ?ipRunt, fun hf hhl => ?overrun, fun hf hhl hsum htl => ?totalLength,
      fun hf hhl hsum hle htl hproto hdst hmsg => ?icmpRunt⟩⟩
  case arpRunt =>
    rw [payloadLen_eq_length] at hp
    exact step_of_dropped ho ((decode_of_arpEtype hlen he).trans (decodeArp_of_runt _ hp)) fun _ => rfl
  case arpShort =>
    rw [payloadLen_eq_length] at hp hp'
    rw [← be16At_drop bytes 14 0] at hh
    rw [← be16At_drop bytes 14 2] at ht
    exact step_of_dropped ho ((decode_of_arpEtype hlen he).trans (decodeArp_of_shortBody _ hp hp' hh ht)) fun _ => rfl
  case ipRunt =>
    rw [payloadLen_eq_length] at hp
    exact step_of_dropped ho ((decode_of_ipv4Etype hlen he).trans (decodeIp_of_runt _ hp)) fun _ => rfl
  case overrun =>
    rw [payloadLen_eq_length] at hhl
    exact step_of_dropped ho ((decode_of_ipv4Etype hlen he).trans (decodeIp_of_hdrOverrun (ipFieldsPass_of_frame hf) hhl)) fun _ => rfl
  case totalLength =>
    rw [payloadLen_eq_length] at hhl htl
    have hd := decodeIp_of_verified (eth := EthHeader.parse bytes) (ipFieldsPass_of_frame hf) hhl hsum
    rw [if_pos htl] at hd
    exact step_of_dropped ho ((decode_of_ipv4Etype hlen he).trans hd) fun _ => rfl
  case icmpRunt =>
    rw [payloadLen_eq_length] at hhl htl
    rw [← byteAt_drop bytes 14 9] at hproto
    rw [← be32At_drop bytes 14 16] at hdst
    have hd := decodeIp_of_verified (eth := EthHeader.parse bytes) (ipFieldsPass_of_frame hf) hhl hsum
    rw [if_neg (by omega), if_neg (not_not_intro (by exact hproto)), decodeIcmp, if_pos hmsg] at hd
    have hpass : passesCheck s.cfg (IpHeader.parse (bytes.drop 14)).dst := .inl hdst
    have hreports : mismatchReports s.cfg .ip (IpHeader.parse (bytes.drop 14)).dst = [] := if_pos hdst
    rw [step_of_offers ho, decode_of_ipv4Etype hlen he, hd, exec_icmpRunt, endFrame_notForUs_drop hpass, hreports]
    rfl

end Machine

/-- Settles O4: the three frames are the encodings of the three instructions, by evaluation. -/
theorem sampleFramesDecode : Obligations.SampleFramesDecode :=
  ⟨decode_encode (i := .arpRunt ⟨0xffffffffffff, 0xaabbccddeeff, 0x0806⟩ [0x00]) (by decide),
    decode_encode (i := .arpRequest ⟨0xffffffffffff, 0xaabbccddeeff, 0x0806⟩ ⟨1, 0x0800, 6, 4, 1⟩
      ⟨0xaabbccddeeff, 0x0a000005, 0, 0x0a000004⟩ []) (by decide),
    decode_encode (i := .icmpEchoRequest ⟨0x020000000004, 0xaabbccddeeff, 0x0800⟩
      ⟨4, 5, 0, 0x20, 0x1c46, 2, 0, 0x40, 1, 0x0a8f, 0x0a000005, 0x0a000004⟩ [] ⟨8, 0, 0x2104⟩
      [0x12, 0x34, 0x00, 0x01, 0x61, 0x62, 0x63, 0x64] []) (by decide)⟩

end Sys2Proof
end

section
/-! SUPPORT. The frame buffer (20_memory.md R50 to R53, 45_transmit.md R170): one access as a number and its bytes, and, for every state, which bytes an
instruction can store to and what else it leaves unchanged. -/

namespace Sys2Proof

/-! ### A number and its bytes, by position (R52, R53) -/

/-- R52's sum. -/
theorem beNat_eq_sum (bs : List Byte) :
    beNat bs = ((List.range bs.length).map fun k => (bs.getD k 0).toNat * 256 ^ (bs.length - 1 - k)).sum := by
  induction bs with
  | nil => rfl
  | cons b bs ih =>
    rw [beNat, ih, List.length_cons, List.range_succ_eq_map, List.map_cons, List.sum_cons, List.map_map]
    congr 2
    refine List.map_congr_left fun k hk => ?_
    have hexp : bs.length + 1 - 1 - (k + 1) = bs.length - 1 - k := by omega
    simp only [Function.comp_apply, List.getD_cons_succ, hexp]

theorem getElem?_beBytes {n k : Nat} (v : Nat) (h : k < n) :
    (beBytes n v)[k]? = some (BitVec.ofNat 8 ((v >>> (8 * (n - 1 - k))) &&& 0xFF)) := by
  induction n generalizing k with
  | zero => omega
  | succ n ih =>
    cases k with
    | zero =>
      have hbyte : v >>> (8 * (n + 1 - 1 - 0)) &&& 0xFF = v / 256 ^ n % 256 := by
        rw [Nat.shiftRight_eq_div_pow, Nat.pow_mul]
        exact Nat.and_two_pow_sub_one_eq_mod _ 8
      simp only [beBytes, List.getElem?_cons_zero, hbyte, Option.some.injEq]
      apply BitVec.eq_of_toNat_eq
      simp
    | succ k =>
      rw [beBytes, List.getElem?_cons_succ, ih (by omega)]
      congr 5
      omega

namespace Machine

/-- Settles O7: the bytes of the range, as a number, are the sum over their positions. -/
theorem memReadIsBigEndianOrFaults : Obligations.MemReadIsBigEndianOrFaults := by
  intro s bs o n _
  refine ⟨fun h => ?inside, fun h => ?outside⟩
  case inside =>
    have hlen : ((bs.drop o).take n).length = n := by simp; omega
    rw [State.loadFrame_eq, State.memRead_withBytes _ h, fieldAt, beNat_eq_sum, hlen]
    refine congrArg Except.ok (congrArg List.sum (List.map_congr_left fun k hk => ?_))
    have hk' := List.mem_range.1 hk
    simp [List.getD_eq_getElem?_getD, hk']
  case outside => rw [State.memRead, State.readBytes_outside h]

/-- The bytes written over a byte string stand where they were written. -/
theorem take_drop_splice {bs ws : List Byte} {o n : Nat} (h : o ≤ bs.length) (hn : ws.length = n) :
    ((splice bs o ws).drop o).take n = ws := by
  rw [splice, List.append_assoc, List.drop_left' (by simpa using h), List.take_left' hn]

/-- Settles O8: the write as the written range of the buffer, and, for the read, as the bytes spliced into the frame. -/
theorem memWriteSetsBigEndianBytes : Obligations.MemWriteSetsBigEndianBytes := by
  intro s bs o n v _ hv h
  refine ⟨_, State.memWrite_eq_ok.2 ⟨h, rfl⟩, ?reads, fun k hk => ?bytes, fun a ha => ?others, rfl⟩
  case reads =>
    have hsplice := State.memWrite_withBytes { s with reports := [], out := none } (v := v) h
    obtain ⟨-, ht⟩ := State.memWrite_eq_ok.1 hsplice
    rw [State.loadFrame_eq, ← ht, State.memRead_withBytes _ (by rw [length_splice] <;> simpa using h)]
    rw [fieldAt, take_drop_splice (by omega) (length_beBytes n v), beNat_beBytes hv]
  case bytes =>
    rw [State.setBuf_buf, Memory.read_writeRange_same (by simpa using hk), ← List.getElem?_eq_getElem, getElem?_beBytes v hk]
  case others => exact Memory.read_writeRange_other (by simpa using ha)

/-- Settles O11: the header is as long as the one it replaces, so `len` stays. -/
theorem sendEmitsHeaderAndPayload : Obligations.SendEmitsHeaderAndPayload := by
  intro s bs et n d h
  have hlen : (EthHeader.bytes { dst := d, src := s.cfg.devMac, etype := et } ++ bs.drop 14).length = bs.length := by simp; omega
  rw [State.loadFrame_eq, State.send_withBytes _ et d h, State.emit_eq, State.withBytes]
  simp only [EthHeader.bytes] at hlen ⊢
  rw [hlen]
  rfl

/-! ### What an instruction stores to, on every state (R32, R50) -/

/-- A write at a listed offset lists no other. -/
theorem Memory.map_fst_write {m : Memory} {a k n : Nat} (hm : m.map Prod.fst = List.range' k n) (ha : k ≤ a ∧ a < k + n) (b : Byte) :
    (m.write a b).map Prod.fst = m.map Prod.fst := by
  induction m generalizing k n with
  | nil =>
    obtain rfl : n = 0 := by simpa using hm.symm
    omega
  | cons c m ih =>
    obtain ⟨k', x⟩ := c
    cases n with
    | zero => simp at hm
    | succ n =>
      rw [List.map_cons, List.range'_succ, List.cons.injEq] at hm
      obtain ⟨rfl, hm⟩ := hm
      rw [Memory.write, if_neg (Nat.not_lt.2 ha.1)]
      split
      · next hak => rw [hak, List.map_cons, List.map_cons]
      · next hak => rw [List.map_cons, List.map_cons, ih hm (by omega)]

/-- A written range inside `buf[0..n)` leaves the buffer holding exactly `buf[0..n)`. -/
theorem Memory.holdsExactly_writeRange {m : Memory} {o n : Nat} {bs : List Byte} (h : m.holdsExactly n = true)
    (hn : o + bs.length ≤ n) : (m.writeRange o bs).holdsExactly n = true := by
  induction bs generalizing m o with
  | nil => exact h
  | cons b bs ih =>
    rw [List.length_cons] at hn
    refine ih ?_ (by omega)
    rw [Memory.holdsExactly, beq_iff_eq] at h ⊢
    rw [Memory.map_fst_write (by rw [h, List.range_eq_range']) ⟨Nat.zero_le o, by omega⟩, h]

/-- Between the two states only bytes of the buffer at offsets in `A`, the reports and the outbound frame changed, and the buffer kept its form. -/
structure StoresOnly (A : Nat → Prop) (s t : State) : Prop where
  read : ∀ a, ¬ A a → t.buf.read a = s.buf.read a
  wf : s.buf.wf = true → t.buf.wf = true
  holds : s.buf.holdsExactly s.len = true → t.buf.holdsExactly t.len = true
  phase : t.phase = s.phase
  cache : t.cache = s.cache
  cfg : t.cfg = s.cfg
  len : t.len = s.len
  inputs : t.inputs = s.inputs
  sinkVerdict : t.sinkVerdict = s.sinkVerdict

theorem StoresOnly.refl (A : Nat → Prop) (s : State) : StoresOnly A s s := ⟨fun _ _ => rfl, id, id, rfl, rfl, rfl, rfl, rfl, rfl⟩

theorem StoresOnly.trans {A : Nat → Prop} {s t u : State} (h : StoresOnly A s t) (h' : StoresOnly A t u) : StoresOnly A s u where
  read a ha := (h'.read a ha).trans (h.read a ha)
  wf := h'.wf ∘ h.wf
  holds := h'.holds ∘ h.holds
  phase := h'.phase.trans h.phase
  cache := h'.cache.trans h.cache
  cfg := h'.cfg.trans h.cfg
  len := h'.len.trans h.len
  inputs := h'.inputs.trans h.inputs
  sinkVerdict := h'.sinkVerdict.trans h.sinkVerdict

theorem StoresOnly.report (A : Nat → Prop) (s : State) (k : ReportKind) (l : Layer) : StoresOnly A s (s.report k l) :=
  ⟨fun _ _ => rfl, id, id, rfl, rfl, rfl, rfl, rfl, rfl⟩

theorem StoresOnly.emit (A : Nat → Prop) (s : State) (bs : List Byte) : StoresOnly A s (s.emit bs) := by
  rw [State.emit_eq]
  exact ⟨fun _ _ => rfl, id, id, rfl, rfl, rfl, rfl, rfl, rfl⟩

/-- Whenever the operation on `s` answers, it stores only to `A`. -/
def StoresIn (A : Nat → Prop) (s : State) (x : Op State) : Prop := ∀ t, x = .ok t → StoresOnly A s t

section StoresIn

variable {A : Nat → Prop} {s : State}

/-- An operation that reads first. -/
theorem StoresIn.bind_read {α : Type} {x : Op α} {f : α → Op State} (hf : ∀ a, StoresIn A s (f a)) : StoresIn A s (x >>= f) := by
  intro t h
  obtain ⟨a, -, ha⟩ := bind_eq_ok.1 h
  exact hf a t ha

theorem StoresIn.bind {x : Op State} {f : State → Op State} (hx : StoresIn A s x) (hf : ∀ u, StoresIn A u (f u)) :
    StoresIn A s (x >>= f) := by
  intro t h
  obtain ⟨u, hu, ht⟩ := bind_eq_ok.1 h
  exact (hx u hu).trans (hf u t ht)

theorem StoresIn.memWrite {o n v : Nat} (hA : ∀ a, o ≤ a → a < o + n → A a) : StoresIn A s (s.memWrite o n v) := by
  intro t h
  obtain ⟨hlen, rfl⟩ := State.memWrite_eq_ok.1 h
  refine ⟨fun a ha => ?_, fun hwf => Memory.wf_writeRange hwf _ _, fun hh => Memory.holdsExactly_writeRange hh (by simpa using hlen),
    rfl, rfl, rfl, rfl, rfl, rfl⟩
  refine Memory.read_writeRange_other ?_
  rw [length_beBytes]
  by_contra hin
  exact ha (hA a (by omega) (by omega))

theorem StoresIn.writeByte {o : Nat} {v : Byte} (hA : ∀ a, o ≤ a → a < o + 1 → A a) : StoresIn A s (s.writeByte o v) := .memWrite hA

theorem StoresIn.writeHalf {o : Nat} {v : Half} (hA : ∀ a, o ≤ a → a < o + 2 → A a) : StoresIn A s (s.writeHalf o v) := .memWrite hA

theorem StoresIn.writeIp {o : Nat} {v : IpAddr} (hA : ∀ a, o ≤ a → a < o + 4 → A a) : StoresIn A s (s.writeIp o v) := .memWrite hA

theorem StoresIn.writeMac {o : Nat} {v : MacAddr} (hA : ∀ a, o ≤ a → a < o + 6 → A a) : StoresIn A s (s.writeMac o v) := .memWrite hA

/-- R153: the fill stores to its field. -/
theorem StoresIn.csumFill {a b f : Nat} (hA : ∀ x, f ≤ x → x < f + 2 → A x) : StoresIn A s (s.csumFill a b f) :=
  .bind (.memWrite hA) fun _ => .bind_read fun _ => .memWrite hA

/-- R102, R170: a send stores to the Ethernet header. -/
theorem StoresIn.send {et : Half} {n : Nat} {d : MacAddr} (hA : ∀ a, a < 14 → A a) : StoresIn A s (s.send et n d) := by
  refine .bind (.bind (.writeHalf fun a _ _ => hA a (by omega)) fun _ => .bind (.writeMac fun a _ _ => hA a (by omega)) fun _ =>
    .writeMac fun a _ _ => hA a (by omega)) fun u => .bind_read fun bs => ?_
  rintro t ⟨⟩
  exact .emit A u bs

theorem StoresIn.drop (k : ReportKind) (l : Layer) : StoresIn A s (drop k l s) := by
  rintro t ⟨⟩
  exact ⟨fun _ _ => rfl, id, id, rfl, rfl, rfl, rfl, rfl, rfl⟩

theorem StoresIn.report {x : Op State} (k : ReportKind) (l : Layer) (h : StoresIn A (s.report k l) x) : StoresIn A s x :=
  fun t ht => (StoresOnly.report A s k l).trans (h t ht)

/-- R24, R131: the check itself stores nothing. -/
theorem StoresIn.notForUs {go : State → Op State} (hgo : ∀ u, StoresIn A u (go u)) (l : Layer) (ip : IpAddr) :
    StoresIn A s (s.notForUs l ip go) := by
  rw [State.notForUs_eq]
  split
  · exact hgo s
  split
  · exact .report .notForUs l (hgo _)
  · exact .drop .notForUs l

end StoresIn

/-- R113. -/
theorem State.arpReply_storesIn (s : State) : StoresIn (fun a => a < 14 ∨ 20 ≤ a ∧ a < 42) s s.arpReply :=
  .bind_read fun _ => .bind_read fun _ => .bind (.writeHalf (by omega)) fun _ => .bind (.writeMac (by omega)) fun _ =>
    .bind (.writeIp (by omega)) fun _ => .bind (.writeMac (by omega)) fun _ => .bind (.writeIp (by omega)) fun _ => .send (by omega)

/-- R133. -/
theorem State.ipReply_storesIn {A : Nat → Prop} (hA : ∀ a, a < 14 ∨ 24 ≤ a ∧ a < 34 → A a) (s : State) (hl tl : Nat) :
    StoresIn A s (s.ipReply hl tl) :=
  .bind_read fun _ => .bind_read fun _ => .bind (.writeIp fun a _ _ => hA a (by omega)) fun _ =>
    .bind (.writeIp fun a _ _ => hA a (by omega)) fun _ => .bind (.csumFill fun a _ _ => hA a (by omega)) fun _ =>
      .send fun a _ => hA a (by omega)

/-- R161. -/
theorem State.icmpToReply_storesIn {A : Nat → Prop} {i : Nat} (hA : ∀ a, a = i ∨ i + 2 ≤ a ∧ a < i + 4 → A a) (s : State) (l : Nat) :
    StoresIn A s (s.icmpToReply i l) :=
  .bind (.writeByte fun a _ _ => hA a (by omega)) fun _ => .csumFill fun a _ _ => hA a (by omega)

/-- The offsets that a class stores to (R102, R113, R133, R161). -/
def storesTo : Instr → Nat → Prop
  | .arpRequest .., a => a < 14 ∨ 20 ≤ a ∧ a < 42
  | .icmpEchoRequest _ ip _ _ _ _, a =>
    (a < 14 ∨ 24 ≤ a ∧ a < 34) ∨ a = 14 + ip.headerLen ∨ 14 + ip.headerLen + 2 ≤ a ∧ a < 14 + ip.headerLen + 4
  | .icmpOtherType .., a => a < 14 ∨ 24 ≤ a ∧ a < 34
  | _, _ => False

/-- Step A5 (R110) stores nothing: what follows it starts from the state with the learned cache. -/
theorem StoresIn.learn {A : Nat → Prop} {s : State} {ht : Half} {ip : IpAddr} {hw : MacAddr} {x : Op State}
    (h : StoresIn A (s.learn ht ip hw) x) : StoresIn A { s with cache := learnedCache s.cache ht ip hw } x := by
  rw [State.learn_eq] at h
  exact .report _ _ h

/-- Every instruction, on every state in which it completes, stores only where its class stores, and learns only what its class learns. -/
theorem exec_storesOnly {i : Instr} {s t : State} (h : exec i s = .next t) :
    StoresOnly (storesTo i) { s with cache := i.cacheAfter s.cache } t := by
  cases i with
  | ethOther =>
    obtain rfl := Host.Outcome.next.inj h
    exact ⟨fun _ _ => rfl, id, id, rfl, rfl, rfl, rfl, rfl, rfl⟩
  | arpRequest => exact (StoresIn.learn (.notForUs State.arpReply_storesIn _ _)) t (finish_eq_next.1 h)
  | arpReplyIn | arpOpcodeOther => exact (StoresIn.learn (.notForUs (fun _ => .drop _ _) _ _)) t (finish_eq_next.1 h)
  | ipNotIcmp | icmpRunt => exact StoresIn.notForUs (fun _ => .drop _ _) _ _ t (finish_eq_next.1 h)
  | icmpEchoRequest =>
    exact StoresIn.notForUs (fun u => .bind (u.icmpToReply_storesIn (fun _ => .inr) _) fun u' => u'.ipReply_storesIn (fun _ => .inl) _ _)
      _ _ t (finish_eq_next.1 h)
  | icmpOtherType =>
    exact StoresIn.notForUs (fun u => .report _ _ (State.ipReply_storesIn (fun _ => id) _ _ _)) _ _ t (finish_eq_next.1 h)
  | ethRunt | arpRunt | arpBadHtype | arpBadPtype | arpShortBody | ipRunt | ipBadVersion | ipBadIhl | ipTtlZero | ipHdrOverrun
  | ipBadChecksum | ipBadTotalLength => exact StoresIn.drop _ _ t (finish_eq_next.1 h)

/-- Settles O9. -/
theorem execKeepsBufferForm : Obligations.ExecKeepsBufferForm := by
  intro i s t hwf h
  have hs := exec_storesOnly h
  exact ⟨hs.wf hwf, hs.len, hs.holds⟩

/-- Settles O32. -/
theorem arpRequestFrame : Obligations.ArpRequestFrame := by
  intro s t eth arp body trailer h
  have hs := exec_storesOnly h
  exact ⟨fun a _ _ => hs.read a (by simp only [storesTo]; omega), hs.cache, hs.phase, hs.cfg, hs.len, hs.inputs, hs.sinkVerdict⟩

/-- Settles O33. -/
theorem icmpReplyFrames : Obligations.IcmpReplyFrames := by
  intro s t eth ip options icmp data trailer
  refine ⟨fun h => ?_, fun h => ?_⟩
  · have hs := exec_storesOnly h
    exact ⟨fun a _ _ _ _ => hs.read a (by simp only [storesTo]; omega), hs.cache, hs.phase, hs.cfg, hs.len, hs.inputs, hs.sinkVerdict⟩
  · have hs := exec_storesOnly h
    exact ⟨fun a _ _ => hs.read a (by simp only [storesTo]; omega), hs.cache, hs.phase, hs.cfg, hs.len, hs.inputs, hs.sinkVerdict⟩

end Machine

end Sys2Proof
end

section
/-! SUPPORT. The laws of the Internet checksum (43_checksum.md R150 to R154). -/

namespace Sys2Proof

/-! ### The fold and the checksum as functions of the exact sum (R151) -/

theorem toNat_sumWords_zero {bs : List Byte} (h : bs.length ≤ 131074) : (sumWords 0#32 bs).toNat = wordSum bs := by
  have hsum := wordSum_le bs
  rw [toNat_sumWords, BitVec.toNat_ofNat]
  omega

theorem onesFold_eq_max_iff (w : Nat) : onesFold w = 0xFFFF ↔ 0 < w ∧ w % 0xFFFF = 0 := by
  unfold onesFold
  split <;> omega

theorem onesFold_eq_zero_iff (w : Nat) : onesFold w = 0 ↔ w = 0 := by
  unfold onesFold
  split <;> omega

theorem internetChecksum_eq_zero_iff {bs : List Byte} (h : bs.length ≤ 131074) :
    internetChecksum bs = 0#16 ↔ onesFold (wordSum bs) = 0xFFFF := by
  have hfold := onesFold_le (wordSum bs)
  rw [BitVec.toNat_eq, toNat_internetChecksum h, BitVec.toNat_ofNat]
  omega

theorem internetChecksum_eq_max_iff {bs : List Byte} (h : bs.length ≤ 131074) :
    internetChecksum bs = 0xFFFF#16 ↔ wordSum bs = 0 := by
  have hfold := onesFold_le (wordSum bs)
  rw [← onesFold_eq_zero_iff, BitVec.toNat_eq, toNat_internetChecksum h, BitVec.toNat_ofNat]
  omega

theorem toNat_byte_eq_zero_iff (x : Byte) : x.toNat = 0 ↔ x = 0#8 :=
  (BitVec.toNat_eq (x := x) (y := 0#8)).symm

theorem wordSum_eq_zero_iff : ∀ bs : List Byte, wordSum bs = 0 ↔ ∀ b ∈ bs, b = 0#8
  | [] => by simp [wordSum]
  | [x] => by simp [wordSum, toNat_byte_eq_zero_iff]
  | x :: y :: rest => by
    have ih := wordSum_eq_zero_iff rest
    simp [wordSum, toNat_byte_eq_zero_iff, ih, and_assoc]

/-- R151 item 4: the exact sum of whole words and a rest. -/
theorem wordSum_words (ws : List (Byte × Byte)) (rest : List Byte) :
    wordSum (ws.flatMap (fun w => [w.1, w.2]) ++ rest) = (ws.map fun w => w.1.toNat * 256 + w.2.toNat).sum + wordSum rest := by
  induction ws with
  | nil => simp
  | cons w ws ih => simp [wordSum, ih, Nat.add_assoc]

/-- The checksum depends on the exact sum alone, even where the accumulator wraps. -/
theorem internetChecksum_congr {bs bs' : List Byte} (h : wordSum bs = wordSum bs') : internetChecksum bs = internetChecksum bs' := by
  have hsum : sumWords 0#32 bs = sumWords 0#32 bs' := BitVec.eq_of_toNat_eq (by rw [toNat_sumWords, toNat_sumWords, h])
  rw [internetChecksum, internetChecksum, hsum]

/-- Settles O12. -/
theorem checksumIsComplementOfOnesFold : Obligations.ChecksumIsComplementOfOnesFold := by
  refine ⟨fun a => ⟨toNat_foldCarries a, ?noCarry⟩, fun bs h => ⟨toNat_sumWords_zero h, toNat_internetChecksum h⟩⟩
  case noCarry =>
    rw [carries_eq_zero_iff, toNat_foldCarries]
    exact Nat.lt_succ_of_le (onesFold_le _)

/-- Settles O13. -/
theorem checksumVerifiesExactlyOnMultiples : Obligations.ChecksumVerifiesExactlyOnMultiples := fun _ h =>
  ⟨internetChecksum_eq_zero_iff h, (internetChecksum_eq_zero_iff h).trans (onesFold_eq_max_iff _)⟩

/-- Settles O14. -/
theorem checksumExtremes : Obligations.ChecksumExtremes := fun bs h =>
  ⟨(internetChecksum_eq_max_iff h).trans (wordSum_eq_zero_iff bs), internetChecksum_eq_zero_iff h⟩

/-- Settles O15: the exact sum adds the words in any order. -/
theorem checksumIgnoresWordOrder : Obligations.ChecksumIgnoresWordOrder := by
  intro ws ws' last hperm
  apply internetChecksum_congr
  rw [wordSum_words, wordSum_words, (hperm.map _).sum_eq]

/-! ### CSUM_FILL inside a frame (R153) -/

/-- A byte string cut around a range and a two-byte field in it. -/
theorem append_extract_pieces {bs : List Byte} {a b f : Nat} (ha : a ≤ f) (hf : f + 2 ≤ b) :
    bs.take a ++ (bs.extract a f ++ (bs.extract f (f + 2) ++ (bs.extract (f + 2) b ++ bs.drop b))) = bs := by
  simp only [List.extract_eq_take_drop, ← List.append_assoc, take_append_piece]
  rw [Nat.add_sub_cancel' ha, take_append_piece, Nat.add_sub_cancel' (by omega), take_append_piece, Nat.add_sub_cancel' hf,
    List.take_append_drop]

namespace Machine

/-- R153: CSUM_FILL on a loaded frame, as the frame with a new field. -/
theorem State.csumFill_loadFrame (s : State) {bs : List Byte} {a b f : Nat} (ha : a ≤ f) (hf : f + 2 ≤ b) (hb : b ≤ bs.length) :
    (s.loadFrame bs).csumFill a b f = .ok ((s.loadFrame bs).withBytes (bs.take a ++ (bs.extract a f ++
      (halfBytes (internetChecksum (bs.extract a f ++ (halfBytes 0#16 ++ bs.extract (f + 2) b))) ++
        (bs.extract (f + 2) b ++ bs.drop b))))) := by
  have hfill := State.csumFill_pieces (s.loadFrame bs) (bs.take a) (bs.extract a f) (bs.extract f (f + 2)) (bs.extract (f + 2) b)
    (bs.drop b) (a := a) (b := b) (f := f) (by simp; omega) (by simp; omega) (by simp; omega) (by simp; omega)
  rw [append_extract_pieces ha hf] at hfill
  exact hfill

/-- Settles O16: the frame is cut around the range and its field; the filled range verifies, and only the field is stored to. -/
theorem checksumFillVerifies : Obligations.ChecksumFillVerifies := by
  intro s bs a b f ha hf hb heven hlen
  have hfill := s.csumFill_loadFrame ha hf hb
  have hstores := StoresIn.csumFill (A := fun x => f ≤ x ∧ x < f + 2) (fun _ h h' => ⟨h, h'⟩) _ hfill
  have hbefore : (bs.take a).length = a := by simp; omega
  have hpre : (bs.extract a f).length = f - a := by simp; omega
  have hpost : (bs.extract (f + 2) b).length = b - (f + 2) := by simp; omega
  have hverifies := internetChecksum_filled (pre := bs.extract a f) (post := bs.extract (f + 2) b) (by rwa [hpre]) (by omega)
  generalize hc : internetChecksum (bs.extract a f ++ (halfBytes 0#16 ++ bs.extract (f + 2) b)) = c at *
  refine ⟨_, c, hfill, ?verifies, ?value, ?field, fun x hx => ?others, ?rest⟩
  case verifies =>
    rw [State.csum_withBytes _ (by simp; omega), List.drop_left' hbefore, ← List.append_assoc _ (bs.extract (f + 2) b),
      ← List.append_assoc (bs.extract a f), List.take_left' (by simp; omega), hverifies]
  case value =>
    rw [← hc, List.append_assoc]
    rfl
  case field =>
    rw [State.readHalf_withBytes _ (by simp; omega), ← List.append_assoc (bs.take a), be16At_append (by simp; omega),
      List.length_append, hbefore, hpre, Nat.add_sub_cancel' ha, Nat.sub_self, be16At_halfBytes]
  case others =>
    rw [hstores.read x (by omega)]
    exact read_cellsFrom_zero x bs
  case rest =>
    have hlength := hstores.len
    rw [State.withBytes_len] at hlength
    rw [State.withBytes, hlength]
    rfl

end Machine

end Sys2Proof
end

section
/-! SUPPORT. The textual form of the host events (30_encoding.md R82): a rendered line splits into its words, and each word reads back. -/

namespace Sys2Proof.Machine

/-- A hex digit reads back, and is neither a separator nor the mark of a comment. -/
theorem hexChar_reads : ∀ n < 16, hexValue (hexChar n) = some n ∧ hexChar n ≠ ' ' ∧ hexChar n ≠ ';' := by decide

/-- The word of a byte: its rendering without the separator. -/
def byteWord (b : Byte) : List Char := [hexChar (b.toNat / 16), hexChar (b.toNat % 16)]

theorem renderByte_eq (b : Byte) : renderByte b = ' ' :: byteWord b := rfl

/-- The two digits of a byte read back, and are neither a separator nor the mark of a comment. -/
theorem byteWord_digits (b : Byte) : ∀ c ∈ byteWord b, c ≠ ' ' ∧ c ≠ ';' := by
  have hb := b.isLt
  obtain ⟨-, hhigh⟩ := hexChar_reads (b.toNat / 16) (by omega)
  obtain ⟨-, hlow⟩ := hexChar_reads (b.toNat % 16) (by omega)
  simp only [byteWord, List.forall_mem_cons]
  exact ⟨hhigh, hlow, nofun⟩

theorem parseByte_byteWord (b : Byte) : parseByte (byteWord b) = some b := by
  have hb := b.isLt
  obtain ⟨hhigh, -⟩ := hexChar_reads (b.toNat / 16) (by omega)
  obtain ⟨hlow, -⟩ := hexChar_reads (b.toNat % 16) (by omega)
  have hdigits : b.toNat / 16 * 16 + b.toNat % 16 = b.toNat := by omega
  simp only [byteWord, parseByte, hhigh, hlow, hdigits, BitVec.ofNat_toNat, BitVec.setWidth_eq]

theorem parseBytes_map_byteWord (bytes : List Byte) : parseBytes (bytes.map byteWord) = some bytes := by
  induction bytes with
  | nil => rfl
  | cons b bytes ih => simp only [List.map_cons, parseBytes, parseByte_byteWord, ih]

/-- The text before the first separator is a word, empty or not. -/
theorem splitWords_ne_nil (cs : List Char) : splitWords cs ≠ [] := by
  cases cs with
  | nil => exact List.cons_ne_nil _ _
  | cons c cs => simp only [splitWords, ne_eq]; split <;> simp only [reduceCtorEq, not_false_eq_true, ite_eq_iff, and_false, or_self]

/-- A word stands before the words of what follows. -/
theorem splitWords_word_append {w : List Char} (hw : ∀ c ∈ w, c ≠ ' ') (rest : List Char) :
    splitWords (w ++ ' ' :: rest) = w :: splitWords rest := by
  induction w with
  | nil =>
    obtain ⟨word, words, hrest⟩ := List.exists_cons_of_ne_nil (splitWords_ne_nil rest)
    simp only [List.nil_append, splitWords, hrest, if_true]
  | cons c w ih =>
    obtain ⟨hc, hw⟩ := List.forall_mem_cons.1 hw
    simp only [List.cons_append, splitWords, ih hw, if_neg hc]

theorem splitWords_word {w : List Char} (hw : ∀ c ∈ w, c ≠ ' ') : splitWords w = [w] := by
  induction w with
  | nil => rfl
  | cons c w ih =>
    obtain ⟨hc, hw⟩ := List.forall_mem_cons.1 hw
    simp only [splitWords, ih hw, if_neg hc]

/-- The words of a rendered frame. -/
theorem splitWords_frame {w : List Char} (hw : ∀ c ∈ w, c ≠ ' ') (bytes : List Byte) :
    splitWords (w ++ bytes.flatMap renderByte) = w :: bytes.map byteWord := by
  induction bytes generalizing w with
  | nil => rw [List.flatMap_nil, List.append_nil, splitWords_word hw, List.map_nil]
  | cons b bytes ih =>
    rw [List.flatMap_cons, renderByte_eq, List.cons_append, splitWords_word_append hw, ih fun c hc => (byteWord_digits b c hc).1,
      List.map_cons]

/-- The name of the frame event holds no separator and no mark of a comment. -/
theorem frameName_chars : ∀ c ∈ "FRAME".toList, c ≠ ' ' ∧ c ≠ ';' := by
  rw [show "FRAME".toList = ['F', 'R', 'A', 'M', 'E'] from rfl]
  simp

theorem renderLine_frame (bytes : List Byte) :
    renderLine (.frame bytes) = "FRAME".toList ++ bytes.flatMap renderByte := rfl

/-- No comment is cut off a rendered frame. -/
theorem renderLine_frame_chars (bytes : List Byte) : ∀ c ∈ renderLine (.frame bytes), c ≠ ';' := by
  intro c hc
  obtain hname | hbytes := List.mem_append.1 hc
  · exact (frameName_chars c hname).2
  · obtain ⟨b, -, hb⟩ := List.mem_flatMap.1 hbytes
    rw [renderByte_eq, List.mem_cons] at hb
    obtain rfl | hdigit := hb
    · decide
    · exact (byteWord_digits b c hdigit).2

/-- The words of a frame line, none of them empty. -/
theorem words_frame (bytes : List Byte) :
    (splitWords ((renderLine (.frame bytes)).takeWhile (· != ';'))).filter (fun w => !w.isEmpty) =
      "FRAME".toList :: bytes.map byteWord := by
  have hcomment : (renderLine (.frame bytes)).takeWhile (· != ';') = renderLine (.frame bytes) :=
    List.takeWhile_eq_self_iff.2 fun c hc => bne_iff_ne.2 (renderLine_frame_chars bytes c hc)
  rw [hcomment, renderLine_frame, splitWords_frame fun c hc => (frameName_chars c hc).1]
  refine List.filter_eq_self.2 (List.forall_mem_cons.2 ⟨by simp, fun w hw => ?_⟩)
  obtain ⟨b, -, rfl⟩ := List.mem_map.1 hw
  rfl

/-- Settles O60: the words of a rendered frame are its name and its bytes, each of which reads back. -/
theorem renderedEventsParseBack : Obligations.RenderedEventsParseBack := by
  intro e
  cases e with
  | frame bytes => simp only [parseLine, words_frame, if_true, parseBytes_map_byteWord, Option.map_some]
  | readFailed => decide
  | sourceClosed => decide

end Sys2Proof.Machine
end
